-- ==== Sys2Proof/Word.lean ====
section
/-! DEFINITION. The words of the ECPU: registers and commands are 64 bits, probabilities 8, counters 32. -/

namespace Sys2Proof

/-- A host register or a command word (R13, R42). -/
abbrev Word := BitVec 64

/-- A probability, or an opcode byte (R20, R42). -/
abbrev Byte := BitVec 8

/-- A counter of the count table: `COUNT_WIDTH` is 32 (R7, R21). -/
abbrev Count := BitVec 32

/-- `NCLS` .. `NNODE`, the fixed dimensions of the probability table (R6). -/
def numClasses : Nat := 2
def numRefs : Nat := 2
def numBands : Nat := 6
def numContexts : Nat := 6
def numNodes : Nat := 11

/-- `NCLS * NREF * NBAND * NCTX` cells (R33). -/
def numCells : Nat := 144

/-- The entries of `PT` and of `CT` (R20, R21). -/
def numEntries : Nat := 1584

/-- The largest block's coefficients, the entries of `TC` (R22). -/
def numTokens : Nat := 1024

/-- `BAND_LIMIT`, the last scan index with a band from the ROM (R6). -/
def bandLimit : Nat := 21

/-- The number of scan orders (R56). -/
def numScans : Nat := 10

/-- The number of planes with an entropy context (R23). -/
def numPlanes : Nat := 3

end Sys2Proof
end

