-- ==== Sys2Proof/Syntax.lean ====
section
/-! DEFINITION. The commands of the ECPU as syntax: one constructor of `Instr` for each row of the opcode map (R44), with
the operand fields of the row's format (R43). A field is kept as what it names: a code of four sizes is an inductive type,
an index or an amount is a natural number, a probability is its eight bits. -/

namespace Sys2Proof

/-- `SIZE` (R47): the four square transform sizes. -/
inductive TxSize where
  | s4x4 | s8x8 | s16x16 | s32x32
deriving DecidableEq, Repr

/-- `TXTYPE` (R47): the three types and code 3, which is not a legal type and raises `BAD_GEOMETRY`. -/
inductive TxType where
  | dctDct | adstDct | dctAdst | code3
deriving DecidableEq, Repr

/-- `REF` (R47): the reference type. -/
inductive RefType where
  | intra | inter
deriving DecidableEq, Repr

/-- `CLS` (R55): the plane class. -/
inductive PlaneClass where
  | luma | chroma
deriving DecidableEq, Repr

/-- `TOKEN` (R48): the thirteen tokens in the source's order, then the unused codes 13 to 15. -/
inductive Token where
  | zero | one | two | three | four
  | category1 | category2 | category3 | category4 | category5 | category6
  | endOfBlock | endOfSuperblock
  | code13 | code14 | code15
deriving DecidableEq, Repr

/-- The cell operands of the P formats: `CLS`, `REF`, `BAND`, `CTX` (R43, R73). -/
structure CellRef where
  cls  : PlaneClass
  ref  : RefType
  band : Nat
  ctx  : Nat
deriving DecidableEq, Repr

/-- The 22 commands (R44). -/
inductive Instr where
  /-- 0x00, format N (R52). -/
  | nop
  /-- 0x01, format N (R53). -/
  | clearErr
  /-- 0x02, format K (R54). -/
  | setConfig (compactEn adaptEn irqEn : Bool)
  /-- 0x03, format N (R82). -/
  | resetDefaults
  /-- 0x04, format N (R84). -/
  | clearCounts
  /-- 0x10, format G (R57). `plane` is the two-bit code, 3 included. -/
  | blockStart (size : TxSize) (txtype : TxType) (plane : Nat) (ref : RefType)
  /-- 0x11, format S (R60). -/
  | scanLookup (c : Nat)
  /-- 0x12, format S (R63). -/
  | bandLookup (c : Nat)
  /-- 0x18, format C (R69). -/
  | ctxDerive (c col row : Nat)
  /-- 0x19, format T (R65). -/
  | tcWrite (c : Nat) (token : Token)
  /-- 0x1A, format E (R70). -/
  | ecWrite (nz : Bool) (col row : Nat)
  /-- 0x1B, format X (R71). -/
  | ecClear (above left : Bool)
  /-- 0x20, format P0 (R75). -/
  | probRead (cell : CellRef)
  /-- 0x21, format C (R76). -/
  | coefLookup (c col row : Nat)
  /-- 0x22, format P4 (R77). -/
  | probWrite (cell : CellRef) (node : Nat) (value : Byte)
  /-- 0x23, format P2 (R79). `br` is the branch taken, `false` for branch 0. -/
  | countRecord (cell : CellRef) (node : Nat) (br : Bool)
  /-- 0x24, format P3 (R80). -/
  | countAdd (cell : CellRef) (node : Nat) (br : Bool) (amount : Nat)
  /-- 0x25, format P1 (R81). -/
  | countRead (cell : CellRef) (node : Nat)
  /-- 0x30, format V (R91). -/
  | subexpUpdate (prob : Byte)
  /-- 0x31, format N (R92). -/
  | fwdUpdate
  /-- 0x32, format V (R96). -/
  | modelExpand (prob : Byte)
  /-- 0x38, format N (R99). -/
  | adapt
deriving DecidableEq, Repr

/-- The formats of R43. -/
inductive Format where
  | N | K | X | G | S | C | T | E | P0 | P1 | P2 | P3 | P4 | V
deriving DecidableEq, Repr

/-- What a decoder of command words answers (R45): exactly one of three verdicts. -/
inductive Verdict where
  /-- `OPC` is not in the map of R44. -/
  | badOpcode
  /-- A known opcode with a reserved bit set. -/
  | reservedField
  /-- The opcode with its fields. -/
  | command (i : Instr)
deriving DecidableEq, Repr

/-- The pseudo-instructions (R51), as the commands they expand to, in order. -/
def ecClearAll : List Instr := [.ecClear true true]
def seqReset : List Instr := [.resetDefaults, .clearCounts]

end Sys2Proof
end

