-- ==== Sys2Proof/WellFormed.lean ====
section
/-! DEFINITION. Well-formed commands: every operand fits the field its format gives it (R43). The ranges a command's own
rule checks (`C < N`, `BAND < 6` and so on) are not part of this: a word that breaks one is a command all the same, and
executing it raises an error (R45, last sentence). -/

namespace Sys2Proof

/-- `BAND` and `CTX` are three bits each. -/
def CellRef.wellFormed (c : CellRef) : Bool := decide (c.band < 8) && decide (c.ctx < 8)

/-- Every operand fits its field: `PLANE` 2 bits, `C` 10, `COL` and `ROW` 16, `NODE` 4, `AMOUNT` 32 (R43). -/
def Instr.wellFormed : Instr → Bool
  | .nop => true
  | .clearErr => true
  | .setConfig _ _ _ => true
  | .resetDefaults => true
  | .clearCounts => true
  | .blockStart _ _ plane _ => decide (plane < 4)
  | .scanLookup c => decide (c < 1024)
  | .bandLookup c => decide (c < 1024)
  | .ctxDerive c col row => decide (c < 1024) && decide (col < 65536) && decide (row < 65536)
  | .tcWrite c _ => decide (c < 1024)
  | .ecWrite _ col row => decide (col < 65536) && decide (row < 65536)
  | .ecClear _ _ => true
  | .probRead cell => cell.wellFormed
  | .coefLookup c col row => decide (c < 1024) && decide (col < 65536) && decide (row < 65536)
  | .probWrite cell node _ => cell.wellFormed && decide (node < 16)
  | .countRecord cell node _ => cell.wellFormed && decide (node < 16)
  | .countAdd cell node _ amount => cell.wellFormed && decide (node < 16) && decide (amount < 4294967296)
  | .countRead cell node => cell.wellFormed && decide (node < 16)
  | .subexpUpdate _ => true
  | .fwdUpdate => true
  | .modelExpand _ => true
  | .adapt => true

/-- The predicate the statements use. -/
abbrev WellFormed (i : Instr) : Prop := i.wellFormed = true

end Sys2Proof
end

