-- ==== Sys2Proof/Decode.lean ====
section
/-! DEFINITION. Decoding of command words, total on every 64-bit word (R42 to R47), and after it the encoder. Both are written
from R43's format table and R44's opcode map. -/

namespace Sys2Proof

/-- `v[hi:lo]` of a command word as an unsigned number (R8). -/
def bits (w : Word) (hi lo : Nat) : Nat := w.toNat / 2 ^ lo % 2 ^ (hi + 1 - lo)

/-- One bit of a command word. -/
def bitAt (w : Word) (i : Nat) : Bool := bits w i i == 1

/-- `OPC`, bits [7:0] (R42). -/
def opcByte (w : Word) : Byte := BitVec.ofNat 8 (bits w 7 0)

/-! The opcode bytes of R44. -/

abbrev opcNop : Byte := 0x00#8
abbrev opcClearErr : Byte := 0x01#8
abbrev opcSetConfig : Byte := 0x02#8
abbrev opcResetDefaults : Byte := 0x03#8
abbrev opcClearCounts : Byte := 0x04#8
abbrev opcBlockStart : Byte := 0x10#8
abbrev opcScanLookup : Byte := 0x11#8
abbrev opcBandLookup : Byte := 0x12#8
abbrev opcCtxDerive : Byte := 0x18#8
abbrev opcTcWrite : Byte := 0x19#8
abbrev opcEcWrite : Byte := 0x1A#8
abbrev opcEcClear : Byte := 0x1B#8
abbrev opcProbRead : Byte := 0x20#8
abbrev opcCoefLookup : Byte := 0x21#8
abbrev opcProbWrite : Byte := 0x22#8
abbrev opcCountRecord : Byte := 0x23#8
abbrev opcCountAdd : Byte := 0x24#8
abbrev opcCountRead : Byte := 0x25#8
abbrev opcSubexpUpdate : Byte := 0x30#8
abbrev opcFwdUpdate : Byte := 0x31#8
abbrev opcModelExpand : Byte := 0x32#8
abbrev opcAdapt : Byte := 0x38#8

/-! The field codes of R47 and R48, in both directions. -/

def sizeOfCode : Nat → TxSize
  | 0 => .s4x4 | 1 => .s8x8 | 2 => .s16x16 | _ => .s32x32

def codeOfSize : TxSize → Nat
  | .s4x4 => 0 | .s8x8 => 1 | .s16x16 => 2 | .s32x32 => 3

def txTypeOfCode : Nat → TxType
  | 0 => .dctDct | 1 => .adstDct | 2 => .dctAdst | _ => .code3

def codeOfTxType : TxType → Nat
  | .dctDct => 0 | .adstDct => 1 | .dctAdst => 2 | .code3 => 3

def refOfCode : Nat → RefType
  | 0 => .intra | _ => .inter

def codeOfRef : RefType → Nat
  | .intra => 0 | .inter => 1

def classOfCode : Nat → PlaneClass
  | 0 => .luma | _ => .chroma

def codeOfClass : PlaneClass → Nat
  | .luma => 0 | .chroma => 1

def tokenOfCode : Nat → Token
  | 0 => .zero | 1 => .one | 2 => .two | 3 => .three | 4 => .four
  | 5 => .category1 | 6 => .category2 | 7 => .category3 | 8 => .category4 | 9 => .category5 | 10 => .category6
  | 11 => .endOfBlock | 12 => .endOfSuperblock
  | 13 => .code13 | 14 => .code14 | _ => .code15

def codeOfToken : Token → Nat
  | .zero => 0 | .one => 1 | .two => 2 | .three => 3 | .four => 4
  | .category1 => 5 | .category2 => 6 | .category3 => 7 | .category4 => 8 | .category5 => 9 | .category6 => 10
  | .endOfBlock => 11 | .endOfSuperblock => 12
  | .code13 => 13 | .code14 => 14 | .code15 => 15

def codeOfBool : Bool → Nat
  | false => 0 | true => 1

/-- The reserved bits of a format, as `[hi:lo]` ranges (R43). -/
def reservedBits : Format → List (Nat × Nat)
  | .N => [(63, 8)]
  | .K => [(63, 11)]
  | .X => [(63, 10)]
  | .G => [(63, 15)]
  | .S => [(63, 18)]
  | .C => [(63, 50)]
  | .T => [(63, 22)]
  | .E => [(17, 9), (63, 50)]
  | .P0 => [(63, 16)]
  | .P1 => [(63, 20)]
  | .P2 => [(63, 21)]
  | .P3 => [(63, 53)]
  | .P4 => [(63, 28)]
  | .V => [(63, 16)]

/-- No reserved bit of the format is set (R42: every one "must be 0"). -/
def reservedClear (f : Format) (w : Word) : Bool := (reservedBits f).all fun r => bits w r.1 r.2 == 0

/-! The fields of R43, each at its bits. -/

def fieldC (w : Word) : Nat := bits w 17 8
def fieldCol (w : Word) : Nat := bits w 33 18
def fieldRow (w : Word) : Nat := bits w 49 34
def fieldCell (w : Word) : CellRef :=
  { cls := classOfCode (bits w 8 8), ref := refOfCode (bits w 9 9), band := bits w 12 10, ctx := bits w 15 13 }
def fieldNode (w : Word) : Nat := bits w 19 16
def fieldProb (w : Word) : Byte := BitVec.ofNat 8 (bits w 15 8)

/-- Each row of R44: the opcode byte, the format, and the command its fields make. -/
def opcodeMap : List (Byte × Format × (Word → Instr)) :=
  [ (opcNop, .N, fun _ => .nop),
    (opcClearErr, .N, fun _ => .clearErr),
    (opcSetConfig, .K, fun w => .setConfig (bitAt w 8) (bitAt w 9) (bitAt w 10)),
    (opcResetDefaults, .N, fun _ => .resetDefaults),
    (opcClearCounts, .N, fun _ => .clearCounts),
    (opcBlockStart, .G, fun w => .blockStart (sizeOfCode (bits w 9 8)) (txTypeOfCode (bits w 11 10)) (bits w 13 12) (refOfCode (bits w 14 14))),
    (opcScanLookup, .S, fun w => .scanLookup (fieldC w)),
    (opcBandLookup, .S, fun w => .bandLookup (fieldC w)),
    (opcCtxDerive, .C, fun w => .ctxDerive (fieldC w) (fieldCol w) (fieldRow w)),
    (opcTcWrite, .T, fun w => .tcWrite (fieldC w) (tokenOfCode (bits w 21 18))),
    (opcEcWrite, .E, fun w => .ecWrite (bitAt w 8) (fieldCol w) (fieldRow w)),
    (opcEcClear, .X, fun w => .ecClear (bitAt w 8) (bitAt w 9)),
    (opcProbRead, .P0, fun w => .probRead (fieldCell w)),
    (opcCoefLookup, .C, fun w => .coefLookup (fieldC w) (fieldCol w) (fieldRow w)),
    (opcProbWrite, .P4, fun w => .probWrite (fieldCell w) (fieldNode w) (BitVec.ofNat 8 (bits w 27 20))),
    (opcCountRecord, .P2, fun w => .countRecord (fieldCell w) (fieldNode w) (bitAt w 20)),
    (opcCountAdd, .P3, fun w => .countAdd (fieldCell w) (fieldNode w) (bitAt w 20) (bits w 52 21)),
    (opcCountRead, .P1, fun w => .countRead (fieldCell w) (fieldNode w)),
    (opcSubexpUpdate, .V, fun w => .subexpUpdate (fieldProb w)),
    (opcFwdUpdate, .N, fun _ => .fwdUpdate),
    (opcModelExpand, .V, fun w => .modelExpand (fieldProb w)),
    (opcAdapt, .N, fun _ => .adapt) ]

/-- The decoder of R45: an unknown opcode byte, then a reserved bit, then the command. -/
def decode (w : Word) : Verdict :=
  match opcodeMap.find? fun r => r.1 == opcByte w with
  | none => .badOpcode
  | some (_, f, build) => if reservedClear f w then .command (build w) else .reservedField

/-- The cell operands as bits 15 to 8 of a word. -/
def encodeCell (c : CellRef) : Nat :=
  2 ^ 8 * codeOfClass c.cls + 2 ^ 9 * codeOfRef c.ref + 2 ^ 10 * c.band + 2 ^ 13 * c.ctx

/-- The command word as a number: the opcode byte, then each field of the format at its lowest bit (R43, R44). -/
def encodeNat : Instr → Nat
  | .nop => 0x00
  | .clearErr => 0x01
  | .setConfig ce ae ie => 0x02 + 2 ^ 8 * codeOfBool ce + 2 ^ 9 * codeOfBool ae + 2 ^ 10 * codeOfBool ie
  | .resetDefaults => 0x03
  | .clearCounts => 0x04
  | .blockStart sz tt plane ref =>
    0x10 + 2 ^ 8 * codeOfSize sz + 2 ^ 10 * codeOfTxType tt + 2 ^ 12 * plane + 2 ^ 14 * codeOfRef ref
  | .scanLookup c => 0x11 + 2 ^ 8 * c
  | .bandLookup c => 0x12 + 2 ^ 8 * c
  | .ctxDerive c col row => 0x18 + 2 ^ 8 * c + 2 ^ 18 * col + 2 ^ 34 * row
  | .tcWrite c t => 0x19 + 2 ^ 8 * c + 2 ^ 18 * codeOfToken t
  | .ecWrite nz col row => 0x1A + 2 ^ 8 * codeOfBool nz + 2 ^ 18 * col + 2 ^ 34 * row
  | .ecClear ab le => 0x1B + 2 ^ 8 * codeOfBool ab + 2 ^ 9 * codeOfBool le
  | .probRead cell => 0x20 + encodeCell cell
  | .coefLookup c col row => 0x21 + 2 ^ 8 * c + 2 ^ 18 * col + 2 ^ 34 * row
  | .probWrite cell node v => 0x22 + encodeCell cell + 2 ^ 16 * node + 2 ^ 20 * v.toNat
  | .countRecord cell node br => 0x23 + encodeCell cell + 2 ^ 16 * node + 2 ^ 20 * codeOfBool br
  | .countAdd cell node br amount =>
    0x24 + encodeCell cell + 2 ^ 16 * node + 2 ^ 20 * codeOfBool br + 2 ^ 21 * amount
  | .countRead cell node => 0x25 + encodeCell cell + 2 ^ 16 * node
  | .subexpUpdate p => 0x30 + 2 ^ 8 * p.toNat
  | .fwdUpdate => 0x31
  | .modelExpand p => 0x32 + 2 ^ 8 * p.toNat
  | .adapt => 0x38

/-- The one word of a well-formed command. -/
def encode (i : Instr) : Word := BitVec.ofNat 64 (encodeNat i)

/-- The eight bytes of a word as the window stores them, lowest address first (R31). -/
def wordBytes (w : Word) : List Byte := (List.range 8).map fun j => BitVec.ofNat 8 (bits w (8 * j + 7) (8 * j))

/-- The word that eight such bytes make (R31). -/
def wordOfBytes (bs : List Byte) : Word := BitVec.ofNat 64 (bs.foldr (fun b acc => b.toNat + 256 * acc) 0)

/-- What the decoder reads from a table row's bits: the bits of the row's number are those of the one 64-bit command
word, laid out in the window's bytes and read back as the CMD store hands them over (R31, R42). -/
def decodeTableWord (nbits w : Nat) : Option Instr :=
  match decode (wordOfBytes (wordBytes (BitVec.ofNat 64 (w % 2 ^ nbits)))) with
  | .command i => some i
  | .badOpcode => none
  | .reservedField => none

end Sys2Proof
end

