-- ==== Sys2Proof/Config.lean ====
section
/-! DEFINITION. The configuration of the ECPU: the parameters R7 leaves OPEN and the contents of the ROMs of R24, which are
constants of the machine and not state. `Params` is one configuration, `Params.Lawful` the laws the rules put on it, and
`Config.params` the configuration of THE machine: an opaque constant of which nothing is known but those laws, so a theorem
about the machine holds of every conforming choice. -/

namespace Sys2Proof

/-- `CLASS` of R64, the value of a token-cache entry (R22): 0, exactly 1, at least 2. The value 3 that two bits could hold
is written by no command and is not represented (93_implementation_defined.md A25). -/
inductive MagClass where
  | zero | one | atLeastTwo
deriving DecidableEq, Repr

/-- A neighbour entry `(cnt, nb0, nb1)` of `NB_ROM` (R66). -/
structure NbEntry where
  cnt : Nat
  nb0 : Nat
  nb1 : Nat
deriving DecidableEq, Repr

/-- One configuration of the unit (R7, R24). The tables are read as functions (R8). -/
structure Params where
  /-- `U`, the number of unconstrained nodes. -/
  u : Nat
  /-- `ABOVE_ENTRIES`, the above-context entries of a plane. -/
  aboveEntries : Nat
  /-- `LEFT_ENTRIES`, the left-context entries of a plane. -/
  leftEntries : Nat
  /-- `ADAPT_MIN_COUNT` (R98). -/
  adaptMinCount : Nat
  /-- `WINDOW_BASE`, the host address of the register window. No law binds it, not even of alignment (log entry 17). -/
  windowBase : Nat
  /-- `DEFAULT_PT[i]` (R83). -/
  defaultPt : Nat → Byte
  /-- `SCAN_ROM[s][c]` (R58). -/
  scanRom : Nat → Nat → Nat
  /-- `NB_ROM[s][c]` (R66). -/
  nbRom : Nat → Nat → NbEntry
  /-- `BAND_ROM[s][c]` (R61). -/
  bandRom : Nat → Nat → Nat
  /-- `COMPACT_ROM[r][j]` (R95). -/
  compactRom : Nat → Nat → Byte
  /-- `CTX_COMBINE[a][b]` (R67). -/
  ctxCombine : MagClass → MagClass → Nat
  /-- `MERGE_FN(pre, c0, c1)` (R97). -/
  mergeFn : Byte → Count → Count → Byte

/-- `N_s`, the coefficients of the block that scan order `s` covers (R56). -/
def scanLength (s : Nat) : Nat := if s < 9 then 16 * 2 ^ (2 * (s / 3)) else 1024

/-- `clip(x) = min(max(x, 1), 255)` (R97, M3). -/
def clipProb (x : Nat) : Nat := min (max x 1) 255

/-- `E_lo` of law M3. -/
def empiricalLow (c0 c1 : Count) : Nat := clipProb (256 * c0.toNat / (c0.toNat + c1.toNat))

/-- `E_hi` of law M3, with the ceiling. -/
def empiricalHigh (c0 c1 : Count) : Nat :=
  clipProb ((256 * c0.toNat + (c0.toNat + c1.toNat) - 1) / (c0.toNat + c1.toNat))

/-- Laws M1 to M7 of R97 on a merge function; M2 is that it is a function of `(pre, c0, c1)`. `pre` is a stored probability,
so it is not 0. -/
structure MergeLaws (minCount : Nat) (f : Byte → Count → Count → Byte) : Prop where
  /-- M1, range: the result lies in 1..255. -/
  range : ∀ pre c0 c1, pre ≠ 0 → f pre c0 c1 ≠ 0
  /-- M3, blend: the result lies between `pre` and the empirical probability. -/
  blend : ∀ pre c0 c1, pre ≠ 0 → 0 < c0.toNat + c1.toNat →
    min pre.toNat (empiricalLow c0 c1) ≤ (f pre c0 c1).toNat ∧ (f pre c0 c1).toNat ≤ max pre.toNat (empiricalHigh c0 c1)
  /-- M4, all-branch-0 convergence. -/
  allZero : ∀ pre c0, pre ≠ 0 → minCount ≤ c0.toNat →
    pre.toNat ≤ (f pre c0 0).toNat ∧ (pre.toNat < 255 → pre.toNat < (f pre c0 0).toNat)
  /-- M5, all-branch-1 convergence. -/
  allOne : ∀ pre c1, pre ≠ 0 → minCount ≤ c1.toNat →
    (f pre 0 c1).toNat ≤ pre.toNat ∧ (1 < pre.toNat → (f pre 0 c1).toNat < pre.toNat)
  /-- M6, damping: at one ratio `c0 : c1` the distance from `pre` does not decrease as the count grows. -/
  damping : ∀ pre c0 c1 d0 d1, pre ≠ 0 → c0.toNat * d1.toNat = d0.toNat * c1.toNat → 0 < c0.toNat + c1.toNat →
    c0.toNat + c1.toNat ≤ d0.toNat + d1.toNat →
    ((f pre c0 c1).toNat - (pre.toNat : Int)).natAbs ≤ ((f pre d0 d1).toNat - (pre.toNat : Int)).natAbs
  /-- M7, zero count. -/
  zeroCount : ∀ pre, pre ≠ 0 → f pre 0 0 = pre

/-- The laws of R7's parameters and of the ROMs. A configuration that breaks one is refused as a configuration
(93_implementation_defined.md A16, A17): there is no machine of this model with it. -/
structure Params.Lawful (P : Params) : Prop where
  /-- `U` in {2, 3} (R7). -/
  u_range : P.u = 2 ∨ P.u = 3
  /-- 1..65535 (R7). -/
  above_range : 1 ≤ P.aboveEntries ∧ P.aboveEntries ≤ 65535
  /-- 1..65535 (R7). -/
  left_range : 1 ≤ P.leftEntries ∧ P.leftEntries ≤ 65535
  /-- `ADAPT_MIN_COUNT >= 1` (R98). -/
  min_count : 1 ≤ P.adaptMinCount
  /-- Every default probability lies in 1..255 (R83). -/
  default_range : ∀ i, i < numEntries → P.defaultPt i ≠ 0
  /-- Each `SCAN_ROM[s]` is a permutation of 0..N_s-1 (R58). -/
  scan_range : ∀ s c, s < numScans → c < scanLength s → P.scanRom s c < scanLength s
  scan_injective : ∀ s c d, s < numScans → c < scanLength s → d < scanLength s → P.scanRom s c = P.scanRom s d → c = d
  /-- Every neighbour precedes its coefficient in the scan (R66). -/
  neighbours : ∀ s c, s < numScans → 1 ≤ c → c < scanLength s →
    ((P.nbRom s c).cnt = 1 ∨ (P.nbRom s c).cnt = 2) ∧ (P.nbRom s c).nb0 < c ∧ ((P.nbRom s c).cnt = 2 → (P.nbRom s c).nb1 < c)
  /-- The bands lie in 0..5 and do not decrease (R61). -/
  band_range : ∀ s c, s < numScans → c ≤ bandLimit → c < scanLength s → P.bandRom s c ≤ 5
  band_monotone : ∀ s c d, s < numScans → c ≤ d → d ≤ bandLimit → d < scanLength s → P.bandRom s c ≤ P.bandRom s d
  /-- The entries that are read lie in 1..255 (R95). -/
  compact_range : ∀ r j, 1 ≤ r → r ≤ 255 → P.u - 1 ≤ j → j ≤ 9 → P.compactRom r j ≠ 0
  /-- Every combined context lies in 0..5 (R67). -/
  combine_range : ∀ a b, P.ctxCombine a b ≤ 5
  /-- M1 to M7 (R97). -/
  merge : MergeLaws P.adaptMinCount P.mergeFn

/-- The spec's default `CTX_COMBINE` (R67). The machine does not rest on it: `ctxCombine` is a parameter. -/
def ctxCombineDefault : MagClass → MagClass → Nat
  | .zero, .zero => 0
  | .zero, .one => 1
  | .zero, .atLeastTwo => 3
  | .one, .zero => 1
  | .one, .one => 2
  | .one, .atLeastTwo => 4
  | .atLeastTwo, .zero => 3
  | .atLeastTwo, .one => 4
  | .atLeastTwo, .atLeastTwo => 5

/-- A merge function that meets the laws by going to the extreme when every observation took one branch and staying
put otherwise. It only shows that the laws can be met; the machine's own `MERGE_FN` is opaque. -/
def Params.someMerge (pre : Byte) (c0 c1 : Count) : Byte :=
  if c1 = 0 then (if c0 = 0 then pre else 255#8) else if c0 = 0 then 1#8 else pre

/-- Some configuration, to show that the laws can be met together. Its tables are no one's and no rule rests on them. -/
def Params.some : Params where
  u := 3
  aboveEntries := 1024
  leftEntries := 16
  adaptMinCount := 1
  windowBase := 0
  defaultPt := fun _ => 128#8
  scanRom := fun _ c => c
  nbRom := fun _ _ => { cnt := 1, nb0 := 0, nb1 := 0 }
  bandRom := fun _ _ => 0
  compactRom := fun _ _ => 128#8
  ctxCombine := ctxCombineDefault
  mergeFn := Params.someMerge

theorem Params.someMerge_laws : MergeLaws 1 Params.someMerge where
  range := by
    intro pre c0 c1 h
    unfold Params.someMerge
    split <;> split <;> first | exact h | decide
  blend := by
    intro pre c0 c1 h hd
    have hp := pre.isLt
    have hpos : 0 < pre.toNat := by
      rcases Nat.eq_zero_or_pos pre.toNat with h0 | h0
      · exact absurd (BitVec.eq_of_toNat_eq (by simpa using h0)) h
      · exact h0
    unfold Params.someMerge empiricalLow empiricalHigh clipProb
    split
    · next h1 =>
      subst h1
      split
      · next h0 => subst h0; simp at hd
      · next h0 =>
        have : c0.toNat ≠ 0 := fun e => h0 (BitVec.eq_of_toNat_eq (by simpa using e))
        have z : BitVec.toNat (0 : Count) = 0 := rfl
        have e1 : 256 * c0.toNat / c0.toNat = 256 := Nat.mul_div_cancel _ (by omega)
        have e2 : (256 * c0.toNat + c0.toNat - 1) / c0.toNat = 256 := by
          rw [show 256 * c0.toNat + c0.toNat - 1 = (c0.toNat - 1) + c0.toNat * 256 by omega, Nat.add_mul_div_left _ _ (by omega),
            Nat.div_eq_of_lt (by omega)]
        rw [z, Nat.add_zero, e1, e2]
        simp
    · next h1 =>
      split
      · next h0 =>
        subst h0
        have : c1.toNat ≠ 0 := fun e => h1 (BitVec.eq_of_toNat_eq (by simpa using e))
        simp
      · simp
  allZero := by
    intro pre c0 h hm
    have : c0 ≠ 0#32 := by rintro rfl; simp at hm
    have hp := pre.isLt
    simp [Params.someMerge, this]
    omega
  allOne := by
    intro pre c1 h hm
    have : c1 ≠ 0#32 := by rintro rfl; simp at hm
    have hpos : 0 < pre.toNat := by
      rcases Nat.eq_zero_or_pos pre.toNat with h0 | h0
      · exact absurd (BitVec.eq_of_toNat_eq (by simpa using h0)) h
      · exact h0
    simp [Params.someMerge, this]
    omega
  damping := by
    intro pre c0 c1 d0 d1 h hr hc hd
    have z : ∀ c : Count, c = 0 ↔ c.toNat = 0 :=
      fun c => ⟨fun e => by simp [e], fun e => BitVec.eq_of_toNat_eq (by simpa using e)⟩
    unfold Params.someMerge
    simp only [z]
    by_cases a : c0.toNat = 0
    · have hc1 : c1.toNat ≠ 0 := by omega
      have hd0 : d0.toNat = 0 := by
        rw [a, Nat.zero_mul] at hr
        exact (Nat.mul_eq_zero.mp hr.symm).resolve_right hc1
      have hd1 : d1.toNat ≠ 0 := by omega
      simp [a, hc1, hd0, hd1]
    · by_cases b : c1.toNat = 0
      · have hd1 : d1.toNat = 0 := by
          rw [b, Nat.mul_zero] at hr
          exact (Nat.mul_eq_zero.mp hr).resolve_left a
        have hd0 : d0.toNat ≠ 0 := by omega
        simp [a, b, hd0, hd1]
      · simp [a, b]
  zeroCount := by
    intro pre _
    simp [Params.someMerge]

theorem Params.some_lawful : Params.some.Lawful where
  u_range := Or.inr rfl
  above_range := by decide
  left_range := by decide
  min_count := by decide
  default_range := by intro i _; change 128#8 ≠ 0#8; decide
  scan_range := fun _ _ _ h => h
  scan_injective := fun _ _ _ _ _ _ h => h
  neighbours := fun _ _ _ h _ => ⟨Or.inl rfl, h, fun e => absurd (show 1 = 2 from e) (by decide)⟩
  band_range := fun _ _ _ _ _ => Nat.zero_le _
  band_monotone := fun _ _ _ _ _ _ _ => Nat.le_refl _
  compact_range := by intro r j _ _ _ _; change (128#8 : Byte) ≠ 0; decide
  combine_range := by intro a b; cases a <;> cases b <;> decide
  merge := Params.someMerge_laws

/-- A configuration with the proof that it is lawful. The default values serve only to show that the type is inhabited,
which an opaque constant needs. -/
structure LawfulParams where
  params : Params := Params.some
  lawful : params.Lawful := by exact Params.some_lawful
  deriving Inhabited

/-- The configuration of the machine: every OPEN parameter of R7 and every ROM of R24, free but for its laws. -/
opaque Config.chosen : LawfulParams

/-- The parameters of the machine (R118: fixed at build time). -/
def Config.params : Params := Config.chosen.params

theorem Config.params_lawful : Config.params.Lawful := Config.chosen.lawful

/-- `UPDATE_FLAG_PROB` (R7, R90): 252. -/
def updateFlagProb : Byte := 252#8

/-- The probability of an equiprobable decision (R85): 128. -/
def evenProb : Byte := 128#8

/-- `NB_PAD` (R7). -/
def nbPad : Nat := 2

/-- `COUNT_WIDTH` (R7). -/
def countWidth : Nat := 32

/-- `CAP.VERSION` (R19). -/
def interfaceVersion : Nat := 1

end Sys2Proof
end

