-- ==== Sys2Proof/Machine/State.lean ====
section
/-! DEFINITION. The state of the ECPU (R10 to R27), the inputs it is driven by, the reasons a step can stop, and the state
after reset (R116). `CAP` is a constant of the configuration (R19) and `CMD` holds no state (R13), so neither is a field;
`STATUS.IRQ` and the interrupt output are one level, computed from `ERR` and `IRQ_EN` (R111), so it is not a field either. -/

namespace Sys2Proof.Machine

/-- The fields of `STATUS` that hold state (R14). Its other bits read 0, and `IRQ` is computed. -/
structure Status where
  err     : Bool
  corrupt : Bool
  code    : BitVec 4
  opc     : Byte
deriving DecidableEq, Repr

/-- The fields of `CFG` (R15). Its other bits read 0. -/
structure Cfg where
  compactEn : Bool
  adaptEn   : Bool
  irqEn     : Bool
deriving DecidableEq, Repr

/-- The fields of `BLK`, the latched block geometry (R17). Its other bits read 0. -/
structure Blk where
  valid  : Bool
  size   : TxSize
  txtype : TxType
  plane  : Nat
  ref    : RefType
  scanId : Nat
  cls    : PlaneClass
deriving DecidableEq, Repr

/-- The errors of R102, in the order of their codes. -/
inductive Error where
  | badOpcode | reservedField | noBlock | badGeometry | indexRange
  | nodeRange | badToken | badProb | ctxRange | underrun
deriving DecidableEq, Repr

/-- One answer of the bit source (R26, R27): `(0,1)`, `(1,1)` or `(x,0)`. -/
structure BitAnswer where
  bit   : Bool
  valid : Bool
deriving DecidableEq, Repr

/-- The bit-source port as the model holds it: the answers the source will give, oldest first, which are inputs and not
ECPU state (R27), and the probabilities of the requests made so far, newest first (R26). Both lists are the model's own. -/
structure BitPort where
  answers  : List BitAnswer
  requests : List Byte
deriving DecidableEq, Repr

/-- What the platform and the host do to the unit: the inputs of the model. An access names its offset in the 64-byte
register window (R28) and its width in bytes. -/
inductive HostEvent where
  /-- A store of `data`. A naturally aligned 8-byte store at offset 0 issues `data` as a command (R13, R30). -/
  | store (offset : Fin 64) (bytes : Nat) (data : Word)
  /-- A load. -/
  | load (offset : Fin 64) (bytes : Nat)
  /-- Reset between commands (R116). -/
  | reset
  /-- The host stores `word` to `CMD`, and reset arrives before the command is finished, after the bit source has
  answered at most `answered` of its requests (R117). -/
  | resetDuring (word : Word) (answered : Nat)
deriving DecidableEq, Repr

/-- The host's side of the register window: what it will do, oldest first, and what its loads have returned, newest
first. Both lists are the model's own. -/
structure HostBus where
  pending  : List HostEvent
  returned : List Word
deriving DecidableEq, Repr

/-- The whole state. The internal memories are lists of index and value in one canonical form (`Memory.wf`, in
Machine/Ops.lean); an index that is not listed reads as its reset contents. -/
structure State where
  /-- `STATUS` (R14). -/
  status : Status
  /-- `CFG` (R15). -/
  cfg : Cfg
  /-- `RES0` (R16). -/
  res0 : Word
  /-- `RES1` (R16). -/
  res1 : Word
  /-- `BLK` (R17). -/
  blk : Blk
  /-- `PT` (R20): index `PTX`, unlisted `DEFAULT_PT`. -/
  pt : List Host.Cell
  /-- `CT` (R21): index `2 * PTX + branch`, unlisted 0. -/
  ct : List (Nat × Count)
  /-- `TC` (R22): index the scan index, unlisted class 0. -/
  tc : List (Nat × MagClass)
  /-- `AC` (R23): index `65536 * plane + k`, unlisted 0. -/
  ac : List (Nat × Bool)
  /-- `LC` (R23): index `65536 * plane + k`, unlisted 0. -/
  lc : List (Nat × Bool)
  /-- The bit-source port (R26). -/
  port : BitPort
  /-- The host's accesses (R30, R37). -/
  bus : HostBus
deriving DecidableEq, Repr

/-- The reasons a step can stop with a fault. -/
inductive Fault where
  /-- Raised by SUBEXP_UPDATE and FWD_UPDATE where the bit source does not answer a request: no answer is left in
  `port.answers`. The command never completes: "a stuck state with no successor" (R126). Safe: the hardware hangs. -/
  | bitSourceSilent
deriving DecidableEq, Repr

/-- The reasons a step has no meaning. -/
inductive Refusal where
  /-- Raised by an arm of `exec` whose instruction has no meaning yet, by its mnemonic. Safe. -/
  | notModelled (mnemonic : String)
  /-- Raised by a host access to the window that is not a naturally aligned 64-bit load or store: its effect is
  "unspecified" and "A model refuses such an access" (R30). Safe. -/
  | unspecifiedAccess
deriving DecidableEq, Repr

/-- What a command ends in. -/
abbrev Result := Host.Outcome State Fault Refusal

/-! The state's fields, written one at a time. -/

def State.setStatus (s : State) (v : Status) : State := { s with status := v }
def State.setCfg (s : State) (v : Cfg) : State := { s with cfg := v }
/-- A result command writes both result registers whole (R16). -/
def State.setRes (s : State) (r0 r1 : Word) : State := { s with res0 := r0, res1 := r1 }
def State.setBlk (s : State) (v : Blk) : State := { s with blk := v }
def State.setPt (s : State) (m : List Host.Cell) : State := { s with pt := m }
def State.setCt (s : State) (m : List (Nat × Count)) : State := { s with ct := m }
def State.setTc (s : State) (m : List (Nat × MagClass)) : State := { s with tc := m }
def State.setAc (s : State) (m : List (Nat × Bool)) : State := { s with ac := m }
def State.setLc (s : State) (m : List (Nat × Bool)) : State := { s with lc := m }
def State.setPort (s : State) (p : BitPort) : State := { s with port := p }
def State.setBus (s : State) (b : HostBus) : State := { s with bus := b }

/-- `STATUS = 0`: no error (R116). -/
def Status.clear : Status := { err := false, corrupt := false, code := 0#4, opc := 0#8 }

/-- `BLK = 0` (R116). -/
def Blk.clear : Blk :=
  { valid := false, size := .s4x4, txtype := .dctDct, plane := 0, ref := .intra, scanId := 0, cls := .luma }

/-- `CFG = 0x2` (R116). -/
def Cfg.afterReset : Cfg := { compactEn := false, adaptEn := true, irqEn := false }

/-- The state after reset (R116): nothing is listed in any memory, so `PT` reads `DEFAULT_PT` and the others 0; nothing
waits at the window, and the port is idle. -/
def State.reset : State where
  status := Status.clear
  cfg := Cfg.afterReset
  res0 := 0#64
  res1 := 0#64
  blk := Blk.clear
  pt := []
  ct := []
  tc := []
  ac := []
  lc := []
  port := { answers := [], requests := [] }
  bus := { pending := [], returned := [] }

end Sys2Proof.Machine
end

