-- ==== Sys2Proof/Machine/Flags.lean ====
section
/-! DEFINITION. The flag-like state: error codes and classes, and the register words of `STATUS`, `CFG`, `BLK` and `CAP`
(R12 to R19, R102, R111). -/

namespace Sys2Proof.Machine

/-- `CODE(E)` (R102). -/
def Error.code : Error → BitVec 4
  | .badOpcode => 1#4
  | .reservedField => 2#4
  | .noBlock => 3#4
  | .badGeometry => 4#4
  | .indexRange => 5#4
  | .nodeRange => 6#4
  | .badToken => 7#4
  | .badProb => 8#4
  | .ctxRange => 9#4
  | .underrun => 10#4

/-- `CORRUPT(E)` (R102, R103): 1 for stream corruption. -/
def Error.corrupt : Error → Bool
  | .badOpcode => false
  | .reservedField => false
  | .noBlock => false
  | .badGeometry => false
  | .indexRange => false
  | .nodeRange => true
  | .badToken => false
  | .badProb => false
  | .ctxRange => true
  | .underrun => true

/-- `STATUS` after error `E` of a command with opcode byte `opc` (R106). -/
def Status.ofError (e : Error) (opc : Byte) : Status :=
  { err := true, corrupt := e.corrupt, code := e.code, opc := opc }

/-- One bit as a bit vector. -/
def bit (b : Bool) : BitVec 1 := BitVec.ofBool b

/-- The interrupt output, `ERR & CFG.IRQ_EN`, a level (R111). -/
def irqOutput (s : State) : Bool := s.status.err && s.cfg.irqEn

/-- `STATUS` as it reads (R14): `{0, IRQ, OPC, CODE, 0, CORRUPT, ERR}`. -/
def statusWord (s : State) : Word :=
  (0#47 : BitVec 47) ++ bit (irqOutput s) ++ s.status.opc ++ s.status.code ++ 0#2 ++ bit s.status.corrupt ++ bit s.status.err

/-- `CFG` as it reads (R15): `zext_64({IRQ_EN, ADAPT_EN, COMPACT_EN})`. -/
def cfgWord (c : Cfg) : Word :=
  (0#61 : BitVec 61) ++ bit c.irqEn ++ bit c.adaptEn ++ bit c.compactEn

/-- `BLK` as it reads (R17): `zext_64({CLS, SCAN_ID, REF, PLANE, TXTYPE, SIZE, VALID})`. -/
def blkWord (b : Blk) : Word :=
  (0#51 : BitVec 51) ++ BitVec.ofNat 1 (codeOfClass b.cls) ++ BitVec.ofNat 4 b.scanId ++ BitVec.ofNat 1 (codeOfRef b.ref) ++
    BitVec.ofNat 2 b.plane ++ BitVec.ofNat 2 (codeOfTxType b.txtype) ++ BitVec.ofNat 2 (codeOfSize b.size) ++ bit b.valid

/-- `CAP`, constant for the instance (R19). -/
def capWord (P : Params) : Word :=
  BitVec.ofNat 8 interfaceVersion ++ updateFlagProb ++ BitVec.ofNat 16 P.leftEntries ++ BitVec.ofNat 16 P.aboveEntries ++
    BitVec.ofNat 8 countWidth ++ BitVec.ofNat 4 nbPad ++ BitVec.ofNat 4 P.u

end Sys2Proof.Machine
end

