-- ==== Sys2Proof/Machine/Operands.lean ====
section
/-! DEFINITION. What the operand fields of a command name: block geometry and scan order, the magnitude class of a token, the
flat index of a cell and node, and the range checks at "the offset-computation boundary" (R34). -/

namespace Sys2Proof.Machine

/-! Block geometry (R18). -/

/-- `W = 4 << SIZE`, the block width in coefficients. -/
def sizeWidth (z : TxSize) : Nat := 4 * 2 ^ codeOfSize z

/-- `N = W * W`, the number of coefficients. -/
def sizeCoefs (z : TxSize) : Nat := sizeWidth z * sizeWidth z

/-- `SPAN = 1 << SIZE`, the entropy-context entries the block covers on each edge. -/
def sizeSpan (z : TxSize) : Nat := 2 ^ codeOfSize z

/-- `N` of the latched block. -/
def coefCount (s : State) : Nat := sizeCoefs s.blk.size

/-- `SPAN` of the latched block. -/
def blockSpan (s : State) : Nat := sizeSpan s.blk.size

/-- A coefficient position, the raster index `row * W + col` (R59). -/
def rasterPosition (z : TxSize) (row col : Nat) : Nat := row * sizeWidth z + col

/-- The plane class of a plane (R55). -/
def planeClass (plane : Nat) : PlaneClass := if plane = 0 then .luma else .chroma

/-- `SCAN_ID(SIZE, TXTYPE)` (R56). -/
def scanIdOf (z : TxSize) (t : TxType) : Nat :=
  if codeOfSize z < 3 then 3 * codeOfSize z + codeOfTxType t else 9

/-- What raises `BAD_GEOMETRY` (R57). A two-bit plane code that is not below 3 is 3. -/
def illegalGeometry (z : TxSize) (t : TxType) (plane : Nat) : Bool :=
  decide (3 ≤ plane) || t == .code3 || (z == .s32x32 && t != .dctDct)

/-- `CLASS(t)` (R64), and none for the codes that are not writable (R65). -/
def tokenClass : Token → Option MagClass
  | .zero => some .zero
  | .one => some .one
  | .two => some .atLeastTwo
  | .three => some .atLeastTwo
  | .four => some .atLeastTwo
  | .category1 => some .atLeastTwo
  | .category2 => some .atLeastTwo
  | .category3 => some .atLeastTwo
  | .category4 => some .atLeastTwo
  | .category5 => some .atLeastTwo
  | .category6 => some .atLeastTwo
  | .endOfBlock => none
  | .endOfSuperblock => none
  | .code13 => none
  | .code14 => none
  | .code15 => none

/-! Flat indices (R33). -/

/-- `CELL(cls, ref, band, ctx)`, 0..143. -/
def cellIndex (c : CellRef) : Nat := ((codeOfClass c.cls * 2 + codeOfRef c.ref) * 6 + c.band) * 6 + c.ctx

/-- `PTX(cls, ref, band, ctx, node)`, 0..1583. -/
def ptx (c : CellRef) (node : Nat) : Nat := cellIndex c * 11 + node

/-- The index of counter `CT[i][b]` in the count table's list. -/
def countKey (i : Nat) (br : Bool) : Nat := 2 * i + codeOfBool br

/-- The index of `AC[p][k]` or `LC[p][k]` in its list; `k` is below 65536 (R7). -/
def edgeKey (plane k : Nat) : Nat := 65536 * plane + k

/-! Range checks. -/

/-- `BAND < 6` and `CTX < 6` (R73). -/
def cellInRange (c : CellRef) : Bool := decide (c.band < 6) && decide (c.ctx < 6)

/-- `NODE < 11`. -/
def nodeInRange (node : Nat) : Bool := decide (node < 11)

/-- The block's span lies within both entropy-context arrays (R68, R70). -/
def spanInRange (P : Params) (s : State) (col row : Nat) : Bool :=
  decide (col + blockSpan s ≤ P.aboveEntries) && decide (row + blockSpan s ≤ P.leftEntries)

end Sys2Proof.Machine
end

