-- ==== Sys2Proof/Machine/Ops.lean ====
section
/-! DEFINITION. The shared operations: the internal memories in their canonical form, one accessor for each memory, raising an
error and clearing it, the result layouts, and the accesses of the register window. -/

namespace Sys2Proof.Machine

/-! The internal memories. A memory is a list of index and value, the indices strictly rising, and no entry equal to what
an unlisted index reads as, which `bg` gives. -/

/-- The value at an index; an unlisted one reads `bg`. -/
def Memory.read {α : Type} (bg : Nat → α) : List (Nat × α) → Nat → α
  | [], k => bg k
  | (a, v) :: m, k => if a = k then v else Memory.read bg m k

/-- Lists `v` at `k`, in order, in the place of what stood there. -/
def Memory.put {α : Type} (k : Nat) (v : α) : List (Nat × α) → List (Nat × α)
  | [] => [(k, v)]
  | (a, x) :: m => if k < a then (k, v) :: (a, x) :: m else if k = a then (k, v) :: m else (a, x) :: Memory.put k v m

/-- Unlists `k`. -/
def Memory.drop {α : Type} (k : Nat) : List (Nat × α) → List (Nat × α)
  | [] => []
  | (a, x) :: m => if k = a then Memory.drop k m else (a, x) :: Memory.drop k m

/-- Stores `v` at `k`; storing what an unlisted index reads as removes the entry, so equal memories are equal lists. -/
def Memory.write {α : Type} [DecidableEq α] (bg : Nat → α) (m : List (Nat × α)) (k : Nat) (v : α) : List (Nat × α) :=
  if v = bg k then Memory.drop k m else Memory.put k v m

/-- The canonical form. -/
abbrev Memory.wf {α : Type} [DecidableEq α] (bg : Nat → α) (m : List (Nat × α)) : Prop :=
  m.Pairwise (fun a b => a.1 < b.1) ∧ ∀ e ∈ m, e.2 ≠ bg e.1

/-- Stores `v` at the `len` indices from `k` on. -/
def Memory.fill {α : Type} [DecidableEq α] (bg : Nat → α) (m : List (Nat × α)) (k : Nat) (v : α) : Nat → List (Nat × α)
  | 0 => m
  | n + 1 => Memory.write bg (Memory.fill bg m k v n) (k + n) v

/-! What an unlisted index reads as: the reset contents (R20 to R23, R116). `PT`'s are `DEFAULT_PT`. -/

def ctReset (_ : Nat) : Count := 0#32
def tcReset (_ : Nat) : MagClass := .zero
def edgeReset (_ : Nat) : Bool := false

/-! One accessor for each memory. -/

/-- `PT[i]` (R20). -/
def readPt (P : Params) (s : State) (i : Nat) : Byte := Memory.read P.defaultPt s.pt i
def writePt (P : Params) (s : State) (i : Nat) (v : Byte) : State := s.setPt (Memory.write P.defaultPt s.pt i v)

/-- `CT[i][b]` (R21). -/
def readCt (s : State) (i : Nat) (br : Bool) : Count := Memory.read ctReset s.ct (countKey i br)
def writeCt (s : State) (i : Nat) (br : Bool) (v : Count) : State := s.setCt (Memory.write ctReset s.ct (countKey i br) v)

/-- `TC[c]` (R22). -/
def readTc (s : State) (c : Nat) : MagClass := Memory.read tcReset s.tc c
def writeTc (s : State) (c : Nat) (v : MagClass) : State := s.setTc (Memory.write tcReset s.tc c v)

/-- `AC[p][k]` and `LC[p][k]` (R23). -/
def readAc (s : State) (plane k : Nat) : Bool := Memory.read edgeReset s.ac (edgeKey plane k)
def readLc (s : State) (plane k : Nat) : Bool := Memory.read edgeReset s.lc (edgeKey plane k)

/-- `AC[p][col + k] <- v` and `LC[p][row + k] <- v`, for `k` in 0..len-1 (R70). -/
def fillEdges (s : State) (plane col row len : Nat) (v : Bool) : State :=
  (s.setAc (Memory.fill edgeReset s.ac (edgeKey plane col) v len)).setLc (Memory.fill edgeReset s.lc (edgeKey plane row) v len)

/-! Errors. -/

/-- Raising error `e` in a command with opcode byte `opc` (R106): `STATUS` records it and nothing else changes. The host's
store completes, so this is a next state; the unit is then halted (R108). -/
def raiseError (e : Error) (opc : Byte) (s : State) : Result := .next (s.setStatus (Status.ofError e opc))

/-- The return from the error state, `STATUS <- 0`; it restores nothing else (R53, R109). -/
def clearError (s : State) : State := s.setStatus Status.clear

/-- A halted unit ignores every word but exactly CLEAR_ERR (R108). -/
def ignoresWord (s : State) (w : Word) : Bool := s.status.err && w != 1#64

/-! Result layouts (R49). Every bit a layout does not name is 0 (R16). -/

/-- `POS`, `RES1[33:24]`. -/
def posField (pos : Nat) : Word := (BitVec.ofNat 10 pos).setWidth 64 <<< 24

/-- `BAND`, `RES1[36:34]`. -/
def bandField (b : Nat) : Word := (BitVec.ofNat 3 b).setWidth 64 <<< 34

/-- `CTX`, `RES1[39:37]`. -/
def ctxField (x : Nat) : Word := (BitVec.ofNat 3 x).setWidth 64 <<< 37

/-- The lanes of nodes 0..7, `RES0 = {v[7], ..., v[0]}`. -/
def lowLanes (v : Nat → Byte) : Word := v 7 ++ v 6 ++ v 5 ++ v 4 ++ v 3 ++ v 2 ++ v 1 ++ v 0

/-- The lanes of nodes 8..10, `{v[10], v[9], v[8]}`. -/
def highLanes (v : Nat → Byte) : BitVec 24 := v 10 ++ v 9 ++ v 8

/-- `RES0` and `RES1` of a probability vector alone. -/
def setLanes (s : State) (v : Nat → Byte) : State := s.setRes (lowLanes v) ((highLanes v).setWidth 64)

/-- `RES0` and `RES1` of a COEF_LOOKUP: `RES1 = zext_64({CTX, BAND, POS, v[10], v[9], v[8]})` (R76). -/
def setCoef (s : State) (v : Nat → Byte) (pos b x : Nat) : State :=
  s.setRes (lowLanes v) ((BitVec.ofNat 3 x ++ BitVec.ofNat 3 b ++ BitVec.ofNat 10 pos ++ highLanes v : BitVec 40).setWidth 64)

/-! The register window (R13, R28 to R31). -/

/-- The register at offset `8 * k` as a 64-bit load reads it. `CMD` and the unmapped offset 0x38 read 0 (R13, R29). -/
def windowRegister (P : Params) (s : State) : Nat → Word
  | 0 => 0#64
  | 1 => statusWord s
  | 2 => cfgWord s.cfg
  | 3 => s.res0
  | 4 => s.res1
  | 5 => capWord P
  | 6 => blkWord s.blk
  | _ => 0#64

/-- An access the rules give an effect: naturally aligned and 64 bits wide, at an offset `8k` (R30). `WINDOW_BASE` is open with no law on
its alignment (R7). DESIGN CHOICE: alignment is judged by the offset in the window, not by the host address (log entry 17). -/
def accessSpecified (offset : Fin 64) (bytes : Nat) : Bool := offset.val % 8 == 0 && bytes == 8

/-- The byte at `WINDOW_BASE + offset`: the window is little-endian (R31). It says how the registers are laid out; a load of
one byte is refused all the same (R30, R32). -/
def windowByte (P : Params) (s : State) (offset : Fin 64) : Byte :=
  BitVec.ofNat 8 (bits (windowRegister P s (offset.val / 8)) (8 * (offset.val % 8) + 7) (8 * (offset.val % 8)))

/-- The offset in the window of a host address, none where the address is outside it (R28). -/
def windowOffset (P : Params) (addr : Nat) : Option (Fin 64) :=
  if h : P.windowBase ≤ addr ∧ addr < P.windowBase + 64 then some ⟨addr - P.windowBase, by omega⟩ else none

/-- Reset (R116, R117): every piece of the unit's state takes its reset value. What the host will do and has read, and
what the bit source will answer and was asked, is not the unit's state and stays. -/
def platformReset (s : State) : State := (State.reset.setPort s.port).setBus s.bus

end Sys2Proof.Machine
end

