-- ==== Sys2Proof/Machine/Adapt.lean ====
section
/-! DEFINITION. Backward adaptation: ADAPT (R97 to R99). -/

namespace Sys2Proof.Machine

/-- The new value of an entry whose stored value is `pre` (R99): merged where the exact sum of its counts reaches
`ADAPT_MIN_COUNT` (R98), else kept. -/
def adaptedProb (P : Params) (s : State) (i : Nat) (pre : Byte) : Byte :=
  if P.adaptMinCount ≤ (readCt s i false).toNat + (readCt s i true).toNat
  then P.mergeFn pre (readCt s i false) (readCt s i true) else pre

/-- The loop of R99 over the entries. -/
def adaptLoop (P : Params) (s : State) : List Nat → List Host.Cell → List Host.Cell
  | [], pt => pt
  | i :: rest, pt =>
    adaptLoop P s rest (Memory.write P.defaultPt pt i (adaptedProb P s i (Memory.read P.defaultPt pt i)))

/-- ADAPT (R99): with `ADAPT_EN = 0` the table is kept; the counts are cleared either way. -/
def adapt (P : Params) (s : State) : Result :=
  .next ((s.setPt (if s.cfg.adaptEn then adaptLoop P s (List.range numEntries) s.pt else s.pt)).setCt [])

def execAdapt (s : State) : Result := adapt Config.params s

end Sys2Proof.Machine
end

