-- ==== Sys2Proof/Machine/Context.lean ====
section
/-! DEFINITION. Context derivation: TC_WRITE, CTX_DERIVE, EC_WRITE, EC_CLEAR (R64 to R71). -/

namespace Sys2Proof.Machine

/-- TC_WRITE (R65): `TC[C] <- CLASS(TOKEN)`. -/
def execTcWrite (c : Nat) (token : Token) (s : State) : Result :=
  if !s.blk.valid then raiseError .noBlock opcTcWrite s
  else if coefCount s ≤ c then raiseError .indexRange opcTcWrite s
  else
    match tokenClass token with
    | none => raiseError .badToken opcTcWrite s
    | some m => .next (writeTc s c m)

/-- `A` of R68: the OR of the above entries the block covers from `col` on. -/
def aboveFlag (s : State) (col : Nat) : Bool := (List.range (blockSpan s)).any fun k => readAc s s.blk.plane (col + k)

/-- `L` of R68: the OR of the left entries the block covers from `row` on. -/
def leftFlag (s : State) (row : Nat) : Bool := (List.range (blockSpan s)).any fun k => readLc s s.blk.plane (row + k)

/-- The neighbour entry breaks the law of R66, as R68 checks it. -/
def badNeighbours (e : NbEntry) (c : Nat) : Bool :=
  e.cnt == 0 || decide (2 < e.cnt) || decide (c ≤ e.nb0) || (e.cnt == 2 && decide (c ≤ e.nb1))

/-- The later-coefficient context: the neighbours' classes combined; a single neighbour counts twice (R68). -/
def combinedContext (P : Params) (s : State) (e : NbEntry) : Nat :=
  P.ctxCombine (readTc s e.nb0) (if e.cnt == 2 then readTc s e.nb1 else readTc s e.nb0)

/-- `CTXF(c, col, row)` (R68). -/
def contextOf (P : Params) (s : State) (c col row : Nat) : Except Error Nat :=
  if c = 0 then
    if !spanInRange P s col row then .error .indexRange
    else .ok (codeOfBool (aboveFlag s col) + codeOfBool (leftFlag s row))
  else if badNeighbours (P.nbRom s.blk.scanId c) c then .error .ctxRange
  else if 5 < combinedContext P s (P.nbRom s.blk.scanId c) then .error .ctxRange
  else .ok (combinedContext P s (P.nbRom s.blk.scanId c))

/-- CTX_DERIVE (R69). -/
def ctxDerive (P : Params) (c col row : Nat) (s : State) : Result :=
  if !s.blk.valid then raiseError .noBlock opcCtxDerive s
  else if coefCount s ≤ c then raiseError .indexRange opcCtxDerive s
  else
    match contextOf P s c col row with
    | .error e => raiseError e opcCtxDerive s
    | .ok x => .next (s.setRes 0#64 (ctxField x))

def execCtxDerive (c col row : Nat) (s : State) : Result := ctxDerive Config.params c col row s

/-- EC_WRITE (R70): the same flag to every entry the block covers on both edges of its plane. -/
def ecWrite (P : Params) (nz : Bool) (col row : Nat) (s : State) : Result :=
  if !s.blk.valid then raiseError .noBlock opcEcWrite s
  else if !spanInRange P s col row then raiseError .indexRange opcEcWrite s
  else .next (fillEdges s s.blk.plane col row (blockSpan s) nz)

def execEcWrite (nz : Bool) (col row : Nat) (s : State) : Result := ecWrite Config.params nz col row s

/-- EC_CLEAR (R71): either array or both, in all three planes. A memory with nothing listed reads 0 throughout. -/
def execEcClear (above left : Bool) (s : State) : Result :=
  .next ((s.setAc (if above then [] else s.ac)).setLc (if left then [] else s.lc))

end Sys2Proof.Machine
end

