-- ==== Sys2Proof/Machine/Control.lean ====
section
/-! DEFINITION. The control commands: NOP, CLEAR_ERR, SET_CONFIG (R52 to R54). -/

namespace Sys2Proof.Machine

/-- NOP (R52): no operation. -/
def execNop (s : State) : Result := .next s

/-- CLEAR_ERR (R53): `STATUS <- 0`. -/
def execClearErr (s : State) : Result := .next (clearError s)

/-- SET_CONFIG (R54): `CFG <- zext_64({IRQ_EN, ADAPT_EN, COMPACT_EN})`. -/
def execSetConfig (compactEn adaptEn irqEn : Bool) (s : State) : Result :=
  .next (s.setCfg { compactEn := compactEn, adaptEn := adaptEn, irqEn := irqEn })

end Sys2Proof.Machine
end

