-- ==== Sys2Proof/Machine/Counts.lean ====
section
/-! DEFINITION. The count table: COUNT_RECORD, COUNT_ADD, COUNT_READ, CLEAR_COUNTS (R78 to R81, R84). -/

namespace Sys2Proof.Machine

/-- `CNTADD(x, a) = min(x + a, 2^32 - 1)` (R78). -/
def countAddSat (x : Count) (a : Nat) : Count := BitVec.ofNat 32 (min (x.toNat + a) 4294967295)

/-- `CT[i][b] <- CNTADD(CT[i][b], a)`, one read-modify-write (R36). -/
def bumpCount (s : State) (i : Nat) (br : Bool) (a : Nat) : State := writeCt s i br (countAddSat (readCt s i br) a)

/-- COUNT_RECORD (R79). -/
def execCountRecord (cell : CellRef) (node : Nat) (br : Bool) (s : State) : Result :=
  if !cellInRange cell then raiseError .indexRange opcCountRecord s
  else if !nodeInRange node then raiseError .nodeRange opcCountRecord s
  else .next (bumpCount s (ptx cell node) br 1)

/-- COUNT_ADD (R80). -/
def execCountAdd (cell : CellRef) (node : Nat) (br : Bool) (amount : Nat) (s : State) : Result :=
  if !cellInRange cell then raiseError .indexRange opcCountAdd s
  else if !nodeInRange node then raiseError .nodeRange opcCountAdd s
  else .next (bumpCount s (ptx cell node) br amount)

/-- COUNT_READ (R81): `RES0 <- {CT[i][1], CT[i][0]}`, `RES1 <- 0`. -/
def execCountRead (cell : CellRef) (node : Nat) (s : State) : Result :=
  if !cellInRange cell || !nodeInRange node then raiseError .indexRange opcCountRead s
  else .next (s.setRes (readCt s (ptx cell node) true ++ readCt s (ptx cell node) false) 0#64)

/-- CLEAR_COUNTS (R84): every counter 0, which is what `CT` reads with nothing listed. -/
def execClearCounts (s : State) : Result := .next (s.setCt [])

end Sys2Proof.Machine
end

