-- ==== Sys2Proof/Machine/BitSource.lean ====
section
/-! DEFINITION. The bit-source port and the forward-update code read from it (R26, R85 to R90). -/

namespace Sys2Proof.Machine

/-- What a sequence of requests ends in, with the port after it: a value, an answer with `valid = 0` (R26), or a request
that is not answered (R126). -/
inductive BitResult (α : Type) where
  | ok (a : α) (port : BitPort)
  | underrun (port : BitPort)
  | silent (port : BitPort)
deriving Repr

/-- Goes on with `f` after a value. -/
def BitResult.andThen {α β : Type} (r : BitResult α) (f : α → BitPort → BitResult β) : BitResult β :=
  match r with
  | .ok a port => f a port
  | .underrun port => .underrun port
  | .silent port => .silent port

/-- The port a sequence of requests leaves. -/
def BitResult.port {α : Type} : BitResult α → BitPort
  | .ok _ port => port
  | .underrun port => port
  | .silent port => port

/-- `ReadBool(p)`: one request, with probability `p`, and its answer (R26). The bit of an answer with `valid = 0` is
ignored (R27). -/
def readBool (p : Byte) (port : BitPort) : BitResult Bool :=
  match port.answers with
  | [] => .silent { answers := [], requests := p :: port.requests }
  | a :: rest =>
    if a.valid then .ok a.bit { answers := rest, requests := p :: port.requests }
    else .underrun { answers := rest, requests := p :: port.requests }

/-- The loop of `READLIT`: `b` more bits onto `v`, most significant first (R85). -/
def readLitOnto : Nat → Nat → BitPort → BitResult Nat
  | 0, v, port => .ok v port
  | b + 1, v, port => (readBool evenProb port).andThen fun x port => readLitOnto b (2 * v + codeOfBool x) port

/-- `READLIT(b)` (R85). -/
def readLit (b : Nat) (port : BitPort) : BitResult Nat := readLitOnto b 0 port

/-- `UBITS(n)`: 0 for `n <= 1`, else the least `l` with `2^l >= n` (R86). -/
def ubits (n : Nat) : Nat := if n ≤ 1 then 0 else Nat.log2 (n - 1) + 1

/-- `DECODE_UNIFORM(n)` (R86). -/
def decodeUniform (n : Nat) (port : BitPort) : BitResult Nat :=
  if ubits n = 0 then .ok 0 port
  else (readLit (ubits n - 1) port).andThen fun v port =>
    if v < 2 ^ ubits n - n then .ok v port
    else (readBool evenProb port).andThen fun x port => .ok (2 * v - (2 ^ ubits n - n) + codeOfBool x) port

/-- `b` of the loop of `DECODE_SUBEXP`, with `k = SUBEXP_PARAM = 4` (R87). -/
def subexpBits (i : Nat) : Nat := if i = 0 then 4 else 4 + i - 1

/-- The loop of `DECODE_SUBEXP` from `i` and `mk` on (R87). The first argument bounds the number of turns; the loop ends
at `i = 3`, so a bound of 4 is never used up. -/
def subexpLoop : Nat → Nat → Nat → BitPort → BitResult Nat
  | 0, _, mk, port => (decodeUniform (255 - mk) port).andThen fun v port => .ok (mk + v) port
  | turns + 1, i, mk, port =>
    if 255 ≤ mk + 3 * 2 ^ subexpBits i then (decodeUniform (255 - mk) port).andThen fun v port => .ok (mk + v) port
    else (readBool evenProb port).andThen fun more port =>
      if more then subexpLoop turns (i + 1) (mk + 2 ^ subexpBits i) port
      else (readLit (subexpBits i) port).andThen fun v port => .ok (mk + v) port

/-- `DECODE_SUBEXP()` (R87). -/
def decodeSubexp (port : BitPort) : BitResult Nat := subexpLoop 4 0 0 port

/-- The elements of 0..253 that are not 6 modulo `MODULUS_PARAM = 13`, in increasing order (R88). -/
def unmergedDistances : List Nat := (List.range 254).filter fun j => j % 13 != 6

/-- `MERGE13(v)` for `v` in 0..253 (R88). -/
def merge13 (v : Nat) : Nat := if v < 20 then 13 * v + 6 else unmergedDistances.getD (v - 20) 0

/-- `IMAP(W)` for `W` in 0..254 (R88). -/
def imap (w : Nat) : Nat := if w = 254 then 253 else merge13 w + 1

/-- `RECENTER(v, m)` (R89). -/
def recenter (v m : Nat) : Nat :=
  if 2 * m < v then v else if v % 2 = 0 then m + v / 2 else m - (v + 1) / 2

/-- `INV_REMAP(W, p)` for `p` in 1..255 (R89). -/
def invRemap (w p : Nat) : Nat :=
  if 2 * (p - 1) ≤ 255 then 1 + recenter (imap w) (p - 1) else 255 - recenter (imap w) (254 - (p - 1))

/-- `DIFF_UPDATE(p)`: the flag and the new probability (R90). -/
def diffUpdate (p : Byte) (port : BitPort) : BitResult (Bool × Byte) :=
  (readBool updateFlagProb port).andThen fun flag port =>
    if flag then (decodeSubexp port).andThen fun w port => .ok (true, BitVec.ofNat 8 (invRemap w p.toNat)) port
    else .ok (false, p) port

end Sys2Proof.Machine
end

