-- ==== Sys2Proof/Machine/ForwardUpdate.lean ====
section
/-! DEFINITION. Forward update and compact model: SUBEXP_UPDATE, FWD_UPDATE, MODEL_EXPAND (R91 to R96). -/

namespace Sys2Proof.Machine

/-- SUBEXP_UPDATE (R91). An answer with `valid = 0` raises `UNDERRUN`; the answers taken stay taken (R106). -/
def execSubexpUpdate (prob : Byte) (s : State) : Result :=
  if prob == 0#8 then raiseError .badProb opcSubexpUpdate s
  else
    match diffUpdate prob s.port with
    | .ok (f, q) port => .next ((s.setPort port).setRes ((bit f ++ q : BitVec 9).setWidth 64) 0#64)
    | .underrun port => raiseError .underrun opcSubexpUpdate (s.setPort port)
    | .silent _ => .fault .bitSourceSilent

/-- `nn` of R92: the nodes of a cell that the update signals. -/
def signalledNodes (P : Params) (compactEn : Bool) : Nat := if compactEn then P.u else 11

/-- The entries FWD_UPDATE visits, in the order of R92's loops, the node innermost. -/
def fwdOrder (nn : Nat) : List Nat :=
  [PlaneClass.luma, PlaneClass.chroma].flatMap fun cls =>
    [RefType.intra, RefType.inter].flatMap fun ref =>
      (List.range 6).flatMap fun band =>
        (List.range 6).flatMap fun ctx =>
          (List.range nn).map fun node => ptx { cls := cls, ref := ref, band := band, ctx := ctx } node

/-- Where the walk of FWD_UPDATE ends, with `PT` and the port as they then are. -/
inductive FwdResult where
  | done (pt : List Host.Cell) (port : BitPort)
  | underrun (pt : List Host.Cell) (port : BitPort)
  | silent (pt : List Host.Cell) (port : BitPort)
deriving Repr

/-- The port after the walk. -/
def FwdResult.port : FwdResult → BitPort
  | .done _ port => port
  | .underrun _ port => port
  | .silent _ port => port

/-- The loop of R92 over the entries to visit. An entry's new value is stored before the next is visited, so an
underrun leaves the entries visited before it with their new values (R93). -/
def fwdLoop (P : Params) : List Nat → List Host.Cell → BitPort → FwdResult
  | [], pt, port => .done pt port
  | i :: rest, pt, port =>
    match diffUpdate (Memory.read P.defaultPt pt i) port with
    | .ok (_, q) port => fwdLoop P rest (Memory.write P.defaultPt pt i q) port
    | .underrun port => .underrun pt port
    | .silent port => .silent pt port

/-- The whole walk from a state. -/
def fwdWalk (P : Params) (s : State) : FwdResult := fwdLoop P (fwdOrder (signalledNodes P s.cfg.compactEn)) s.pt s.port

/-- FWD_UPDATE (R92, R93). -/
def fwdUpdate (P : Params) (s : State) : Result :=
  match fwdWalk P s with
  | .done pt port => .next ((s.setPt pt).setPort port)
  | .underrun pt port => raiseError .underrun opcFwdUpdate ((s.setPt pt).setPort port)
  | .silent _ _ => .fault .bitSourceSilent

def execFwdUpdate (s : State) : Result := fwdUpdate Config.params s

/-- Lane `n` of an expansion (R96): the constrained nodes from the compact ROM, the others 0. -/
def expandLane (P : Params) (prob : Byte) (n : Nat) : Byte := if P.u ≤ n then P.compactRom prob.toNat (n - 1) else 0#8

/-- MODEL_EXPAND (R96). -/
def modelExpand (P : Params) (prob : Byte) (s : State) : Result :=
  if prob == 0#8 then raiseError .badProb opcModelExpand s
  else .next (setLanes s (expandLane P prob))

def execModelExpand (prob : Byte) (s : State) : Result := modelExpand Config.params prob s

end Sys2Proof.Machine
end

