-- ==== Sys2Proof/Machine/ScanBand.lean ====
section
/-! DEFINITION. Scan order and band mapping: BLOCK_START, SCAN_LOOKUP, BAND_LOOKUP (R55 to R63). A meaning that reads the
configuration is written over any `Params`; `exec…` is that meaning at the machine's own. -/

namespace Sys2Proof.Machine

/-- BLOCK_START (R57): latches the geometry, selects the scan order and clears all of `TC`. -/
def execBlockStart (size : TxSize) (txtype : TxType) (plane : Nat) (ref : RefType) (s : State) : Result :=
  if illegalGeometry size txtype plane then raiseError .badGeometry opcBlockStart s
  else .next ((s.setTc []).setBlk
    { valid := true, size := size, txtype := txtype, plane := plane, ref := ref,
      scanId := scanIdOf size txtype, cls := planeClass plane })

/-- The position of scan index `c` in the latched block's scan order (R58). -/
def scanPosition (P : Params) (s : State) (c : Nat) : Nat := P.scanRom s.blk.scanId c

/-- SCAN_LOOKUP (R60). -/
def scanLookup (P : Params) (c : Nat) (s : State) : Result :=
  if !s.blk.valid then raiseError .noBlock opcScanLookup s
  else if coefCount s ≤ c then raiseError .indexRange opcScanLookup s
  else .next (s.setRes 0#64 (posField (scanPosition P s c)))

def execScanLookup (c : Nat) (s : State) : Result := scanLookup Config.params c s

/-- `BANDF(s, c)` (R62): past index 21 the last band, else the ROM's, which is checked. -/
def bandOf (P : Params) (scan c : Nat) : Except Error Nat :=
  if bandLimit < c then .ok 5
  else if 5 < P.bandRom scan c then .error .ctxRange
  else .ok (P.bandRom scan c)

/-- BAND_LOOKUP (R63). -/
def bandLookup (P : Params) (c : Nat) (s : State) : Result :=
  if !s.blk.valid then raiseError .noBlock opcBandLookup s
  else if coefCount s ≤ c then raiseError .indexRange opcBandLookup s
  else
    match bandOf P s.blk.scanId c with
    | .error e => raiseError e opcBandLookup s
    | .ok b => .next (s.setRes 0#64 (bandField b))

def execBandLookup (c : Nat) (s : State) : Result := bandLookup Config.params c s

end Sys2Proof.Machine
end

