-- ==== Sys2Proof/Machine/ProbStore.lean ====
section
/-! DEFINITION. The probability store: PROB_READ, COEF_LOOKUP, PROB_WRITE, RESET_DEFAULTS (R72 to R77, R82). -/

namespace Sys2Proof.Machine

/-- The pivot of a cell, the stored probability of node `U - 1` (R74). -/
def pivot (P : Params) (s : State) (cell : CellRef) : Byte := readPt P s (ptx cell (P.u - 1))

/-- Lane `n` of `VEC` (R74): with the compact model on, a constrained node is expanded from the pivot. -/
def cellLane (P : Params) (s : State) (cell : CellRef) (n : Nat) : Byte :=
  if s.cfg.compactEn && decide (P.u ≤ n) then P.compactRom (pivot P s cell).toNat (n - 1) else readPt P s (ptx cell n)

/-- PROB_READ (R75). -/
def probRead (P : Params) (cell : CellRef) (s : State) : Result :=
  if !cellInRange cell then raiseError .indexRange opcProbRead s
  else .next (setLanes s (cellLane P s cell))

def execProbRead (cell : CellRef) (s : State) : Result := probRead Config.params cell s

/-- The cell a lookup in the latched block reads (R76). -/
def lookupCell (s : State) (b x : Nat) : CellRef := { cls := s.blk.cls, ref := s.blk.ref, band := b, ctx := x }

/-- COEF_LOOKUP (R76): position, band, context and the cell's probability vector. -/
def coefLookup (P : Params) (c col row : Nat) (s : State) : Result :=
  if !s.blk.valid then raiseError .noBlock opcCoefLookup s
  else if coefCount s ≤ c then raiseError .indexRange opcCoefLookup s
  else if c == 0 && !spanInRange P s col row then raiseError .indexRange opcCoefLookup s
  else
    match bandOf P s.blk.scanId c with
    | .error e => raiseError e opcCoefLookup s
    | .ok b =>
      match contextOf P s c col row with
      | .error e => raiseError e opcCoefLookup s
      | .ok x => .next (setCoef s (cellLane P s (lookupCell s b x)) (scanPosition P s c) b x)

def execCoefLookup (c col row : Nat) (s : State) : Result := coefLookup Config.params c col row s

/-- PROB_WRITE (R77). -/
def probWrite (P : Params) (cell : CellRef) (node : Nat) (value : Byte) (s : State) : Result :=
  if !cellInRange cell || !nodeInRange node then raiseError .indexRange opcProbWrite s
  else if value == 0#8 then raiseError .badProb opcProbWrite s
  else .next (writePt P s (ptx cell node) value)

def execProbWrite (cell : CellRef) (node : Nat) (value : Byte) (s : State) : Result :=
  probWrite Config.params cell node value s

/-- RESET_DEFAULTS (R82): `PT[i] <- DEFAULT_PT[i]` for every `i`, which is what `PT` reads with nothing listed. -/
def execResetDefaults (s : State) : Result := .next (s.setPt [])

end Sys2Proof.Machine
end

