-- ==== Sys2Proof/Machine/Dispatch.lean ====
section
/-! DEFINITION. The meaning of each command, one arm for each constructor of `Instr` (R44). -/

namespace Sys2Proof.Machine

def exec (i : Instr) (s : State) : Host.Outcome State Fault Refusal :=
  match i with
  | .nop => Sys2Proof.Machine.execNop s
  | .clearErr => Sys2Proof.Machine.execClearErr s
  | .setConfig compactEn adaptEn irqEn => Sys2Proof.Machine.execSetConfig compactEn adaptEn irqEn s
  | .resetDefaults => Sys2Proof.Machine.execResetDefaults s
  | .clearCounts => Sys2Proof.Machine.execClearCounts s
  | .blockStart size txtype plane ref => Sys2Proof.Machine.execBlockStart size txtype plane ref s
  | .scanLookup c => Sys2Proof.Machine.execScanLookup c s
  | .bandLookup c => Sys2Proof.Machine.execBandLookup c s
  | .ctxDerive c col row => Sys2Proof.Machine.execCtxDerive c col row s
  | .tcWrite c token => Sys2Proof.Machine.execTcWrite c token s
  | .ecWrite nz col row => Sys2Proof.Machine.execEcWrite nz col row s
  | .ecClear above left => Sys2Proof.Machine.execEcClear above left s
  | .probRead cell => Sys2Proof.Machine.execProbRead cell s
  | .coefLookup c col row => Sys2Proof.Machine.execCoefLookup c col row s
  | .probWrite cell node value => Sys2Proof.Machine.execProbWrite cell node value s
  | .countRecord cell node br => Sys2Proof.Machine.execCountRecord cell node br s
  | .countAdd cell node br amount => Sys2Proof.Machine.execCountAdd cell node br amount s
  | .countRead cell node => Sys2Proof.Machine.execCountRead cell node s
  | .subexpUpdate prob => Sys2Proof.Machine.execSubexpUpdate prob s
  | .fwdUpdate => Sys2Proof.Machine.execFwdUpdate s
  | .modelExpand prob => Sys2Proof.Machine.execModelExpand prob s
  | .adapt => Sys2Proof.Machine.execAdapt s

end Sys2Proof.Machine
end

