-- ==== Sys2Proof/Machine/Issue.lean ====
section
/-! DEFINITION. What the unit does with one input: a command word stored to `CMD`, any other access to the window, a reset
(R13, R28 to R38, R105, R108, R116, R117). -/

namespace Sys2Proof.Machine

/-- One command word (R45, R105, R106, R108): a halted unit ignores it, undecoded, unless it is exactly CLEAR_ERR; otherwise
the decode checks come first and then the command runs to completion (R35). -/
def issueWord (w : Word) (s : State) : Result :=
  if ignoresWord s w then .next s
  else
    match decode w with
    | .badOpcode => raiseError .badOpcode (opcByte w) s
    | .reservedField => raiseError .reservedField (opcByte w) s
    | .command i => exec i s

/-- A host store (R13, R29, R30): only one to `CMD` has an effect. -/
def hostStore (offset : Fin 64) (bytes : Nat) (data : Word) (s : State) : Result :=
  if !accessSpecified offset bytes then .refused .unspecifiedAccess
  else if offset.val = 0 then issueWord data s
  else .next s

/-- A host load (R13, R29, R35): it changes nothing of the unit, and what it returns is listed on the bus. -/
def hostLoad (P : Params) (offset : Fin 64) (bytes : Nat) (s : State) : Result :=
  if !accessSpecified offset bytes then .refused .unspecifiedAccess
  else .next (s.setBus { s.bus with returned := windowRegister P s (offset.val / 8) :: s.bus.returned })

/-- The port with only the first `n` answers left. -/
def BitPort.limit (port : BitPort) (n : Nat) : BitPort := { port with answers := port.answers.take n }

/-- The port a command word leaves when it runs: only SUBEXP_UPDATE and FWD_UPDATE make requests (R26), and a halted unit
makes none (R108). -/
def portAfter (P : Params) (w : Word) (s : State) : BitPort :=
  if ignoresWord s w then s.port
  else
    match decode w with
    | .command (.subexpUpdate prob) => if prob == 0#8 then s.port else (diffUpdate prob s.port).port
    | .command .fwdUpdate => (fwdWalk P s).port
    | _ => s.port

/-- The port when the command `w` is abandoned after the source answered at most `n` of its requests (R117): those answers
are spent, the request outstanding is dropped, and the answers not given are still to come. -/
def abandonedPort (P : Params) (w : Word) (n : Nat) (s : State) : BitPort :=
  { portAfter P w (s.setPort (s.port.limit n)) with
    answers := (portAfter P w (s.setPort (s.port.limit n))).answers ++ s.port.answers.drop n }

/-- One input. -/
def takeEvent (P : Params) (e : HostEvent) (s : State) : Result :=
  match e with
  | .store offset bytes data => hostStore offset bytes data s
  | .load offset bytes => hostLoad P offset bytes s
  | .reset => .next (platformReset s)
  | .resetDuring w n => .next (platformReset (s.setPort (abandonedPort P w n s)))

/-- The rest of the host's accesses after one is taken. -/
def afterEvent (s : State) (rest : List HostEvent) : State := s.setBus { s.bus with pending := rest }

end Sys2Proof.Machine
end

