-- ==== Sys2Proof/Machine/Step.lean ====
section
/-! DEFINITION. One step: the next input, taken to its end (R35, R37). With no input the unit waits (R117). -/

namespace Sys2Proof.Machine

def step (s : State) : Host.Outcome State Fault Refusal :=
  match s.bus.pending with
  | [] => .next s
  | e :: rest => takeEvent Config.params e (afterEvent s rest)

/-- `s` with the command word `w` as the host's next access: a 64-bit store to `CMD`, the only way a command reaches the
unit (R30). -/
def State.withFetchWord (s : State) (nbits w : Nat) : State :=
  s.setBus { s.bus with
    pending := .store 0 8 (wordOfBytes (wordBytes (BitVec.ofNat 64 (w % 2 ^ nbits)))) :: s.bus.pending }

end Sys2Proof.Machine
end

