-- ==== Sys2Proof/Safety.lean ====
section
/-! DEFINITION. What the statements are said in: the invariant of the machine, running a list of commands, and the duties of
the host as predicates on command lists (R113, R115, R119 to R123), which the unit does not check. -/

namespace Sys2Proof.Machine

/-- No command executes but CLEAR_ERR (R108). -/
abbrev Halted (s : State) : Prop := s.status.err = true

/-- Every stored probability lies in 1..255 (R72). -/
def ProbsInRange (P : Params) (s : State) : Prop := ∀ i, i < numEntries → readPt P s i ≠ 0#8

/-- `BLK` is 0, or what a successful BLOCK_START latches (R17, R57). -/
def BlkLegal (b : Blk) : Prop :=
  b = Blk.clear ∨ (b.valid = true ∧ illegalGeometry b.size b.txtype b.plane = false ∧
    b.scanId = scanIdOf b.size b.txtype ∧ b.cls = planeClass b.plane)

/-- `STATUS` is 0, or what one of the ten errors records (R106). -/
def StatusLegal (t : Status) : Prop := t = Status.clear ∨ ∃ e opc, t = Status.ofError e opc

/-- Every memory is in its canonical form. -/
structure MemoriesCanonical (P : Params) (s : State) : Prop where
  pt : Memory.wf P.defaultPt s.pt
  ct : Memory.wf ctReset s.ct
  tc : Memory.wf tcReset s.tc
  ac : Memory.wf edgeReset s.ac
  lc : Memory.wf edgeReset s.lc

/-- Every memory lists only indices the memory has (R20 to R23). -/
structure IndicesInRange (P : Params) (s : State) : Prop where
  pt : ∀ e ∈ s.pt, e.1 < numEntries
  ct : ∀ e ∈ s.ct, e.1 < 2 * numEntries
  tc : ∀ e ∈ s.tc, e.1 < numTokens
  ac : ∀ e ∈ s.ac, ∃ p k, p < numPlanes ∧ k < P.aboveEntries ∧ e.1 = edgeKey p k
  lc : ∀ e ∈ s.lc, ∃ p k, p < numPlanes ∧ k < P.leftEntries ∧ e.1 = edgeKey p k

/-- The invariant of the machine. -/
structure Inv (P : Params) (s : State) : Prop where
  canonical : MemoriesCanonical P s
  indices : IndicesInRange P s
  probs : ProbsInRange P s
  blk : BlkLegal s.blk
  status : StatusLegal s.status

/-- Commands one after the other, each to its end (R37), in a unit that is not halted or becomes so. -/
def runCommands : List Instr → State → Result
  | [], s => .next s
  | i :: rest, s =>
    match issueWord (encode i) s with
    | .next t => runCommands rest t
    | .fault f => .fault f
    | .refused r => .refused r

/-! The host's duties. A breach gives "well-defined but wrong results" (R121 to R125): the machine runs on, and no statement
about the machine assumes them. -/

/-- The boot sequence of a host that needs a configuration of its own (R119). -/
def bootSequence (compactEn adaptEn irqEn : Bool) : List Instr :=
  [.setConfig compactEn adaptEn irqEn] ++ seqReset ++ ecClearAll

/-- What the host does after a corruption-class error, before another frame (R113). -/
def recoverySequence : List Instr := [.clearErr] ++ seqReset ++ ecClearAll

/-- A coefficient as the external tree coder codes it: the nodes traversed with the branches taken, and the token (R120). -/
structure CoefScript where
  traversed : List (CellRef × Nat × Bool)
  token : Token
deriving DecidableEq, Repr

/-- A transform block of a frame (R120). -/
structure BlockScript where
  size : TxSize
  txtype : TxType
  plane : Nat
  ref : RefType
  col : Nat
  row : Nat
  coefs : List CoefScript
  nz : Bool
deriving DecidableEq, Repr

/-- The commands of the coefficients from scan index `c` on: lookup, counts, and TC_WRITE unless the token is EOB. -/
def coefCommands (col row : Nat) : Nat → List CoefScript → List Instr
  | _, [] => []
  | c, k :: rest =>
    [.coefLookup c col row] ++ (k.traversed.map fun n => Instr.countRecord n.1 n.2.1 n.2.2) ++
      (if k.token == .endOfBlock then [] else [.tcWrite c k.token]) ++ coefCommands col row (c + 1) rest

/-- The commands of one block (R120). -/
def blockCommands (b : BlockScript) : List Instr :=
  [.blockStart b.size b.txtype b.plane b.ref] ++ coefCommands b.col b.row 0 b.coefs ++ [.ecWrite b.nz b.col b.row]

/-- The commands of one frame (R120): the sequence reset on a keyframe only, the forward update, the boundaries with their
blocks, the adaptation. -/
def frameCommands (keyframe : Bool) (boundaries : List ((Bool × Bool) × List BlockScript)) : List Instr :=
  (if keyframe then seqReset else []) ++ [.fwdUpdate] ++
    (boundaries.flatMap fun b => [Instr.ecClear b.1.1 b.1.2] ++ b.2.flatMap blockCommands) ++ [.adapt]

/-- A command that cannot change `PT` (R121). -/
def keepsTable : Instr → Bool
  | .resetDefaults => false
  | .probWrite _ _ _ => false
  | .fwdUpdate => false
  | .adapt => false
  | .nop => true
  | .clearErr => true
  | .setConfig _ _ _ => true
  | .clearCounts => true
  | .blockStart _ _ _ _ => true
  | .scanLookup _ => true
  | .bandLookup _ => true
  | .ctxDerive _ _ _ => true
  | .tcWrite _ _ => true
  | .ecWrite _ _ _ => true
  | .ecClear _ _ => true
  | .probRead _ => true
  | .coefLookup _ _ _ => true
  | .countRecord _ _ _ => true
  | .countAdd _ _ _ _ => true
  | .countRead _ _ => true
  | .subexpUpdate _ => true
  | .modelExpand _ => true

/-- R121 on the commands between a frame's table setup and its ADAPT. -/
def tableStable (cmds : List Instr) : Bool := cmds.all keepsTable

/-- R122 on the commands of one block with scan order `scan`, where `written` are the scan indices written so far: every
neighbour a lookup names was written before. -/
def cacheWrittenFirst (P : Params) (scan : Nat) : List Nat → List Instr → Bool
  | _, [] => true
  | written, .tcWrite c _ :: rest => cacheWrittenFirst P scan (c :: written) rest
  | written, .coefLookup c _ _ :: rest => neighboursWritten written c && cacheWrittenFirst P scan written rest
  | written, .ctxDerive c _ _ :: rest => neighboursWritten written c && cacheWrittenFirst P scan written rest
  | written, _ :: rest => cacheWrittenFirst P scan written rest
where
  neighboursWritten (written : List Nat) (c : Nat) : Bool :=
    c == 0 || (written.contains (P.nbRom scan c).nb0 && ((P.nbRom scan c).cnt != 2 || written.contains (P.nbRom scan c).nb1))

/-- All cells, in the order of `PTX` (R33). -/
def allCells : List CellRef :=
  [PlaneClass.luma, PlaneClass.chroma].flatMap fun cls =>
    [RefType.intra, RefType.inter].flatMap fun ref =>
      (List.range 6).flatMap fun band => (List.range 6).map fun ctx => { cls := cls, ref := ref, band := band, ctx := ctx }

/-- The COUNT_ADDs with which a host merges the counts of a worker instance into another, node by node and branch by
branch, from what COUNT_READ returned of each (R115). -/
def mergeCommands (worker : State) : List Instr :=
  allCells.flatMap fun cell =>
    (List.range numNodes).flatMap fun node =>
      [Instr.countAdd cell node false (readCt worker (ptx cell node) false).toNat,
       Instr.countAdd cell node true (readCt worker (ptx cell node) true).toNat]

/-! The update code from the encoder's side, as R87's table of codewords and R90's flag give it. The unit only decodes it
(R3, R5); statements about the decoder are said with it. -/

/-- A literal of `n` bits, most significant first (R85). -/
def literalBits : Nat → Nat → List Bool
  | 0, _ => []
  | n + 1, v => (v / 2 ^ n % 2 == 1) :: literalBits n v

/-- The codeword of index `w` in 0..254: prefix bits, then a literal, then one more bit where R87's last row has it. -/
def subexpCode (w : Nat) : List Bool :=
  if w < 16 then [false] ++ literalBits 4 w
  else if w < 32 then [true, false] ++ literalBits 4 (w - 16)
  else if w < 64 then [true, true, false] ++ literalBits 5 (w - 32)
  else if w < 129 then [true, true, true] ++ literalBits 7 (w - 64)
  else [true, true, true] ++ literalBits 7 ((w + 1) / 2) ++ [(w + 1) % 2 == 1]

/-- What codes one entry: the flag 0, or the flag 1 and the codeword of an index (R90). -/
def updateCode : Option Nat → List Bool
  | none => [false]
  | some w => true :: subexpCode w

/-- The answers of a source that returns these bits. -/
def validAnswers (bs : List Bool) : List BitAnswer := bs.map fun b => { bit := b, valid := true }

end Sys2Proof.Machine
end

