-- ==== Sys2Proof/Certificates/Slice0/Obligations.lean ====
section
/-! DEFINITION. The statements for the provers. A statement that says what a command does gives the whole next state, or says
of each part of it what it is, so that it is the command's frame as well. -/

namespace Sys2Proof.Machine

/-- The state a failed command leaves (R106): `STATUS` records the error, `CODE` and `CORRUPT` as R102's table gives them. -/
def errorState (code : BitVec 4) (corrupt : Bool) (opc : Byte) (s : State) : State :=
  { s with status := { err := true, corrupt := corrupt, code := code, opc := opc } }

/-- Lane `n` of a result (R49). -/
def laneOf (s : State) (n : Nat) : Byte :=
  if n < 8 then s.res0.extractLsb' (8 * n) 8 else s.res1.extractLsb' (8 * (n - 8)) 8

/-- The rows of spec/opcode_table.json: match and mask. -/
def opcodeTable : List (Word × Word) :=
  [ (0x0000000000000000#64, 0xFFFFFFFFFFFFFFFF#64), (0x0000000000000001#64, 0xFFFFFFFFFFFFFFFF#64),
    (0x0000000000000002#64, 0xFFFFFFFFFFFFF8FF#64), (0x0000000000000003#64, 0xFFFFFFFFFFFFFFFF#64),
    (0x0000000000000004#64, 0xFFFFFFFFFFFFFFFF#64), (0x0000000000000010#64, 0xFFFFFFFFFFFF80FF#64),
    (0x0000000000000011#64, 0xFFFFFFFFFFFC00FF#64), (0x0000000000000012#64, 0xFFFFFFFFFFFC00FF#64),
    (0x0000000000000018#64, 0xFFFC0000000000FF#64), (0x0000000000000019#64, 0xFFFFFFFFFFC000FF#64),
    (0x000000000000001A#64, 0xFFFC00000003FEFF#64), (0x000000000000001B#64, 0xFFFFFFFFFFFFFCFF#64),
    (0x0000000000000020#64, 0xFFFFFFFFFFFF00FF#64), (0x0000000000000021#64, 0xFFFC0000000000FF#64),
    (0x0000000000000022#64, 0xFFFFFFFFF00000FF#64), (0x0000000000000023#64, 0xFFFFFFFFFFE000FF#64),
    (0x0000000000000024#64, 0xFFE00000000000FF#64), (0x0000000000000025#64, 0xFFFFFFFFFFF000FF#64),
    (0x0000000000000030#64, 0xFFFFFFFFFFFF00FF#64), (0x0000000000000031#64, 0xFFFFFFFFFFFFFFFF#64),
    (0x0000000000000032#64, 0xFFFFFFFFFFFF00FF#64), (0x0000000000000038#64, 0xFFFFFFFFFFFFFFFF#64) ]

/-- The opcode byte is in one of the undefined ranges R44 lists. -/
def undefinedOpcode (b : Byte) : Prop :=
  (0x05 ≤ b.toNat ∧ b.toNat ≤ 0x0F) ∨ (0x13 ≤ b.toNat ∧ b.toNat ≤ 0x17) ∨ (0x1C ≤ b.toNat ∧ b.toNat ≤ 0x1F) ∨
    (0x26 ≤ b.toNat ∧ b.toNat ≤ 0x2F) ∨ (0x33 ≤ b.toNat ∧ b.toNat ≤ 0x37) ∨ (0x39 ≤ b.toNat ∧ b.toNat ≤ 0xFF)

/-- The context of a later coefficient with neighbour entry `e` (R68): a single neighbour counts twice. -/
def neighbourContext (s : State) (e : NbEntry) : Nat :=
  Config.params.ctxCombine (readTc s e.nb0) (if e.cnt = 2 then readTc s e.nb1 else readTc s e.nb0)

/-- The entries a context lookup at scan index `c` meets break a law: the neighbour entry that of R66, or the entry of `CTX_COMBINE`
that of R67 (R68). -/
def breaksContextLaws (P : Params) (s : State) (c : Nat) : Prop :=
  (P.nbRom s.blk.scanId c).cnt = 0 ∨ 2 < (P.nbRom s.blk.scanId c).cnt ∨ c ≤ (P.nbRom s.blk.scanId c).nb0 ∨
    ((P.nbRom s.blk.scanId c).cnt = 2 ∧ c ≤ (P.nbRom s.blk.scanId c).nb1) ∨
    5 < P.ctxCombine (readTc s (P.nbRom s.blk.scanId c).nb0)
      (if (P.nbRom s.blk.scanId c).cnt = 2 then readTc s (P.nbRom s.blk.scanId c).nb1 else readTc s (P.nbRom s.blk.scanId c).nb0)

/-- The code of an update of each entry of a list, one after the other, by `upd`. -/
def streamCode (upd : Nat → Option Nat) (entries : List Nat) : List Bool := entries.flatMap fun i => updateCode (upd i)

/-- The entries FWD_UPDATE visits in a state (R92): all of them, or with the compact model on those of nodes 0..U-1. -/
def visitedEntries (s : State) : List Nat := fwdOrder (if s.cfg.compactEn then Config.params.u else 11)

/-- Node `n` of a cell as the read path gives it (R74). -/
def readNode (s : State) (cell : CellRef) (n : Nat) : Byte :=
  if s.cfg.compactEn = true ∧ Config.params.u ≤ n
  then Config.params.compactRom (readPt Config.params s (ptx cell (Config.params.u - 1))).toNat (n - 1)
  else readPt Config.params s (ptx cell n)

end Sys2Proof.Machine

open Sys2Proof Sys2Proof.Machine

/-! Encoding. -/

/-- 30_encoding.md sections 1 and 2: the decoder gives back every well-formed command from its word, every operand at every
value its field admits. -/
def Obligations.DecodeOfEncodeIsTheCommand : Prop :=
  ∀ i : Instr, WellFormed i → decode (encode i) = .command i

/-- 30_encoding.md sections 1 and 2: a word that decodes to a command is that command's one encoding. -/
def Obligations.DecodedWordIsTheEncoding : Prop :=
  ∀ (w : Word) (i : Instr), decode w = .command i → WellFormed i ∧ encode i = w

/-- R45: the three verdicts, by the match and mask of the opcode table. -/
def Obligations.VerdictsFollowMatchAndMask : Prop :=
  ∀ w : Word,
    (∀ r ∈ opcodeTable, (w &&& r.2 = r.1 ↔ ∃ i, decode w = .command i ∧ opcByte (encode i) = opcByte r.1)) ∧
    (∀ r ∈ opcodeTable, opcByte w = opcByte r.1 → w &&& r.2 ≠ r.1 → decode w = .reservedField) ∧
    ((∀ r ∈ opcodeTable, opcByte w ≠ opcByte r.1) → decode w = .badOpcode)

/-- R44, the list of undefined opcodes, and R46, that each is illegal. -/
def Obligations.UndefinedOpcodesAreIllegal : Prop :=
  ∀ w : Word, decode w = .badOpcode ↔ undefinedOpcode (opcByte w)

/-- Sanity: command words written out in the spec's rules decode to the commands they stand for (R50, R53, R54, R57, R65, R71,
R75, R77, R79 to R81, R91, R96, R99). -/
def Obligations.SpecWordsDecode : Prop :=
  decode 0x0000000000000302#64 = .command (.setConfig true true false) ∧
  decode 0x0000000000005910#64 = .command (.blockStart .s8x8 .dctAdst 1 .inter) ∧
  decode 0x00000000000C0319#64 = .command (.tcWrite 3 .three) ∧
  decode 0x000000000C846922#64 = .command (.probWrite { cls := .chroma, ref := .intra, band := 2, ctx := 3 } 4 200#8) ∧
  decode 0x000000000000A623#64 = .command (.countRecord { cls := .luma, ref := .inter, band := 1, ctx := 5 } 0 false) ∧
  decode 0x0000000004100024#64 = .command (.countAdd { cls := .luma, ref := .intra, band := 0, ctx := 0 } 0 true 0x20) ∧
  decode 0x0000000000008030#64 = .command (.subexpUpdate 128#8) ∧
  decode 0x000000000000C832#64 = .command (.modelExpand 200#8)

/-! The step. -/

/-- A step runs the decoded command (20_memory.md sections 2 and 5, R45): when the host's next access is a 64-bit store to `CMD`
of a word that decodes to `i`, and the unit is not halted, the step is `exec i` with that access taken off the list of accesses,
which is the model's own (log entry 5). That the store counts as aligned by its offset is the model's choice (log entry 17). -/
def Obligations.StepRunsTheDecodedCommand : Prop :=
  ∀ (s : State) (w : Word) (i : Instr) (rest : List HostEvent),
    s.bus.pending = .store 0 8 w :: rest → s.status.err = false → decode w = .command i →
    step s = exec i { s with bus := { pending := rest, returned := s.bus.returned } }

/-- R108: a halted unit ignores every word but exactly CLEAR_ERR; R109: that word clears `STATUS` and nothing else. The
list the store is taken from is the model's own (log entry 5), and that it counts as aligned by its offset the model's choice (log
entry 17). -/
def Obligations.HaltedUnitOnlyTakesClearErr : Prop :=
  ∀ (s : State) (w : Word) (rest : List HostEvent),
    s.bus.pending = .store 0 8 w :: rest → s.status.err = true →
    (w ≠ 0x0000000000000001#64 → step s = .next { s with bus := { pending := rest, returned := s.bus.returned } }) ∧
    (w = 0x0000000000000001#64 →
      step s = .next { s with status := { err := false, corrupt := false, code := 0#4, opc := 0#8 },
                              bus := { pending := rest, returned := s.bus.returned } })

/-- R105 with R102 and R106: the decode checks come first, and a word that fails one changes only `STATUS`. The list the store is
taken from is the model's own (log entry 5), and that it counts as aligned by its offset the model's choice (log entry 17). -/
def Obligations.DecodeChecksComeFirst : Prop :=
  ∀ (s : State) (w : Word) (rest : List HostEvent),
    s.bus.pending = .store 0 8 w :: rest → s.status.err = false →
    (undefinedOpcode (opcByte w) →
      step s = .next (errorState 1#4 false (opcByte w) { s with bus := { pending := rest, returned := s.bus.returned } })) ∧
    (∀ r ∈ opcodeTable, opcByte w = opcByte r.1 → w &&& r.2 ≠ r.1 →
      step s = .next (errorState 2#4 false (opcByte w) { s with bus := { pending := rest, returned := s.bus.returned } }))

/-- R30: an access that is not a naturally aligned 64-bit one is refused. That alignment is judged by the offset in the window and not by
the host address is the model's choice (log entry 17); the list the access is taken from is the model's own (log entry 5). -/
def Obligations.UnspecifiedAccessIsRefused : Prop :=
  ∀ (s : State) (rest : List HostEvent) (offset : Fin 64) (bytes : Nat) (data : Word),
    (offset.val % 8 ≠ 0 ∨ bytes ≠ 8) →
    (s.bus.pending = .store offset bytes data :: rest → step s = .refused .unspecifiedAccess) ∧
    (s.bus.pending = .load offset bytes :: rest → step s = .refused .unspecifiedAccess)

/-- R13 and R29: what a 64-bit load returns at each offset, and that it changes nothing; a store to any register but `CMD`, or to
the unmapped offset, is ignored. That an access counts as aligned by its offset, whatever
`WINDOW_BASE` is, is the model's choice (log entry 17); the lists of accesses and of returned values are its own (log entries 5 and 7). -/
def Obligations.WindowAccessesReadTheRegisters : Prop :=
  ∀ (s : State) (rest : List HostEvent) (offset : Fin 64) (data : Word), offset.val % 8 = 0 →
    (s.bus.pending = .load offset 8 :: rest →
      ∃ v, step s = .next { s with bus := { pending := rest, returned := v :: s.bus.returned } } ∧
        (offset.val = 0x00 → v = 0#64) ∧ (offset.val = 0x08 → v = statusWord s) ∧ (offset.val = 0x10 → v = cfgWord s.cfg) ∧
        (offset.val = 0x18 → v = s.res0) ∧ (offset.val = 0x20 → v = s.res1) ∧ (offset.val = 0x28 → v = capWord Config.params) ∧
        (offset.val = 0x30 → v = blkWord s.blk) ∧ (offset.val = 0x38 → v = 0#64)) ∧
    (s.bus.pending = .store offset 8 data :: rest → offset.val ≠ 0 →
      step s = .next { s with bus := { pending := rest, returned := s.bus.returned } })

/-- R14, R15, R17, R19 and R111: each field of the register words at its bits, every other bit 0. -/
def Obligations.RegisterWordsHoldTheirFields : Prop :=
  ∀ s : State,
    (statusWord s).extractLsb' 0 1 = BitVec.ofBool s.status.err ∧ (statusWord s).extractLsb' 1 1 = BitVec.ofBool s.status.corrupt ∧
    (statusWord s).extractLsb' 2 2 = 0#2 ∧ (statusWord s).extractLsb' 4 4 = s.status.code ∧
    (statusWord s).extractLsb' 8 8 = s.status.opc ∧
    (statusWord s).extractLsb' 16 1 = BitVec.ofBool (s.status.err && s.cfg.irqEn) ∧ (statusWord s).extractLsb' 17 47 = 0#47 ∧
    (cfgWord s.cfg).extractLsb' 0 1 = BitVec.ofBool s.cfg.compactEn ∧ (cfgWord s.cfg).extractLsb' 1 1 = BitVec.ofBool s.cfg.adaptEn ∧
    (cfgWord s.cfg).extractLsb' 2 1 = BitVec.ofBool s.cfg.irqEn ∧ (cfgWord s.cfg).extractLsb' 3 61 = 0#61 ∧
    (blkWord s.blk).extractLsb' 0 1 = BitVec.ofBool s.blk.valid ∧
    (blkWord s.blk).extractLsb' 1 2 = BitVec.ofNat 2 (codeOfSize s.blk.size) ∧
    (blkWord s.blk).extractLsb' 3 2 = BitVec.ofNat 2 (codeOfTxType s.blk.txtype) ∧
    (blkWord s.blk).extractLsb' 5 2 = BitVec.ofNat 2 s.blk.plane ∧
    (blkWord s.blk).extractLsb' 7 1 = BitVec.ofNat 1 (codeOfRef s.blk.ref) ∧
    (blkWord s.blk).extractLsb' 8 4 = BitVec.ofNat 4 s.blk.scanId ∧
    (blkWord s.blk).extractLsb' 12 1 = BitVec.ofNat 1 (codeOfClass s.blk.cls) ∧ (blkWord s.blk).extractLsb' 13 51 = 0#51 ∧
    (capWord Config.params).extractLsb' 0 4 = BitVec.ofNat 4 Config.params.u ∧
    (capWord Config.params).extractLsb' 4 4 = 2#4 ∧ (capWord Config.params).extractLsb' 8 8 = 32#8 ∧
    (capWord Config.params).extractLsb' 16 16 = BitVec.ofNat 16 Config.params.aboveEntries ∧
    (capWord Config.params).extractLsb' 32 16 = BitVec.ofNat 16 Config.params.leftEntries ∧
    (capWord Config.params).extractLsb' 48 8 = 252#8 ∧ (capWord Config.params).extractLsb' 56 8 = 1#8

/-- R31 and R32: after PROB_READ the window's byte `0x18 + n` is lane `n` for `n` in 0..7, and `0x20 + (n - 8)` for 8..10. -/
def Obligations.LanesSitAtWindowBytes : Prop :=
  ∀ (s t : State) (cell : CellRef), exec (.probRead cell) s = .next t → cell.band < 6 → cell.ctx < 6 →
    (∀ (n : Nat) (h : n < 8), windowByte Config.params t ⟨0x18 + n, by omega⟩ = readNode s cell n) ∧
    (∀ (n : Nat) (_ : 8 ≤ n) (h : n ≤ 10), windowByte Config.params t ⟨0x20 + (n - 8), by omega⟩ = readNode s cell n)

/-- R116 and R117: a reset, between commands or during one, sets every piece of the unit's state to its reset value. That what
the host still does and has read stays is the model's choice (log entry 6). -/
def Obligations.ResetSetsEveryValue : Prop :=
  ∀ (s : State) (rest : List HostEvent),
    (s.bus.pending = .reset :: rest ∨ ∃ w n, s.bus.pending = .resetDuring w n :: rest) →
    ∃ t, step s = .next t ∧ statusWord t = 0#64 ∧ irqOutput t = false ∧ cfgWord t.cfg = 0x2#64 ∧ t.res0 = 0#64 ∧ t.res1 = 0#64 ∧
      blkWord t.blk = 0#64 ∧ t.blk.valid = false ∧ windowRegister Config.params t 5 = capWord Config.params ∧
      (∀ i, i < 1584 → readPt Config.params t i = Config.params.defaultPt i) ∧ (∀ i b, readCt t i b = 0#32) ∧
      (∀ c, readTc t c = .zero) ∧ (∀ p k, readAc t p k = false) ∧ (∀ p k, readLc t p k = false) ∧
      t.bus = { pending := rest, returned := s.bus.returned }

/-- R126: a command one of whose bit-source requests is not answered has no successor, whichever request it is: the source falls
silent after any proper part of the code it was sending. That a list of answers at its end is a source that does not answer is the
model's choice (log entry 4). -/
def Obligations.UnansweredRequestIsStuck : Prop :=
  ∀ s : State,
    (∀ (p : Byte) (u : Option Nat) (k : Nat), p ≠ 0#8 → (∀ w, u = some w → w ≤ 254) → k < (updateCode u).length →
      s.port.answers = validAnswers ((updateCode u).take k) → exec (.subexpUpdate p) s = .fault .bitSourceSilent) ∧
    (∀ (upd : Nat → Option Nat) (k : Nat), (∀ i w, upd i = some w → w ≤ 254) → k < (streamCode upd (visitedEntries s)).length →
      s.port.answers = validAnswers ((streamCode upd (visitedEntries s)).take k) → exec .fwdUpdate s = .fault .bitSourceSilent)

/-! The invariant. -/

/-- The state after reset meets the invariant. -/
def Obligations.ResetMeetsInvariant : Prop := Inv Config.params State.reset

/-- Every step keeps the invariant: memories canonical and within their sizes, every probability in 1..255, `BLK` and `STATUS`
as some command leaves them. -/
def Obligations.StepKeepsInvariant : Prop :=
  ∀ s t : State, Inv Config.params s → step s = .next t → Inv Config.params t

/-- R72: no command stores a probability outside 1..255. -/
def Obligations.StoredProbabilitiesStayInRange : Prop :=
  ∀ (i : Instr) (s t : State), (∀ k, k < 1584 → readPt Config.params s k ≠ 0#8) → exec i s = .next t →
    ∀ k, k < 1584 → readPt Config.params t k ≠ 0#8

/-! Rules of the whole machine. -/

/-- R12: `STATUS` is written by an erroring command and by CLEAR_ERR, and by nothing else. -/
def Obligations.OnlyErrorsAndClearErrWriteStatus : Prop :=
  ∀ (i : Instr) (s t : State), exec i s = .next t →
    t.status = s.status ∨ (i = .clearErr ∧ t.status = { err := false, corrupt := false, code := 0#4, opc := 0#8 }) ∨
      ∃ e : Error, t.status = { err := true, corrupt := e.corrupt, code := e.code, opc := opcByte (encode i) }

/-- R106: the failed command changes no other state, but for entries that FWD_UPDATE visits; the requests already answered stay
answered. Which of those entries, Obligations.FwdUnderrunKeepsTheVisitedPart says. -/
def Obligations.FailedCommandChangesOnlyStatus : Prop :=
  ∀ (i : Instr) (s t : State), s.status.err = false → exec i s = .next t → t.status.err = true →
    (i ≠ .fwdUpdate → (∀ p, i ≠ .subexpUpdate p) → t = { s with status := t.status }) ∧
    (∀ p, i = .subexpUpdate p → t = { s with status := t.status, port := t.port }) ∧
    (i = .fwdUpdate → t = { s with status := t.status, pt := t.pt, port := t.port } ∧
      ∀ j, j ∉ visitedEntries s → readPt Config.params t j = readPt Config.params s j) ∧
    (∃ k, t.port.answers = s.port.answers.drop k) ∧
    (∃ e : Error, t.status = { err := true, corrupt := e.corrupt, code := e.code, opc := opcByte (encode i) })

/-- 10_state.md section 7: each piece of state is written only by the commands the table names. -/
def Obligations.EachStateHasItsWriters : Prop :=
  ∀ (i : Instr) (s t : State), exec i s = .next t →
    (t.cfg = s.cfg ∨ ∃ a b c, i = .setConfig a b c) ∧
    (t.blk = s.blk ∨ ∃ a b c d, i = .blockStart a b c d) ∧
    (t.pt = s.pt ∨ i = .resetDefaults ∨ (∃ c n v, i = .probWrite c n v) ∨ i = .fwdUpdate ∨ i = .adapt) ∧
    (t.ct = s.ct ∨ (∃ c n b, i = .countRecord c n b) ∨ (∃ c n b a, i = .countAdd c n b a) ∨ i = .clearCounts ∨ i = .adapt) ∧
    (t.tc = s.tc ∨ (∃ a b c d, i = .blockStart a b c d) ∨ ∃ c k, i = .tcWrite c k) ∧
    (t.ac = s.ac ∧ t.lc = s.lc ∨ (∃ z c r, i = .ecWrite z c r) ∨ ∃ a l, i = .ecClear a l) ∧
    (t.port = s.port ∨ (∃ p, i = .subexpUpdate p) ∨ i = .fwdUpdate) ∧
    (t.res0 = s.res0 ∧ t.res1 = s.res1 ∨ (∃ c, i = .scanLookup c) ∨ (∃ c, i = .bandLookup c) ∨ (∃ c k r, i = .ctxDerive c k r) ∨
      (∃ c k r, i = .coefLookup c k r) ∨ (∃ c, i = .probRead c) ∨ (∃ c n, i = .countRead c n) ∨ (∃ p, i = .subexpUpdate p) ∨
      ∃ p, i = .modelExpand p) ∧
    t.bus = s.bus

/-! Control commands. -/

/-- R52, R53 and R54: NOP changes nothing; CLEAR_ERR sets `STATUS` to 0 and changes nothing else; SET_CONFIG writes `CFG` whole and
nothing else. -/
def Obligations.ControlCommandsWriteTheirRegister : Prop :=
  (encode .nop = 0x0000000000000000#64 ∧ ∀ s : State, exec .nop s = .next s) ∧
  (encode .clearErr = 0x0000000000000001#64 ∧
    ∀ s : State, ∃ t, exec .clearErr s = .next t ∧ statusWord t = 0#64 ∧ irqOutput t = false ∧ { t with status := s.status } = s) ∧
  (∀ (compactEn adaptEn irqEn : Bool) (s : State), ∃ t, exec (.setConfig compactEn adaptEn irqEn) s = .next t ∧
    cfgWord t.cfg = (BitVec.ofBool irqEn ++ BitVec.ofBool adaptEn ++ BitVec.ofBool compactEn : BitVec 3).setWidth 64 ∧
    { t with cfg := s.cfg } = s)

/-- R111: the interrupt output is the level `ERR & IRQ_EN`; an error raises it where it is enabled, and CLEAR_ERR lowers it. -/
def Obligations.InterruptFollowsTheErrorLevel : Prop :=
  ∀ (i : Instr) (s t : State), exec i s = .next t →
    (irqOutput t = true ↔ t.status.err = true ∧ t.cfg.irqEn = true) ∧
    (statusWord t).extractLsb' 16 1 = BitVec.ofBool (irqOutput t) ∧ (i = .clearErr → irqOutput t = false) ∧
    (s.status.err = false → t.status.err = true → irqOutput t = s.cfg.irqEn)

/-! Scan order and band. -/

/-- R55, R56 and R18: plane class, scan order and block dimensions. -/
def Obligations.GeometrySelectsScanAndClass : Prop :=
  (∀ z t, illegalGeometry z t 0 = false →
    (z = .s4x4 → scanIdOf z t = 0 + codeOfTxType t) ∧ (z = .s8x8 → scanIdOf z t = 3 + codeOfTxType t) ∧
    (z = .s16x16 → scanIdOf z t = 6 + codeOfTxType t) ∧ (z = .s32x32 → scanIdOf z t = 9) ∧
    scanLength (scanIdOf z t) = sizeCoefs z) ∧
  (planeClass 0 = .luma ∧ planeClass 1 = .chroma ∧ planeClass 2 = .chroma) ∧
  (∀ z, (z = .s4x4 → sizeWidth z = 4 ∧ sizeCoefs z = 16 ∧ sizeSpan z = 1) ∧ (z = .s8x8 → sizeWidth z = 8 ∧ sizeCoefs z = 64 ∧ sizeSpan z = 2) ∧
    (z = .s16x16 → sizeWidth z = 16 ∧ sizeCoefs z = 256 ∧ sizeSpan z = 4) ∧
    (z = .s32x32 → sizeWidth z = 32 ∧ sizeCoefs z = 1024 ∧ sizeSpan z = 8))

/-- R57: BLOCK_START latches a legal geometry and clears every token-cache entry; an illegal one raises `BAD_GEOMETRY` with `BLK`
and `TC` unchanged. -/
def Obligations.BlockStartLatchesTheGeometry : Prop :=
  ∀ (size : TxSize) (txtype : TxType) (plane : Nat) (ref : RefType) (s : State), plane < 4 →
    (plane = 3 ∨ txtype = .code3 ∨ (size = .s32x32 ∧ txtype ≠ .dctDct) →
      exec (.blockStart size txtype plane ref) s = .next (errorState 4#4 false 0x10#8 s)) ∧
    (plane ≠ 3 → txtype ≠ .code3 → ¬(size = .s32x32 ∧ txtype ≠ .dctDct) →
      ∃ t, exec (.blockStart size txtype plane ref) s = .next t ∧ (∀ c, c < 1024 → readTc t c = .zero) ∧
        t.blk = { valid := true, size := size, txtype := txtype, plane := plane, ref := ref,
                  scanId := if size = .s32x32 then 9 else 3 * codeOfSize size + codeOfTxType txtype,
                  cls := if plane = 0 then .luma else .chroma } ∧
        { t with blk := s.blk, tc := s.tc } = s)

/-- R60: SCAN_LOOKUP returns the position of the scan index. -/
def Obligations.ScanLookupReturnsThePosition : Prop :=
  ∀ (c : Nat) (s : State), encode (.scanLookup c) = BitVec.ofNat 64 (0x11 + 2 ^ 8 * c) ∧
    (s.blk.valid = false → exec (.scanLookup c) s = .next (errorState 3#4 false 0x11#8 s)) ∧
    (s.blk.valid = true → coefCount s ≤ c → exec (.scanLookup c) s = .next (errorState 5#4 false 0x11#8 s)) ∧
    (s.blk.valid = true → c < coefCount s → exec (.scanLookup c) s =
      .next { s with res0 := 0#64, res1 := (BitVec.ofNat 10 (Config.params.scanRom s.blk.scanId c)).setWidth 64 <<< 24 })

/-- R58 with R60: within one block the positions of two scan indices are different, and each lies within the block. -/
def Obligations.ScanVisitsEveryPositionOnce : Prop :=
  ∀ (c d : Nat) (s t u : State), BlkLegal s.blk → s.blk.valid = true → c < coefCount s → d < coefCount s →
    exec (.scanLookup c) s = .next t → exec (.scanLookup d) s = .next u →
    (t.res1.extractLsb' 24 10).toNat < coefCount s ∧ (t.res1 = u.res1 → c = d)

/-- R63 with R62: BAND_LOOKUP returns the ROM's band up to scan index 21, and band 5 past it. -/
def Obligations.BandLookupReturnsTheBand : Prop :=
  ∀ (c : Nat) (s : State), BlkLegal s.blk → encode (.bandLookup c) = BitVec.ofNat 64 (0x12 + 2 ^ 8 * c) ∧
    (s.blk.valid = false → exec (.bandLookup c) s = .next (errorState 3#4 false 0x12#8 s)) ∧
    (s.blk.valid = true → coefCount s ≤ c → exec (.bandLookup c) s = .next (errorState 5#4 false 0x12#8 s)) ∧
    (s.blk.valid = true → c < coefCount s → exec (.bandLookup c) s =
      .next { s with res0 := 0#64,
                     res1 := (BitVec.ofNat 3 (if 21 < c then 5 else Config.params.bandRom s.blk.scanId c)).setWidth 64 <<< 34 })

/-- R62 with R61: over a whole block the band does not decrease, and it is 5 from scan index 22 on. -/
def Obligations.BandsDoNotDecrease : Prop :=
  ∀ (c d : Nat) (s t u : State), BlkLegal s.blk → s.blk.valid = true → c ≤ d → d < coefCount s →
    exec (.bandLookup c) s = .next t → exec (.bandLookup d) s = .next u →
    (t.res1.extractLsb' 34 3).toNat ≤ (u.res1.extractLsb' 34 3).toNat ∧ (u.res1.extractLsb' 34 3).toNat ≤ 5 ∧
    (22 ≤ c → (t.res1.extractLsb' 34 3).toNat = 5)

/-! Context. -/

/-- R65 with R64: TC_WRITE records the class of a token of magnitude 0, 1 or more, and refuses the other codes. -/
def Obligations.TcWriteRecordsTheClass : Prop :=
  ∀ (c : Nat) (token : Token) (s : State),
    (s.blk.valid = false → exec (.tcWrite c token) s = .next (errorState 3#4 false 0x19#8 s)) ∧
    (s.blk.valid = true → coefCount s ≤ c → exec (.tcWrite c token) s = .next (errorState 5#4 false 0x19#8 s)) ∧
    (s.blk.valid = true → c < coefCount s → 11 ≤ codeOfToken token →
      exec (.tcWrite c token) s = .next (errorState 7#4 false 0x19#8 s)) ∧
    (s.blk.valid = true → c < coefCount s → codeOfToken token < 11 →
      ∃ t, exec (.tcWrite c token) s = .next t ∧
        readTc t c = (if codeOfToken token = 0 then MagClass.zero else if codeOfToken token = 1 then .one else .atLeastTwo) ∧
        (∀ k, k ≠ c → readTc t k = readTc s k) ∧ { t with tc := s.tc } = s)

/-- R69 with R68, the first coefficient: the context is the number of nonzero neighbours, each edge the OR of the entries the block
covers. -/
def Obligations.FirstContextCountsNonzeroNeighbours : Prop :=
  ∀ (col row : Nat) (s : State), s.blk.valid = true →
    (¬(col + blockSpan s ≤ Config.params.aboveEntries ∧ row + blockSpan s ≤ Config.params.leftEntries) →
      exec (.ctxDerive 0 col row) s = .next (errorState 5#4 false 0x18#8 s)) ∧
    (col + blockSpan s ≤ Config.params.aboveEntries → row + blockSpan s ≤ Config.params.leftEntries →
      ∀ a l : Bool, (a = true ↔ ∃ k, k < blockSpan s ∧ readAc s s.blk.plane (col + k) = true) →
        (l = true ↔ ∃ k, k < blockSpan s ∧ readLc s s.blk.plane (row + k) = true) →
        exec (.ctxDerive 0 col row) s =
          .next { s with res0 := 0#64, res1 := (BitVec.ofNat 3 (a.toNat + l.toNat)).setWidth 64 <<< 37 })

/-- R69 with R68, the later coefficients and the errors: the neighbours' classes combined, whatever `COL` and `ROW` are. -/
def Obligations.LaterContextCombinesTheNeighbours : Prop :=
  ∀ (c col row : Nat) (s : State), BlkLegal s.blk →
    (s.blk.valid = false → exec (.ctxDerive c col row) s = .next (errorState 3#4 false 0x18#8 s)) ∧
    (s.blk.valid = true → coefCount s ≤ c → exec (.ctxDerive c col row) s = .next (errorState 5#4 false 0x18#8 s)) ∧
    (s.blk.valid = true → c < coefCount s → 1 ≤ c → exec (.ctxDerive c col row) s =
      .next { s with res0 := 0#64,
                     res1 := (BitVec.ofNat 3 (neighbourContext s (Config.params.nbRom s.blk.scanId c))).setWidth 64 <<< 37 })

/-- R68, its last sentence: with conforming ROMs, the machine's, no command raises `CTX_RANGE`, from any state whose `BLK` a command can
have left. The other side, R62, R68 and R102: the lookups over any `Params`, of which the machine's are those at its own, raise
`CTX_RANGE` (code 9, corruption class) where they meet an entry that breaks its law, and change only `STATUS`. -/
def Obligations.ContextRangeErrorNeverFires : Prop :=
  (∀ (i : Instr) (s t : State), BlkLegal s.blk → s.status.err = false → exec i s = .next t → t.status.code ≠ 9#4 ∨ t.status.err = false) ∧
  (∀ (c col row : Nat) (s : State), exec (.bandLookup c) s = bandLookup Config.params c s ∧
    exec (.ctxDerive c col row) s = ctxDerive Config.params c col row s ∧
    exec (.coefLookup c col row) s = coefLookup Config.params c col row s) ∧
  ∀ (P : Params) (c col row : Nat) (s : State), s.blk.valid = true → c < coefCount s →
    (c ≤ 21 → 5 < P.bandRom s.blk.scanId c → bandLookup P c s = .next (errorState 9#4 true 0x12#8 s)) ∧
    (1 ≤ c → breaksContextLaws P s c → ctxDerive P c col row s = .next (errorState 9#4 true 0x18#8 s)) ∧
    ((c = 0 → col + blockSpan s ≤ P.aboveEntries ∧ row + blockSpan s ≤ P.leftEntries) →
      (c ≤ 21 ∧ 5 < P.bandRom s.blk.scanId c) ∨ (1 ≤ c ∧ breaksContextLaws P s c) →
      coefLookup P c col row s = .next (errorState 9#4 true 0x21#8 s))

/-- R66, its derived sentence: no context lookup reads `TC[k]` for any `k >= N`. Two states that differ only there give the same
results. -/
def Obligations.LookupsIgnoreTheCachePastTheBlock : Prop :=
  ∀ (c col row : Nat) (s : State) (m : List (Nat × MagClass)), BlkLegal s.blk →
    (∀ k, k < coefCount s → Memory.read tcReset m k = readTc s k) →
    (∃ t, exec (.ctxDerive c col row) s = .next t ∧ exec (.ctxDerive c col row) { s with tc := m } = .next { t with tc := m }) ∧
    (∃ t, exec (.coefLookup c col row) s = .next t ∧ exec (.coefLookup c col row) { s with tc := m } = .next { t with tc := m })

/-- R70: EC_WRITE writes the flag to every entry the block covers on both edges of its plane, and to no other. -/
def Obligations.EcWriteMarksTheBlocksEdges : Prop :=
  ∀ (nz : Bool) (col row : Nat) (s : State),
    (s.blk.valid = false → exec (.ecWrite nz col row) s = .next (errorState 3#4 false 0x1A#8 s)) ∧
    (s.blk.valid = true → ¬(col + blockSpan s ≤ Config.params.aboveEntries ∧ row + blockSpan s ≤ Config.params.leftEntries) →
      exec (.ecWrite nz col row) s = .next (errorState 5#4 false 0x1A#8 s)) ∧
    (s.blk.valid = true → col + blockSpan s ≤ Config.params.aboveEntries → row + blockSpan s ≤ Config.params.leftEntries →
      ∃ t, exec (.ecWrite nz col row) s = .next t ∧
        (∀ p k, k < 65536 → readAc t p k = if p = s.blk.plane ∧ col ≤ k ∧ k < col + blockSpan s then nz else readAc s p k) ∧
        (∀ p k, k < 65536 → readLc t p k = if p = s.blk.plane ∧ row ≤ k ∧ k < row + blockSpan s then nz else readLc s p k) ∧
        { t with ac := s.ac, lc := s.lc } = s)

/-- R71: EC_CLEAR clears the arrays it names, in all planes, and changes nothing else. -/
def Obligations.EcClearZeroesTheNamedArrays : Prop :=
  ∀ (above left : Bool) (s : State), ∃ t, exec (.ecClear above left) s = .next t ∧
    (∀ p k, readAc t p k = if above then false else readAc s p k) ∧ (∀ p k, readLc t p k = if left then false else readLc s p k) ∧
    (above = false → t.ac = s.ac) ∧ (left = false → t.lc = s.lc) ∧ { t with ac := s.ac, lc := s.lc } = s

/-! Probability store. -/

/-- R33: the flat index is a bijection of the cells and nodes in range onto 0..1583. -/
def Obligations.FlatIndexIsABijection : Prop :=
  (∀ (c : CellRef) (n : Nat), c.band < 6 → c.ctx < 6 → n < 11 → ptx c n < 1584) ∧
  (∀ (c d : CellRef) (m n : Nat), c.band < 6 → c.ctx < 6 → m < 11 → d.band < 6 → d.ctx < 6 → n < 11 → ptx c m = ptx d n → c = d ∧ m = n) ∧
  (∀ i, i < 1584 → ∃ (c : CellRef) (n : Nat), c.band < 6 ∧ c.ctx < 6 ∧ n < 11 ∧ ptx c n = i)

/-- R75 with R74 and R49: PROB_READ returns the cell's eleven lanes, expanded where the compact model is on. -/
def Obligations.ProbReadReturnsTheVector : Prop :=
  ∀ (cell : CellRef) (s : State),
    (6 ≤ cell.band ∨ 6 ≤ cell.ctx → exec (.probRead cell) s = .next (errorState 5#4 false 0x20#8 s)) ∧
    (cell.band < 6 → cell.ctx < 6 →
      ∃ t, exec (.probRead cell) s = .next t ∧ (∀ n, n < 11 → laneOf t n = readNode s cell n) ∧
        t.res1.extractLsb' 24 40 = 0#40 ∧ { t with res0 := s.res0, res1 := s.res1 } = s)

/-- R76: COEF_LOOKUP raises its errors in order, and otherwise returns position, band, context and the vector of the cell they name. -/
def Obligations.CoefLookupReturnsTheLookups : Prop :=
  ∀ (c col row : Nat) (s : State), BlkLegal s.blk →
    (s.blk.valid = false → exec (.coefLookup c col row) s = .next (errorState 3#4 false 0x21#8 s)) ∧
    (s.blk.valid = true → coefCount s ≤ c → exec (.coefLookup c col row) s = .next (errorState 5#4 false 0x21#8 s)) ∧
    (s.blk.valid = true → c < coefCount s → c = 0 →
      ¬(col + blockSpan s ≤ Config.params.aboveEntries ∧ row + blockSpan s ≤ Config.params.leftEntries) →
      exec (.coefLookup c col row) s = .next (errorState 5#4 false 0x21#8 s)) ∧
    (s.blk.valid = true → c < coefCount s →
      (c = 0 → col + blockSpan s ≤ Config.params.aboveEntries ∧ row + blockSpan s ≤ Config.params.leftEntries) →
      ∃ t b x, exec (.coefLookup c col row) s = .next t ∧ b ≤ 5 ∧ x ≤ 5 ∧
        b = (if 21 < c then 5 else Config.params.bandRom s.blk.scanId c) ∧
        (1 ≤ c → x = neighbourContext s (Config.params.nbRom s.blk.scanId c)) ∧
        (c = 0 → x ≤ 2 ∧ exec (.ctxDerive 0 col row) s = .next { s with res0 := 0#64, res1 := (BitVec.ofNat 3 x).setWidth 64 <<< 37 }) ∧
        (∀ n, n < 11 → laneOf t n = readNode s { cls := s.blk.cls, ref := s.blk.ref, band := b, ctx := x } n) ∧
        t.res1.extractLsb' 24 10 = BitVec.ofNat 10 (Config.params.scanRom s.blk.scanId c) ∧
        t.res1.extractLsb' 34 3 = BitVec.ofNat 3 b ∧ t.res1.extractLsb' 37 3 = BitVec.ofNat 3 x ∧ t.res1.extractLsb' 40 24 = 0#24 ∧
        { t with res0 := s.res0, res1 := s.res1 } = s)

/-- R76, its derived corner case: COEF_LOOKUP equals SCAN_LOOKUP, BAND_LOOKUP, CTX_DERIVE and PROB_READ of the cell they give. -/
def Obligations.CoefLookupEqualsTheFourCommands : Prop :=
  ∀ (c col row : Nat) (s t : State), BlkLegal s.blk → s.status.err = false → exec (.coefLookup c col row) s = .next t →
    t.status.err = false →
    ∃ t1 t2 t3 t4, exec (.scanLookup c) s = .next t1 ∧ exec (.bandLookup c) t1 = .next t2 ∧ exec (.ctxDerive c col row) t2 = .next t3 ∧
      exec (.probRead { cls := s.blk.cls, ref := s.blk.ref, band := (t2.res1.extractLsb' 34 3).toNat, ctx := (t3.res1.extractLsb' 37 3).toNat }) t3
        = .next t4 ∧
      t.res0 = t4.res0 ∧ t.res1 = t1.res1 ||| t2.res1 ||| t3.res1 ||| t4.res1 ∧ { t with res1 := t4.res1 } = t4

/-- R77: PROB_WRITE stores one entry; a bad index wins over a value of 0. -/
def Obligations.ProbWriteStoresOneEntry : Prop :=
  ∀ (cell : CellRef) (node : Nat) (value : Byte) (s : State),
    (6 ≤ cell.band ∨ 6 ≤ cell.ctx ∨ 11 ≤ node → exec (.probWrite cell node value) s = .next (errorState 5#4 false 0x22#8 s)) ∧
    (cell.band < 6 → cell.ctx < 6 → node < 11 → value = 0#8 →
      exec (.probWrite cell node value) s = .next (errorState 8#4 false 0x22#8 s)) ∧
    (cell.band < 6 → cell.ctx < 6 → node < 11 → value ≠ 0#8 →
      ∃ t, exec (.probWrite cell node value) s = .next t ∧ readPt Config.params t (ptx cell node) = value ∧
        (∀ i, i ≠ ptx cell node → readPt Config.params t i = readPt Config.params s i) ∧ { t with pt := s.pt } = s)

/-! Counts. -/

/-- R79 and R80 with R78: the count commands add to one counter, saturating, and change nothing else; COUNT_ADD of 1 is COUNT_RECORD. -/
def Obligations.CountCommandsAddSaturating : Prop :=
  ∀ (cell : CellRef) (node : Nat) (br : Bool) (amount : Nat) (s : State),
    (6 ≤ cell.band ∨ 6 ≤ cell.ctx →
      exec (.countRecord cell node br) s = .next (errorState 5#4 false 0x23#8 s) ∧
      exec (.countAdd cell node br amount) s = .next (errorState 5#4 false 0x24#8 s)) ∧
    (cell.band < 6 → cell.ctx < 6 → 11 ≤ node →
      exec (.countRecord cell node br) s = .next (errorState 6#4 true 0x23#8 s) ∧
      exec (.countAdd cell node br amount) s = .next (errorState 6#4 true 0x24#8 s)) ∧
    (cell.band < 6 → cell.ctx < 6 → node < 11 →
      ∃ t u, exec (.countRecord cell node br) s = .next t ∧ exec (.countAdd cell node br amount) s = .next u ∧
        exec (.countAdd cell node br 1) s = .next t ∧
        (readCt t (ptx cell node) br).toNat = min ((readCt s (ptx cell node) br).toNat + 1) (2 ^ 32 - 1) ∧
        (readCt u (ptx cell node) br).toNat = min ((readCt s (ptx cell node) br).toNat + amount) (2 ^ 32 - 1) ∧
        (∀ (c : CellRef) (n : Nat) (b : Bool), c.band < 6 → c.ctx < 6 → n < 11 → (c, n, b) ≠ (cell, node, br) →
          readCt t (ptx c n) b = readCt s (ptx c n) b ∧ readCt u (ptx c n) b = readCt s (ptx c n) b) ∧
        { t with ct := s.ct } = s ∧ { u with ct := s.ct } = s)

/-- R36 and R101: the final counts do not depend on the order of the increments. -/
def Obligations.CountIncrementsCommute : Prop :=
  ∀ (c d : CellRef) (m n : Nat) (p q : Bool) (a b : Nat) (s : State), Memory.wf ctReset s.ct →
    c.band < 6 → c.ctx < 6 → m < 11 → d.band < 6 → d.ctx < 6 → n < 11 →
    ∃ u v t, exec (.countAdd c m p a) s = .next u ∧ exec (.countAdd d n q b) u = .next t ∧
      exec (.countAdd d n q b) s = .next v ∧ exec (.countAdd c m p a) v = .next t

/-- R81: COUNT_READ returns both counters of a node and changes no counter. -/
def Obligations.CountReadReturnsBothCounters : Prop :=
  ∀ (cell : CellRef) (node : Nat) (s : State),
    (6 ≤ cell.band ∨ 6 ≤ cell.ctx ∨ 11 ≤ node → exec (.countRead cell node) s = .next (errorState 5#4 false 0x25#8 s)) ∧
    (cell.band < 6 → cell.ctx < 6 → node < 11 →
      ∃ t, exec (.countRead cell node) s = .next t ∧ t.res0.extractLsb' 0 32 = readCt s (ptx cell node) false ∧
        t.res0.extractLsb' 32 32 = readCt s (ptx cell node) true ∧ t.res1 = 0#64 ∧ { t with res0 := s.res0, res1 := s.res1 } = s)

/-- R82 and R84: RESET_DEFAULTS reloads every default probability, CLEAR_COUNTS zeroes every counter, and neither changes anything
else. -/
def Obligations.TableResetsReloadAndZero : Prop :=
  ∀ s : State,
    (∃ t, exec .resetDefaults s = .next t ∧ (∀ i, i < 1584 → readPt Config.params t i = Config.params.defaultPt i) ∧
      { t with pt := s.pt } = s) ∧
    (∃ t, exec .clearCounts s = .next t ∧ (∀ i b, readCt t i b = 0#32) ∧ { t with ct := s.ct } = s)

/-- R115, its merge: COUNT_ADD of every counter of a worker instance adds the worker's counts to the instance, node by node and branch
by branch, saturating, and changes nothing else. -/
def Obligations.MergingAWorkerAddsItsCounts : Prop :=
  ∀ worker s : State, s.status.err = false →
    ∃ t, runCommands (mergeCommands worker) s = .next t ∧
      (∀ (c : CellRef) (n : Nat) (b : Bool), c.band < 6 → c.ctx < 6 → n < 11 →
        (readCt t (ptx c n) b).toNat = min ((readCt s (ptx c n) b).toNat + (readCt worker (ptx c n) b).toNat) (2 ^ 32 - 1)) ∧
      { t with ct := s.ct } = s

/-! Forward update and compact model. -/

/-- R87's table of codewords, which the spec marks as derived from R87 and R86: every codeword decodes to its index, with no bit left
over and none taken beyond it. The record of the requests made is the model's own (log entry 4). -/
def Obligations.EveryCodewordDecodesToItsIndex : Prop :=
  ∀ (w : Nat) (rest : List BitAnswer) (requests : List Byte), w ≤ 254 →
    decodeSubexp { answers := validAnswers (subexpCode w) ++ rest, requests := requests } =
      .ok w { answers := rest, requests := List.replicate (subexpCode w).length 128#8 ++ requests }

/-- R89, its derived sentence: every delta update moves a probability to another one in 1..255. -/
def Obligations.DeltaUpdateMovesWithinRange : Prop :=
  ∀ w p : Nat, w ≤ 254 → 1 ≤ p → p ≤ 255 → 1 ≤ invRemap w p ∧ invRemap w p ≤ 255 ∧ invRemap w p ≠ p

/-- R88: the remapping's table of first and last values; it takes every value of 1..254. -/
def Obligations.RemappingTakesEveryDistance : Prop :=
  (List.range 25).map imap = [7, 20, 33, 46, 59, 72, 85, 98, 111, 124, 137, 150, 163, 176, 189, 202, 215, 228, 241, 254, 1, 2, 3, 4, 5] ∧
  (List.range 10).map (fun k => imap (245 + k)) = [245, 246, 247, 248, 249, 250, 251, 252, 253, 253] ∧
  (∀ w, w ≤ 254 → 1 ≤ imap w ∧ imap w ≤ 254) ∧
  (∀ v w, v ≤ 254 → w ≤ 254 → v ≠ w → imap v = imap w → imap v = 253) ∧ (∀ d, 1 ≤ d → d ≤ 254 → ∃ w, w ≤ 253 ∧ imap w = d)

/-- R91: SUBEXP_UPDATE decodes one flag and its codeword for the old probability it is given, and touches no table. That a flag 0 makes
one request and no other is the pseudocode's, against R91's own remark on the number of requests: the model's reading (log entry 12).
The record of the requests made is the model's own (log entry 4). -/
def Obligations.SubexpUpdateDecodesOneDelta : Prop :=
  ∀ (p : Byte) (s : State) (rest : List BitAnswer),
    (p = 0#8 → exec (.subexpUpdate p) s = .next (errorState 8#4 false 0x30#8 s)) ∧
    (p ≠ 0#8 → s.port.answers = validAnswers (updateCode none) ++ rest →
      exec (.subexpUpdate p) s = .next { s with res0 := p.setWidth 64, res1 := 0#64,
                                                port := { answers := rest, requests := 252#8 :: s.port.requests } }) ∧
    (p ≠ 0#8 → ∀ w, w ≤ 254 → s.port.answers = validAnswers (updateCode (some w)) ++ rest →
      ∃ t, exec (.subexpUpdate p) s = .next t ∧ t.res0 = BitVec.ofNat 64 (2 ^ 8 + invRemap w p.toNat) ∧ t.res1 = 0#64 ∧
        t.port.answers = rest ∧ { t with res0 := s.res0, res1 := s.res1, port := s.port } = s)

/-- R91 and R102, the underrun of SUBEXP_UPDATE: wherever within the code the source runs out, `UNDERRUN` is raised, the result registers
are unchanged, and the answers taken stay taken. -/
def Obligations.SubexpUpdateUnderrunsCleanly : Prop :=
  ∀ (p : Byte) (s : State) (u : Option Nat) (k : Nat) (x : Bool) (rest : List BitAnswer), p ≠ 0#8 → (∀ w, u = some w → w ≤ 254) →
    k < (updateCode u).length →
    s.port.answers = validAnswers ((updateCode u).take k) ++ { bit := x, valid := false } :: rest →
    ∃ t, exec (.subexpUpdate p) s = .next t ∧ t.port.answers = rest ∧ { t with port := s.port } = errorState 10#4 true 0x30#8 s

/-- R92 (D18): FWD_UPDATE visits the signalled entries in increasing order of the flat index: all of them, or nodes 0..U-1 of every cell. -/
def Obligations.FwdUpdateVisitsEntriesInOrder : Prop :=
  ∀ nn, nn ≤ 11 → fwdOrder nn = (List.range 1584).filter (fun i => i % 11 < nn) ∧ (fwdOrder nn).length = 144 * nn

/-- R92, the whole update: from any stream that codes, entry after entry, "no update" or an index, FWD_UPDATE gives each visited entry its
value recentred by that index and keeps every other, and takes exactly the stream. -/
def Obligations.FwdUpdateAppliesTheStream : Prop :=
  ∀ (s : State) (upd : Nat → Option Nat) (rest : List BitAnswer), (∀ i w, upd i = some w → w ≤ 254) →
    s.port.answers = validAnswers ((fwdOrder (if s.cfg.compactEn then Config.params.u else 11)).flatMap fun i => updateCode (upd i)) ++ rest →
    ∃ t, exec .fwdUpdate s = .next t ∧ t.port.answers = rest ∧
      (∀ i, i ∈ fwdOrder (if s.cfg.compactEn then Config.params.u else 11) →
        readPt Config.params t i = match upd i with
          | none => readPt Config.params s i
          | some w => BitVec.ofNat 8 (invRemap w (readPt Config.params s i).toNat)) ∧
      (∀ i, i ∉ fwdOrder (if s.cfg.compactEn then Config.params.u else 11) → readPt Config.params t i = readPt Config.params s i) ∧
      { t with pt := s.pt, port := s.port } = s

/-- R92 with R87 and R90: FWD_UPDATE completes whenever the source answers every request. That a delta takes at most twelve, the flag and
the eleven bits of the longest codeword, is the pseudocode's, where R91's remark allows fourteen: the model's reading (log entry 12). -/
def Obligations.FwdUpdateCompletesWhenAnswered : Prop :=
  ∀ s : State, (∀ a ∈ s.port.answers, a.valid = true) → 12 * 1584 ≤ s.port.answers.length →
    ∃ t k, exec .fwdUpdate s = .next t ∧ t.port.answers = s.port.answers.drop k ∧ k ≤ 12 * 1584 ∧
      { t with pt := s.pt, port := s.port } = s

/-- R94, its first property: a stream whose every flag is 0 leaves `PT` unchanged, in either mode. That a flag 0 makes one request is log
entry 12's reading, and the record of the requests made is the model's own (log entry 4). -/
def Obligations.ZeroFlagsLeaveTheTable : Prop :=
  ∀ (s : State) (rest : List BitAnswer), Memory.wf Config.params.defaultPt s.pt →
    s.port.answers = List.replicate (144 * (if s.cfg.compactEn then Config.params.u else 11)) { bit := false, valid := true } ++ rest →
    exec .fwdUpdate s = .next { s with port :=
      { answers := rest
        requests := List.replicate (144 * (if s.cfg.compactEn then Config.params.u else 11)) 252#8 ++ s.port.requests } }

/-- R93: when FWD_UPDATE underruns, the entries visited before the failing one have their new values, and it and every later one are
unchanged. First for every underrun: the failing entry is the one whose delta update ended in it. Then for every stream that codes
updates of the entries `done` and ends inside the code of the next one, the new values themselves. -/
def Obligations.FwdUnderrunKeepsTheVisitedPart : Prop :=
  (∀ s t : State, s.status.err = false → exec .fwdUpdate s = .next t → t.status.err = true →
    ∃ done i todo port, visitedEntries s = done ++ i :: todo ∧ fwdLoop Config.params done s.pt s.port = .done t.pt port ∧
      diffUpdate (readPt Config.params t i) port = .underrun t.port ∧
      (∀ j, j ∉ done → readPt Config.params t j = readPt Config.params s j) ∧
      { t with pt := s.pt, port := s.port } = errorState 10#4 true 0x31#8 s) ∧
  ∀ (s : State) (upd : Nat → Option Nat) (done todo : List Nat) (i k : Nat) (x : Bool) (rest : List BitAnswer),
    (∀ j w, upd j = some w → w ≤ 254) → visitedEntries s = done ++ i :: todo → k < (updateCode (upd i)).length →
    s.port.answers = validAnswers (streamCode upd done ++ (updateCode (upd i)).take k) ++ { bit := x, valid := false } :: rest →
    ∃ t, exec .fwdUpdate s = .next t ∧ t.port.answers = rest ∧
      (∀ j, j ∈ done → readPt Config.params t j = match upd j with
        | none => readPt Config.params s j
        | some w => BitVec.ofNat 8 (invRemap w (readPt Config.params s j).toNat)) ∧
      (∀ j, j ∉ done → readPt Config.params t j = readPt Config.params s j) ∧
      { t with pt := s.pt, port := s.port } = errorState 10#4 true 0x31#8 s

/-- R94, its second property: FWD_UPDATE's result is a function of `PT`, `COMPACT_EN`, `U` and the bits returned. -/
def Obligations.FwdUpdateDependsOnTableModeAndBits : Prop :=
  ∀ s s' t : State, s.pt = s'.pt → s.cfg.compactEn = s'.cfg.compactEn → s.port.answers = s'.port.answers →
    exec .fwdUpdate s = .next t →
    ∃ t', exec .fwdUpdate s' = .next t' ∧ t'.pt = t.pt ∧ t'.port.answers = t.port.answers ∧
      (s.status.err = s'.status.err → t'.status.err = t.status.err)

/-- R96: MODEL_EXPAND returns the expansion of a scalar; with the compact model on, PROB_READ of a cell whose pivot is that scalar has the same
lanes from `U` on. -/
def Obligations.ModelExpandReturnsTheExpansion : Prop :=
  ∀ (p : Byte) (s : State),
    (p = 0#8 → exec (.modelExpand p) s = .next (errorState 8#4 false 0x32#8 s)) ∧
    (p ≠ 0#8 → ∃ t, exec (.modelExpand p) s = .next t ∧
      (∀ n, n < 11 → laneOf t n = if Config.params.u ≤ n then Config.params.compactRom p.toNat (n - 1) else 0#8) ∧
      t.res1.extractLsb' 24 40 = 0#40 ∧ { t with res0 := s.res0, res1 := s.res1 } = s ∧
      ∀ (cell : CellRef) (u : State), s.cfg.compactEn = true → readPt Config.params s (ptx cell (Config.params.u - 1)) = p →
        cell.band < 6 → cell.ctx < 6 → exec (.probRead cell) s = .next u → ∀ n, Config.params.u ≤ n → n < 11 → laneOf u n = laneOf t n)

/-! Backward adaptation. -/

/-- R99 with R98: ADAPT merges every entry whose counts reach the minimum, or none where adaptation is off, and clears every counter. -/
def Obligations.AdaptMergesAndClearsTheCounts : Prop :=
  ∀ s : State, ∃ t, exec .adapt s = .next t ∧
    (∀ i, i < 1584 → readPt Config.params t i =
      if s.cfg.adaptEn = true ∧ Config.params.adaptMinCount ≤ (readCt s i false).toNat + (readCt s i true).toNat
      then Config.params.mergeFn (readPt Config.params s i) (readCt s i false) (readCt s i true) else readPt Config.params s i) ∧
    (∀ i b, readCt t i b = 0#32) ∧ (s.cfg.adaptEn = false → t.pt = s.pt) ∧ { t with pt := s.pt, ct := s.ct } = s

/-- R97, laws M3 to M5, on the table, under every lawful configuration: an entry that only saw branch 0 rises unless it is 255, one that
only saw branch 1 falls unless it is 1, and every entry stays between its value and the empirical probability. `ADAPT_MIN_COUNT` has no
upper bound (R98), so the machine's own may be one no counter reaches. -/
def Obligations.AdaptMovesTowardTheObserved : Prop :=
  (∀ s : State, exec .adapt s = adapt Config.params s) ∧
  ∀ (P : Params) (s t : State) (i : Nat), P.Lawful → s.cfg.adaptEn = true → i < 1584 → readPt P s i ≠ 0#8 → adapt P s = .next t →
    (readCt s i true = 0#32 → P.adaptMinCount ≤ (readCt s i false).toNat →
      (readPt P s i).toNat ≤ (readPt P t i).toNat ∧ ((readPt P s i).toNat < 255 → (readPt P s i).toNat < (readPt P t i).toNat)) ∧
    (readCt s i false = 0#32 → P.adaptMinCount ≤ (readCt s i true).toNat →
      (readPt P t i).toNat ≤ (readPt P s i).toNat ∧ (1 < (readPt P s i).toNat → (readPt P t i).toNat < (readPt P s i).toNat)) ∧
    min (readPt P s i).toNat (empiricalLow (readCt s i false) (readCt s i true)) ≤ (readPt P t i).toNat ∧
    (readPt P t i).toNat ≤ max (readPt P s i).toNat (empiricalHigh (readCt s i false) (readCt s i true))

/-! The host's sequences. -/

/-- The sequence of R119 from the state of R116 only writes `CFG`. R119 says of RESET_DEFAULTS and CLEAR_COUNTS that they change nothing
after a reset; that EC_CLEAR changes nothing there and SET_CONFIG only `CFG` follows from R71 and R54. -/
def Obligations.BootSequenceOnlyWritesCfg : Prop :=
  ∀ compactEn adaptEn irqEn : Bool, runCommands (bootSequence compactEn adaptEn irqEn) State.reset =
    .next { State.reset with cfg := { compactEn := compactEn, adaptEn := adaptEn, irqEn := irqEn } }
end

