-- ==== Sys2Proof/Laws/Memory.lean ====
section
/-! SUPPORT. The laws of the internal memories: a read after a write, and that every operation keeps the canonical form. -/

namespace Sys2Proof.Machine

variable {α : Type}

@[simp] theorem Memory.read_nil (bg : Nat → α) (k : Nat) : Memory.read bg [] k = bg k := rfl

theorem Memory.read_put (bg : Nat → α) (k j : Nat) (v : α) (m : List (Nat × α)) :
    Memory.read bg (Memory.put k v m) j = if j = k then v else Memory.read bg m j := by
  induction m with
  | nil => simp only [Memory.put, Memory.read]; (repeat' split) <;> first | rfl | omega
  | cons e m ih =>
    obtain ⟨a, x⟩ := e
    simp only [Memory.put]
    split
    · simp only [Memory.read]; (repeat' split) <;> first | rfl | omega
    · split
      · next h => subst h; simp only [Memory.read]; (repeat' split) <;> first | rfl | omega
      · simp only [Memory.read, ih]; (repeat' split) <;> first | rfl | omega

theorem Memory.read_drop (bg : Nat → α) (k j : Nat) (m : List (Nat × α)) (h : j ≠ k) :
    Memory.read bg (Memory.drop k m) j = Memory.read bg m j := by
  induction m with
  | nil => rfl
  | cons e m ih =>
    obtain ⟨a, x⟩ := e
    simp only [Memory.drop]
    split
    · next hk => subst hk; rw [ih]; simp only [Memory.read]; split
                 · omega
                 · rfl
    · simp only [Memory.read, ih]

theorem Memory.read_drop_self (bg : Nat → α) (k : Nat) (m : List (Nat × α)) : Memory.read bg (Memory.drop k m) k = bg k := by
  induction m with
  | nil => rfl
  | cons e m ih =>
    obtain ⟨a, x⟩ := e
    simp only [Memory.drop]
    split
    · exact ih
    · next hk => simp only [Memory.read]; split
                 · omega
                 · exact ih

/-- What a write leaves at every index. -/
theorem Memory.read_write [DecidableEq α] (bg : Nat → α) (m : List (Nat × α)) (k j : Nat) (v : α) :
    Memory.read bg (Memory.write bg m k v) j = if j = k then v else Memory.read bg m j := by
  unfold Memory.write
  split
  · next h =>
    split
    · next hj => rw [hj, Memory.read_drop_self, h]
    · next hj => exact Memory.read_drop bg k j m hj
  · exact Memory.read_put bg k j v m

@[simp] theorem Memory.read_write_self [DecidableEq α] (bg : Nat → α) (m : List (Nat × α)) (k : Nat) (v : α) :
    Memory.read bg (Memory.write bg m k v) k = v := by simp [Memory.read_write]

theorem Memory.read_write_other [DecidableEq α] (bg : Nat → α) (m : List (Nat × α)) (k j : Nat) (v : α) (h : j ≠ k) :
    Memory.read bg (Memory.write bg m k v) j = Memory.read bg m j := by simp [Memory.read_write, h]

theorem Memory.mem_put {k : Nat} {v : α} {m : List (Nat × α)} {e : Nat × α} (h : e ∈ Memory.put k v m) : e = (k, v) ∨ e ∈ m := by
  induction m with
  | nil => simpa [Memory.put] using h
  | cons x m ih =>
    simp only [Memory.put] at h
    split at h
    · simpa using h
    · split at h
      · rcases List.mem_cons.mp h with h | h
        · exact Or.inl h
        · exact Or.inr (List.mem_cons_of_mem _ h)
      · rcases List.mem_cons.mp h with h | h
        · exact Or.inr (h ▸ List.mem_cons_self)
        · exact (ih h).imp id (List.mem_cons_of_mem _)

theorem Memory.mem_drop {k : Nat} {m : List (Nat × α)} {e : Nat × α} (h : e ∈ Memory.drop k m) : e ∈ m := by
  induction m with
  | nil => exact h
  | cons x m ih =>
    simp only [Memory.drop] at h
    split at h
    · exact List.mem_cons_of_mem _ (ih h)
    · rcases List.mem_cons.mp h with h | h
      · exact h ▸ List.mem_cons_self
      · exact List.mem_cons_of_mem _ (ih h)

/-- An entry after a write is the one written or one that stood there. -/
theorem Memory.mem_write [DecidableEq α] {bg : Nat → α} {m : List (Nat × α)} {k : Nat} {v : α} {e : Nat × α}
    (h : e ∈ Memory.write bg m k v) : e = (k, v) ∨ e ∈ m := by
  unfold Memory.write at h
  split at h
  · exact Or.inr (Memory.mem_drop h)
  · exact Memory.mem_put h

theorem Memory.pairwise_put {k : Nat} {v : α} {m : List (Nat × α)} (h : m.Pairwise fun a b => a.1 < b.1) :
    (Memory.put k v m).Pairwise fun a b => a.1 < b.1 := by
  induction m with
  | nil => simp [Memory.put]
  | cons x m ih =>
    obtain ⟨hx, hm⟩ := List.pairwise_cons.mp h
    simp only [Memory.put]
    split
    · next hk =>
      refine List.pairwise_cons.mpr ⟨fun b hb => ?_, h⟩
      rcases List.mem_cons.mp hb with rfl | hb
      · exact hk
      · exact Nat.lt_trans hk (hx b hb)
    · split
      · next hk => subst hk; exact List.pairwise_cons.mpr ⟨hx, hm⟩
      · refine List.pairwise_cons.mpr ⟨fun b hb => ?_, ih hm⟩
        rcases Memory.mem_put hb with rfl | hb
        · show x.1 < k; omega
        · exact hx b hb

theorem Memory.pairwise_drop {k : Nat} {m : List (Nat × α)} (h : m.Pairwise fun a b => a.1 < b.1) :
    (Memory.drop k m).Pairwise fun a b => a.1 < b.1 := by
  induction m with
  | nil => exact h
  | cons x m ih =>
    obtain ⟨hx, hm⟩ := List.pairwise_cons.mp h
    simp only [Memory.drop]
    split
    · exact ih hm
    · exact List.pairwise_cons.mpr ⟨fun b hb => hx b (Memory.mem_drop hb), ih hm⟩

theorem Memory.wf_nil [DecidableEq α] (bg : Nat → α) : Memory.wf bg ([] : List (Nat × α)) := by
  refine ⟨List.Pairwise.nil, fun e h => ?_⟩
  simp at h

/-- A write keeps the canonical form. -/
theorem Memory.wf_write [DecidableEq α] {bg : Nat → α} {m : List (Nat × α)} (k : Nat) (v : α) (h : Memory.wf bg m) :
    Memory.wf bg (Memory.write bg m k v) := by
  unfold Memory.write
  split
  · exact ⟨Memory.pairwise_drop h.1, fun e he => h.2 e (Memory.mem_drop he)⟩
  · next hv =>
    refine ⟨Memory.pairwise_put h.1, fun e he => ?_⟩
    rcases Memory.mem_put he with rfl | he
    · exact hv
    · exact h.2 e he

/-- A fill keeps the canonical form. -/
theorem Memory.wf_fill [DecidableEq α] {bg : Nat → α} {m : List (Nat × α)} (k : Nat) (v : α) (n : Nat) (h : Memory.wf bg m) :
    Memory.wf bg (Memory.fill bg m k v n) := by
  induction n with
  | zero => exact h
  | succ n ih => exact Memory.wf_write _ _ ih

/-- What a fill leaves at every index. -/
theorem Memory.read_fill [DecidableEq α] (bg : Nat → α) (m : List (Nat × α)) (k j : Nat) (v : α) (n : Nat) :
    Memory.read bg (Memory.fill bg m k v n) j = if k ≤ j ∧ j < k + n then v else Memory.read bg m j := by
  induction n with
  | zero => simp only [Memory.fill]; split
            · omega
            · rfl
  | succ n ih => simp only [Memory.fill, Memory.read_write, ih]; (repeat' split) <;> first | rfl | omega

/-- An entry after a fill is a filled one or one that stood there. -/
theorem Memory.mem_fill [DecidableEq α] {bg : Nat → α} {m : List (Nat × α)} {k : Nat} {v : α} {n : Nat} {e : Nat × α}
    (h : e ∈ Memory.fill bg m k v n) : (∃ i, i < n ∧ e = (k + i, v)) ∨ e ∈ m := by
  induction n with
  | zero => exact Or.inr h
  | succ n ih =>
    rcases Memory.mem_write h with rfl | h
    · exact Or.inl ⟨n, Nat.lt_succ_self n, rfl⟩
    · exact (ih h).imp (fun ⟨i, hi, he⟩ => ⟨i, Nat.lt_succ_of_lt hi, he⟩) id

/-- An index before every listed one reads as unlisted. -/
theorem Memory.read_before (bg : Nat → α) {m : List (Nat × α)} {k : Nat} (h : ∀ e ∈ m, k < e.1) : Memory.read bg m k = bg k := by
  induction m with
  | nil => rfl
  | cons x m ih =>
    have hx := h x List.mem_cons_self
    simp only [Memory.read]
    split
    · omega
    · exact ih fun e he => h e (List.mem_cons_of_mem _ he)

/-- Canonical memories that read alike are equal. -/
theorem Memory.ext [DecidableEq α] {bg : Nat → α} {m n : List (Nat × α)} (hm : Memory.wf bg m) (hn : Memory.wf bg n)
    (h : ∀ k, Memory.read bg m k = Memory.read bg n k) : m = n := by
  induction m generalizing n with
  | nil =>
    cases n with
    | nil => rfl
    | cons y n =>
      have := h y.1
      simp only [Memory.read, if_true] at this
      exact absurd this.symm (hn.2 y List.mem_cons_self)
  | cons x m ih =>
    obtain ⟨hx, hm'⟩ := List.pairwise_cons.mp hm.1
    have rx : Memory.read bg (x :: m) x.1 = x.2 := by simp [Memory.read]
    cases n with
    | nil =>
      have := h x.1
      rw [rx, Memory.read_nil] at this
      exact absurd this (hm.2 x List.mem_cons_self)
    | cons y n =>
      obtain ⟨hy, hn'⟩ := List.pairwise_cons.mp hn.1
      have ry : Memory.read bg (y :: n) y.1 = y.2 := by simp [Memory.read]
      have key : x.1 = y.1 := by
        rcases Nat.lt_trichotomy x.1 y.1 with hlt | heq | hlt
        · have e1 := h x.1
          rw [rx, Memory.read_before bg (m := y :: n)] at e1
          · exact absurd e1 (hm.2 x List.mem_cons_self)
          · intro e he
            rcases List.mem_cons.mp he with rfl | he
            · exact hlt
            · exact Nat.lt_trans hlt (hy e he)
        · exact heq
        · have e1 := h y.1
          rw [ry, Memory.read_before bg (m := x :: m)] at e1
          · exact absurd e1.symm (hn.2 y List.mem_cons_self)
          · intro e he
            rcases List.mem_cons.mp he with rfl | he
            · exact hlt
            · exact Nat.lt_trans hlt (hx e he)
      have val : x.2 = y.2 := by rw [← rx, h x.1, key, ry]
      have hxy : x = y := Prod.ext key val
      subst hxy
      congr 1
      refine ih ⟨hm', fun e he => hm.2 e (List.mem_cons_of_mem _ he)⟩ ⟨hn', fun e he => hn.2 e (List.mem_cons_of_mem _ he)⟩ ?_
      intro k
      by_cases hk : x.1 = k
      · subst hk
        rw [Memory.read_before bg hx, Memory.read_before bg hy]
      · have := h k
        simpa [Memory.read, hk] using this

/-- Storing what stands there changes nothing. -/
theorem Memory.write_same [DecidableEq α] {bg : Nat → α} {m : List (Nat × α)} (hm : Memory.wf bg m) (k : Nat) :
    Memory.write bg m k (Memory.read bg m k) = m := by
  refine Memory.ext (Memory.wf_write _ _ hm) hm fun j => ?_
  rw [Memory.read_write]
  split
  · next h => rw [h]
  · rfl

/-- Two writes to different indices commute. -/
theorem Memory.write_comm [DecidableEq α] {bg : Nat → α} {m : List (Nat × α)} (hm : Memory.wf bg m) {j k : Nat} (h : j ≠ k)
    (v w : α) : Memory.write bg (Memory.write bg m j v) k w = Memory.write bg (Memory.write bg m k w) j v := by
  refine Memory.ext (Memory.wf_write _ _ (Memory.wf_write _ _ hm)) (Memory.wf_write _ _ (Memory.wf_write _ _ hm)) fun i => ?_
  simp only [Memory.read_write]
  (repeat' split) <;> first | rfl | omega

end Sys2Proof.Machine
end

