-- ==== Sys2Proof/Laws/State.lean ====
section
/-! SUPPORT. One lemma per field per update of State, so that no later proof unfolds a record update. -/

namespace Sys2Proof.Machine

@[simp] theorem State.setStatus_status (s : State) (v : Status) : (s.setStatus v).status = v := rfl
@[simp] theorem State.setStatus_cfg (s : State) (v : Status) : (s.setStatus v).cfg = s.cfg := rfl
@[simp] theorem State.setStatus_res0 (s : State) (v : Status) : (s.setStatus v).res0 = s.res0 := rfl
@[simp] theorem State.setStatus_res1 (s : State) (v : Status) : (s.setStatus v).res1 = s.res1 := rfl
@[simp] theorem State.setStatus_blk (s : State) (v : Status) : (s.setStatus v).blk = s.blk := rfl
@[simp] theorem State.setStatus_pt (s : State) (v : Status) : (s.setStatus v).pt = s.pt := rfl
@[simp] theorem State.setStatus_ct (s : State) (v : Status) : (s.setStatus v).ct = s.ct := rfl
@[simp] theorem State.setStatus_tc (s : State) (v : Status) : (s.setStatus v).tc = s.tc := rfl
@[simp] theorem State.setStatus_ac (s : State) (v : Status) : (s.setStatus v).ac = s.ac := rfl
@[simp] theorem State.setStatus_lc (s : State) (v : Status) : (s.setStatus v).lc = s.lc := rfl
@[simp] theorem State.setStatus_port (s : State) (v : Status) : (s.setStatus v).port = s.port := rfl
@[simp] theorem State.setStatus_bus (s : State) (v : Status) : (s.setStatus v).bus = s.bus := rfl

@[simp] theorem State.setCfg_status (s : State) (v : Cfg) : (s.setCfg v).status = s.status := rfl
@[simp] theorem State.setCfg_cfg (s : State) (v : Cfg) : (s.setCfg v).cfg = v := rfl
@[simp] theorem State.setCfg_res0 (s : State) (v : Cfg) : (s.setCfg v).res0 = s.res0 := rfl
@[simp] theorem State.setCfg_res1 (s : State) (v : Cfg) : (s.setCfg v).res1 = s.res1 := rfl
@[simp] theorem State.setCfg_blk (s : State) (v : Cfg) : (s.setCfg v).blk = s.blk := rfl
@[simp] theorem State.setCfg_pt (s : State) (v : Cfg) : (s.setCfg v).pt = s.pt := rfl
@[simp] theorem State.setCfg_ct (s : State) (v : Cfg) : (s.setCfg v).ct = s.ct := rfl
@[simp] theorem State.setCfg_tc (s : State) (v : Cfg) : (s.setCfg v).tc = s.tc := rfl
@[simp] theorem State.setCfg_ac (s : State) (v : Cfg) : (s.setCfg v).ac = s.ac := rfl
@[simp] theorem State.setCfg_lc (s : State) (v : Cfg) : (s.setCfg v).lc = s.lc := rfl
@[simp] theorem State.setCfg_port (s : State) (v : Cfg) : (s.setCfg v).port = s.port := rfl
@[simp] theorem State.setCfg_bus (s : State) (v : Cfg) : (s.setCfg v).bus = s.bus := rfl

@[simp] theorem State.setRes_status (s : State) (r0 r1 : Word) : (s.setRes r0 r1).status = s.status := rfl
@[simp] theorem State.setRes_cfg (s : State) (r0 r1 : Word) : (s.setRes r0 r1).cfg = s.cfg := rfl
@[simp] theorem State.setRes_res0 (s : State) (r0 r1 : Word) : (s.setRes r0 r1).res0 = r0 := rfl
@[simp] theorem State.setRes_res1 (s : State) (r0 r1 : Word) : (s.setRes r0 r1).res1 = r1 := rfl
@[simp] theorem State.setRes_blk (s : State) (r0 r1 : Word) : (s.setRes r0 r1).blk = s.blk := rfl
@[simp] theorem State.setRes_pt (s : State) (r0 r1 : Word) : (s.setRes r0 r1).pt = s.pt := rfl
@[simp] theorem State.setRes_ct (s : State) (r0 r1 : Word) : (s.setRes r0 r1).ct = s.ct := rfl
@[simp] theorem State.setRes_tc (s : State) (r0 r1 : Word) : (s.setRes r0 r1).tc = s.tc := rfl
@[simp] theorem State.setRes_ac (s : State) (r0 r1 : Word) : (s.setRes r0 r1).ac = s.ac := rfl
@[simp] theorem State.setRes_lc (s : State) (r0 r1 : Word) : (s.setRes r0 r1).lc = s.lc := rfl
@[simp] theorem State.setRes_port (s : State) (r0 r1 : Word) : (s.setRes r0 r1).port = s.port := rfl
@[simp] theorem State.setRes_bus (s : State) (r0 r1 : Word) : (s.setRes r0 r1).bus = s.bus := rfl

@[simp] theorem State.setBlk_status (s : State) (v : Blk) : (s.setBlk v).status = s.status := rfl
@[simp] theorem State.setBlk_cfg (s : State) (v : Blk) : (s.setBlk v).cfg = s.cfg := rfl
@[simp] theorem State.setBlk_res0 (s : State) (v : Blk) : (s.setBlk v).res0 = s.res0 := rfl
@[simp] theorem State.setBlk_res1 (s : State) (v : Blk) : (s.setBlk v).res1 = s.res1 := rfl
@[simp] theorem State.setBlk_blk (s : State) (v : Blk) : (s.setBlk v).blk = v := rfl
@[simp] theorem State.setBlk_pt (s : State) (v : Blk) : (s.setBlk v).pt = s.pt := rfl
@[simp] theorem State.setBlk_ct (s : State) (v : Blk) : (s.setBlk v).ct = s.ct := rfl
@[simp] theorem State.setBlk_tc (s : State) (v : Blk) : (s.setBlk v).tc = s.tc := rfl
@[simp] theorem State.setBlk_ac (s : State) (v : Blk) : (s.setBlk v).ac = s.ac := rfl
@[simp] theorem State.setBlk_lc (s : State) (v : Blk) : (s.setBlk v).lc = s.lc := rfl
@[simp] theorem State.setBlk_port (s : State) (v : Blk) : (s.setBlk v).port = s.port := rfl
@[simp] theorem State.setBlk_bus (s : State) (v : Blk) : (s.setBlk v).bus = s.bus := rfl

@[simp] theorem State.setPt_status (s : State) (m : List Host.Cell) : (s.setPt m).status = s.status := rfl
@[simp] theorem State.setPt_cfg (s : State) (m : List Host.Cell) : (s.setPt m).cfg = s.cfg := rfl
@[simp] theorem State.setPt_res0 (s : State) (m : List Host.Cell) : (s.setPt m).res0 = s.res0 := rfl
@[simp] theorem State.setPt_res1 (s : State) (m : List Host.Cell) : (s.setPt m).res1 = s.res1 := rfl
@[simp] theorem State.setPt_blk (s : State) (m : List Host.Cell) : (s.setPt m).blk = s.blk := rfl
@[simp] theorem State.setPt_pt (s : State) (m : List Host.Cell) : (s.setPt m).pt = m := rfl
@[simp] theorem State.setPt_ct (s : State) (m : List Host.Cell) : (s.setPt m).ct = s.ct := rfl
@[simp] theorem State.setPt_tc (s : State) (m : List Host.Cell) : (s.setPt m).tc = s.tc := rfl
@[simp] theorem State.setPt_ac (s : State) (m : List Host.Cell) : (s.setPt m).ac = s.ac := rfl
@[simp] theorem State.setPt_lc (s : State) (m : List Host.Cell) : (s.setPt m).lc = s.lc := rfl
@[simp] theorem State.setPt_port (s : State) (m : List Host.Cell) : (s.setPt m).port = s.port := rfl
@[simp] theorem State.setPt_bus (s : State) (m : List Host.Cell) : (s.setPt m).bus = s.bus := rfl

@[simp] theorem State.setCt_status (s : State) (m : List (Nat × Count)) : (s.setCt m).status = s.status := rfl
@[simp] theorem State.setCt_cfg (s : State) (m : List (Nat × Count)) : (s.setCt m).cfg = s.cfg := rfl
@[simp] theorem State.setCt_res0 (s : State) (m : List (Nat × Count)) : (s.setCt m).res0 = s.res0 := rfl
@[simp] theorem State.setCt_res1 (s : State) (m : List (Nat × Count)) : (s.setCt m).res1 = s.res1 := rfl
@[simp] theorem State.setCt_blk (s : State) (m : List (Nat × Count)) : (s.setCt m).blk = s.blk := rfl
@[simp] theorem State.setCt_pt (s : State) (m : List (Nat × Count)) : (s.setCt m).pt = s.pt := rfl
@[simp] theorem State.setCt_ct (s : State) (m : List (Nat × Count)) : (s.setCt m).ct = m := rfl
@[simp] theorem State.setCt_tc (s : State) (m : List (Nat × Count)) : (s.setCt m).tc = s.tc := rfl
@[simp] theorem State.setCt_ac (s : State) (m : List (Nat × Count)) : (s.setCt m).ac = s.ac := rfl
@[simp] theorem State.setCt_lc (s : State) (m : List (Nat × Count)) : (s.setCt m).lc = s.lc := rfl
@[simp] theorem State.setCt_port (s : State) (m : List (Nat × Count)) : (s.setCt m).port = s.port := rfl
@[simp] theorem State.setCt_bus (s : State) (m : List (Nat × Count)) : (s.setCt m).bus = s.bus := rfl

@[simp] theorem State.setTc_status (s : State) (m : List (Nat × MagClass)) : (s.setTc m).status = s.status := rfl
@[simp] theorem State.setTc_cfg (s : State) (m : List (Nat × MagClass)) : (s.setTc m).cfg = s.cfg := rfl
@[simp] theorem State.setTc_res0 (s : State) (m : List (Nat × MagClass)) : (s.setTc m).res0 = s.res0 := rfl
@[simp] theorem State.setTc_res1 (s : State) (m : List (Nat × MagClass)) : (s.setTc m).res1 = s.res1 := rfl
@[simp] theorem State.setTc_blk (s : State) (m : List (Nat × MagClass)) : (s.setTc m).blk = s.blk := rfl
@[simp] theorem State.setTc_pt (s : State) (m : List (Nat × MagClass)) : (s.setTc m).pt = s.pt := rfl
@[simp] theorem State.setTc_ct (s : State) (m : List (Nat × MagClass)) : (s.setTc m).ct = s.ct := rfl
@[simp] theorem State.setTc_tc (s : State) (m : List (Nat × MagClass)) : (s.setTc m).tc = m := rfl
@[simp] theorem State.setTc_ac (s : State) (m : List (Nat × MagClass)) : (s.setTc m).ac = s.ac := rfl
@[simp] theorem State.setTc_lc (s : State) (m : List (Nat × MagClass)) : (s.setTc m).lc = s.lc := rfl
@[simp] theorem State.setTc_port (s : State) (m : List (Nat × MagClass)) : (s.setTc m).port = s.port := rfl
@[simp] theorem State.setTc_bus (s : State) (m : List (Nat × MagClass)) : (s.setTc m).bus = s.bus := rfl

@[simp] theorem State.setAc_status (s : State) (m : List (Nat × Bool)) : (s.setAc m).status = s.status := rfl
@[simp] theorem State.setAc_cfg (s : State) (m : List (Nat × Bool)) : (s.setAc m).cfg = s.cfg := rfl
@[simp] theorem State.setAc_res0 (s : State) (m : List (Nat × Bool)) : (s.setAc m).res0 = s.res0 := rfl
@[simp] theorem State.setAc_res1 (s : State) (m : List (Nat × Bool)) : (s.setAc m).res1 = s.res1 := rfl
@[simp] theorem State.setAc_blk (s : State) (m : List (Nat × Bool)) : (s.setAc m).blk = s.blk := rfl
@[simp] theorem State.setAc_pt (s : State) (m : List (Nat × Bool)) : (s.setAc m).pt = s.pt := rfl
@[simp] theorem State.setAc_ct (s : State) (m : List (Nat × Bool)) : (s.setAc m).ct = s.ct := rfl
@[simp] theorem State.setAc_tc (s : State) (m : List (Nat × Bool)) : (s.setAc m).tc = s.tc := rfl
@[simp] theorem State.setAc_ac (s : State) (m : List (Nat × Bool)) : (s.setAc m).ac = m := rfl
@[simp] theorem State.setAc_lc (s : State) (m : List (Nat × Bool)) : (s.setAc m).lc = s.lc := rfl
@[simp] theorem State.setAc_port (s : State) (m : List (Nat × Bool)) : (s.setAc m).port = s.port := rfl
@[simp] theorem State.setAc_bus (s : State) (m : List (Nat × Bool)) : (s.setAc m).bus = s.bus := rfl

@[simp] theorem State.setLc_status (s : State) (m : List (Nat × Bool)) : (s.setLc m).status = s.status := rfl
@[simp] theorem State.setLc_cfg (s : State) (m : List (Nat × Bool)) : (s.setLc m).cfg = s.cfg := rfl
@[simp] theorem State.setLc_res0 (s : State) (m : List (Nat × Bool)) : (s.setLc m).res0 = s.res0 := rfl
@[simp] theorem State.setLc_res1 (s : State) (m : List (Nat × Bool)) : (s.setLc m).res1 = s.res1 := rfl
@[simp] theorem State.setLc_blk (s : State) (m : List (Nat × Bool)) : (s.setLc m).blk = s.blk := rfl
@[simp] theorem State.setLc_pt (s : State) (m : List (Nat × Bool)) : (s.setLc m).pt = s.pt := rfl
@[simp] theorem State.setLc_ct (s : State) (m : List (Nat × Bool)) : (s.setLc m).ct = s.ct := rfl
@[simp] theorem State.setLc_tc (s : State) (m : List (Nat × Bool)) : (s.setLc m).tc = s.tc := rfl
@[simp] theorem State.setLc_ac (s : State) (m : List (Nat × Bool)) : (s.setLc m).ac = s.ac := rfl
@[simp] theorem State.setLc_lc (s : State) (m : List (Nat × Bool)) : (s.setLc m).lc = m := rfl
@[simp] theorem State.setLc_port (s : State) (m : List (Nat × Bool)) : (s.setLc m).port = s.port := rfl
@[simp] theorem State.setLc_bus (s : State) (m : List (Nat × Bool)) : (s.setLc m).bus = s.bus := rfl

@[simp] theorem State.setPort_status (s : State) (p : BitPort) : (s.setPort p).status = s.status := rfl
@[simp] theorem State.setPort_cfg (s : State) (p : BitPort) : (s.setPort p).cfg = s.cfg := rfl
@[simp] theorem State.setPort_res0 (s : State) (p : BitPort) : (s.setPort p).res0 = s.res0 := rfl
@[simp] theorem State.setPort_res1 (s : State) (p : BitPort) : (s.setPort p).res1 = s.res1 := rfl
@[simp] theorem State.setPort_blk (s : State) (p : BitPort) : (s.setPort p).blk = s.blk := rfl
@[simp] theorem State.setPort_pt (s : State) (p : BitPort) : (s.setPort p).pt = s.pt := rfl
@[simp] theorem State.setPort_ct (s : State) (p : BitPort) : (s.setPort p).ct = s.ct := rfl
@[simp] theorem State.setPort_tc (s : State) (p : BitPort) : (s.setPort p).tc = s.tc := rfl
@[simp] theorem State.setPort_ac (s : State) (p : BitPort) : (s.setPort p).ac = s.ac := rfl
@[simp] theorem State.setPort_lc (s : State) (p : BitPort) : (s.setPort p).lc = s.lc := rfl
@[simp] theorem State.setPort_port (s : State) (p : BitPort) : (s.setPort p).port = p := rfl
@[simp] theorem State.setPort_bus (s : State) (p : BitPort) : (s.setPort p).bus = s.bus := rfl

@[simp] theorem State.setBus_status (s : State) (b : HostBus) : (s.setBus b).status = s.status := rfl
@[simp] theorem State.setBus_cfg (s : State) (b : HostBus) : (s.setBus b).cfg = s.cfg := rfl
@[simp] theorem State.setBus_res0 (s : State) (b : HostBus) : (s.setBus b).res0 = s.res0 := rfl
@[simp] theorem State.setBus_res1 (s : State) (b : HostBus) : (s.setBus b).res1 = s.res1 := rfl
@[simp] theorem State.setBus_blk (s : State) (b : HostBus) : (s.setBus b).blk = s.blk := rfl
@[simp] theorem State.setBus_pt (s : State) (b : HostBus) : (s.setBus b).pt = s.pt := rfl
@[simp] theorem State.setBus_ct (s : State) (b : HostBus) : (s.setBus b).ct = s.ct := rfl
@[simp] theorem State.setBus_tc (s : State) (b : HostBus) : (s.setBus b).tc = s.tc := rfl
@[simp] theorem State.setBus_ac (s : State) (b : HostBus) : (s.setBus b).ac = s.ac := rfl
@[simp] theorem State.setBus_lc (s : State) (b : HostBus) : (s.setBus b).lc = s.lc := rfl
@[simp] theorem State.setBus_port (s : State) (b : HostBus) : (s.setBus b).port = s.port := rfl
@[simp] theorem State.setBus_bus (s : State) (b : HostBus) : (s.setBus b).bus = b := rfl

/-! Reset, field by field (R116). -/

@[simp] theorem State.reset_status : State.reset.status = Status.clear := rfl
@[simp] theorem State.reset_cfg : State.reset.cfg = Cfg.afterReset := rfl
@[simp] theorem State.reset_res0 : State.reset.res0 = 0#64 := rfl
@[simp] theorem State.reset_res1 : State.reset.res1 = 0#64 := rfl
@[simp] theorem State.reset_blk : State.reset.blk = Blk.clear := rfl
@[simp] theorem State.reset_pt : State.reset.pt = [] := rfl
@[simp] theorem State.reset_ct : State.reset.ct = [] := rfl
@[simp] theorem State.reset_tc : State.reset.tc = [] := rfl
@[simp] theorem State.reset_ac : State.reset.ac = [] := rfl
@[simp] theorem State.reset_lc : State.reset.lc = [] := rfl

end Sys2Proof.Machine
end

