-- ==== Sys2Proof/Laws/Ops.lean ====
section
/-! SUPPORT. One lemma for each shared operation: the accessors of the memories, the errors, the result layouts, the window. -/

namespace Sys2Proof.Machine

/-! The memories' accessors: what a write leaves at every index, and that it keeps the canonical form. -/

theorem readPt_writePt (P : Params) (s : State) (i j : Nat) (v : Byte) :
    readPt P (writePt P s i v) j = if j = i then v else readPt P s j := Memory.read_write ..

theorem countKey_inj {i j : Nat} {a b : Bool} (h : countKey i a = countKey j b) : i = j ∧ a = b := by
  revert h; cases a <;> cases b <;> simp [countKey, codeOfBool] <;> omega

theorem readCt_writeCt (s : State) (i j : Nat) (a b : Bool) (v : Count) :
    readCt (writeCt s i a v) j b = if j = i ∧ b = a then v else readCt s j b := by
  unfold readCt writeCt
  rw [State.setCt_ct, Memory.read_write]
  by_cases h : countKey j b = countKey i a
  · rw [if_pos h, if_pos (countKey_inj h)]
  · rw [if_neg h, if_neg]
    rintro ⟨rfl, rfl⟩; exact h rfl

theorem readTc_writeTc (s : State) (c d : Nat) (v : MagClass) :
    readTc (writeTc s c v) d = if d = c then v else readTc s d := Memory.read_write ..

theorem wf_writePt {P : Params} {s : State} (i : Nat) (v : Byte) (h : Memory.wf P.defaultPt s.pt) :
    Memory.wf P.defaultPt (writePt P s i v).pt := Memory.wf_write _ _ h

theorem wf_writeCt {s : State} (i : Nat) (b : Bool) (v : Count) (h : Memory.wf ctReset s.ct) :
    Memory.wf ctReset (writeCt s i b v).ct := Memory.wf_write _ _ h

theorem wf_writeTc {s : State} (c : Nat) (v : MagClass) (h : Memory.wf tcReset s.tc) :
    Memory.wf tcReset (writeTc s c v).tc := Memory.wf_write _ _ h

theorem wf_fillEdges {s : State} (plane col row len : Nat) (v : Bool) (ha : Memory.wf edgeReset s.ac) (hl : Memory.wf edgeReset s.lc) :
    Memory.wf edgeReset (fillEdges s plane col row len v).ac ∧ Memory.wf edgeReset (fillEdges s plane col row len v).lc :=
  ⟨Memory.wf_fill _ _ _ ha, Memory.wf_fill _ _ _ hl⟩

theorem edgeKey_inj {p q k j : Nat} (hk : k < 65536) (hj : j < 65536) (h : edgeKey p k = edgeKey q j) : p = q ∧ k = j := by
  unfold edgeKey at h; omega

/-- The entries a fill of one edge array covers. -/
theorem read_fillEdge (m : List (Nat × Bool)) (plane col len p k : Nat) (v : Bool) (hc : col + len ≤ 65536) (hk : k < 65536) :
    Memory.read edgeReset (Memory.fill edgeReset m (edgeKey plane col) v len) (edgeKey p k) =
      if p = plane ∧ col ≤ k ∧ k < col + len then v else Memory.read edgeReset m (edgeKey p k) := by
  rw [Memory.read_fill]
  by_cases h : edgeKey plane col ≤ edgeKey p k ∧ edgeKey p k < edgeKey plane col + len
  · rw [if_pos h, if_pos]; unfold edgeKey at h; omega
  · rw [if_neg h, if_neg]; unfold edgeKey at h; omega

theorem readAc_fillEdges (s : State) (plane col row len p k : Nat) (v : Bool) (hc : col + len ≤ 65536) (hk : k < 65536) :
    readAc (fillEdges s plane col row len v) p k = if p = plane ∧ col ≤ k ∧ k < col + len then v else readAc s p k :=
  read_fillEdge _ _ _ _ _ _ _ hc hk

theorem readLc_fillEdges (s : State) (plane col row len p k : Nat) (v : Bool) (hr : row + len ≤ 65536) (hk : k < 65536) :
    readLc (fillEdges s plane col row len v) p k = if p = plane ∧ row ≤ k ∧ k < row + len then v else readLc s p k :=
  read_fillEdge _ _ _ _ _ _ _ hr hk

/-! Errors. -/

theorem raiseError_eq (e : Error) (opc : Byte) (s : State) : raiseError e opc s = .next (s.setStatus (Status.ofError e opc)) := rfl

/-- An error changes `STATUS` and nothing else. -/
theorem raiseError_next {e : Error} {opc : Byte} {s t : State} (h : raiseError e opc s = .next t) :
    t = s.setStatus (Status.ofError e opc) := by cases h; rfl

@[simp] theorem ofError_err (e : Error) (opc : Byte) : (Status.ofError e opc).err = true := rfl
@[simp] theorem ofError_opc (e : Error) (opc : Byte) : (Status.ofError e opc).opc = opc := rfl
@[simp] theorem ofError_code (e : Error) (opc : Byte) : (Status.ofError e opc).code = e.code := rfl
@[simp] theorem ofError_corrupt (e : Error) (opc : Byte) : (Status.ofError e opc).corrupt = e.corrupt := rfl

theorem code_injective {e f : Error} (h : e.code = f.code) : e = f := by
  revert h; cases e <;> cases f <;> decide

theorem ignoresWord_of_running {s : State} (w : Word) (h : s.status.err = false) : ignoresWord s w = false := by
  simp [ignoresWord, h]

theorem ignoresWord_clearErr (s : State) : ignoresWord s 1#64 = false := by simp [ignoresWord]

theorem ignoresWord_of_halted {s : State} {w : Word} (h : s.status.err = true) (hw : w ≠ 1#64) : ignoresWord s w = true := by
  simp [ignoresWord, h, hw]

/-! Result layouts: each field at its bits. -/

theorem lowLanes_lane (v : Nat → Byte) (n : Nat) (h : n < 8) : (lowLanes v).extractLsb' (8 * n) 8 = v n := by
  apply BitVec.eq_of_getLsbD_eq
  intro i hi
  have : n = 0 ∨ n = 1 ∨ n = 2 ∨ n = 3 ∨ n = 4 ∨ n = 5 ∨ n = 6 ∨ n = 7 := by omega
  rcases this with rfl | rfl | rfl | rfl | rfl | rfl | rfl | rfl <;>
    simp only [lowLanes, BitVec.getLsbD_extractLsb', BitVec.getLsbD_append, hi, decide_true, Bool.true_and] <;> (repeat' split) <;>
    first | omega | (congr 1; omega)

theorem highLanes_lane (v : Nat → Byte) (n : Nat) (h : n < 3) : (highLanes v).extractLsb' (8 * n) 8 = v (8 + n) := by
  apply BitVec.eq_of_getLsbD_eq
  intro i hi
  have : n = 0 ∨ n = 1 ∨ n = 2 := by omega
  rcases this with rfl | rfl | rfl <;>
    simp only [highLanes, BitVec.getLsbD_extractLsb', BitVec.getLsbD_append, hi, decide_true, Bool.true_and] <;> (repeat' split) <;>
    first | omega | (congr 1; omega)

/-- A field of a word made narrower than the word. -/
theorem extract_setWidth {a : Nat} (x : BitVec a) (lo n : Nat) (ha : a ≤ 64) :
    (x.setWidth 64).extractLsb' lo n = x.extractLsb' lo n := by
  apply BitVec.eq_of_getLsbD_eq
  intro i hi
  simp only [BitVec.getLsbD_extractLsb', BitVec.getLsbD_setWidth, hi, decide_true, Bool.true_and]
  by_cases h : lo + i < 64
  · simp [h]
  · simp [h]
    rw [BitVec.getLsbD_of_ge]
    omega

theorem posField_toNat {p : Nat} (h : p < 1024) : ((posField p).extractLsb' 24 10).toNat = p := by
  simp [posField, Nat.shiftRight_eq_div_pow, Nat.shiftLeft_eq]
  omega

theorem bandField_toNat {b : Nat} (h : b < 8) : ((bandField b).extractLsb' 34 3).toNat = b := by
  simp [bandField, Nat.shiftRight_eq_div_pow, Nat.shiftLeft_eq]
  omega

theorem ctxField_toNat {x : Nat} (h : x < 8) : ((ctxField x).extractLsb' 37 3).toNat = x := by
  simp [ctxField, Nat.shiftRight_eq_div_pow, Nat.shiftLeft_eq]
  omega

/-! The window. -/

theorem accessSpecified_iff (offset : Fin 64) (bytes : Nat) :
    accessSpecified offset bytes = true ↔ offset.val % 8 = 0 ∧ bytes = 8 := by simp [accessSpecified]

/-- The window holds the host addresses from `WINDOW_BASE` on, 64 of them. -/
theorem windowOffset_some {P : Params} {addr : Nat} {o : Fin 64} (h : windowOffset P addr = some o) : addr = P.windowBase + o.val := by
  unfold windowOffset at h
  split at h
  · next hb => cases h; show addr = P.windowBase + (addr - P.windowBase); omega
  · cases h

@[simp] theorem platformReset_port (s : State) : (platformReset s).port = s.port := rfl
@[simp] theorem platformReset_bus (s : State) : (platformReset s).bus = s.bus := rfl

end Sys2Proof.Machine
end

