-- ==== Sys2Proof/Laws/BitSource.lean ====
section
/-! SUPPORT. The bit-source port: one request, sequences of requests, and what a sequence takes from the answers. -/

namespace Sys2Proof.Machine

variable {α β : Type}

@[simp] theorem BitResult.andThen_ok (a : α) (port : BitPort) (f : α → BitPort → BitResult β) :
    (BitResult.ok a port).andThen f = f a port := rfl
@[simp] theorem BitResult.andThen_underrun (port : BitPort) (f : α → BitPort → BitResult β) :
    (BitResult.underrun port : BitResult α).andThen f = .underrun port := rfl
@[simp] theorem BitResult.andThen_silent (port : BitPort) (f : α → BitPort → BitResult β) :
    (BitResult.silent port : BitResult α).andThen f = .silent port := rfl

@[simp] theorem readBool_valid (p : Byte) (b : Bool) (rest : List BitAnswer) (q : List Byte) :
    readBool p { answers := { bit := b, valid := true } :: rest, requests := q } = .ok b { answers := rest, requests := p :: q } := rfl

@[simp] theorem readBool_invalid (p : Byte) (b : Bool) (rest : List BitAnswer) (q : List Byte) :
    readBool p { answers := { bit := b, valid := false } :: rest, requests := q } =
      .underrun { answers := rest, requests := p :: q } := rfl

@[simp] theorem readBool_silent (p : Byte) (q : List Byte) :
    readBool p { answers := [], requests := q } = .silent { answers := [], requests := p :: q } := rfl

/-- What a sequence of requests can do to the port: it takes answers from the front, one for each request it made, and the request
that a silent source left open is listed too. -/
def BitResult.Takes (r : BitResult α) (port : BitPort) : Prop :=
  match r with
  | .ok _ q => ∃ k asked, asked.length = k ∧ k ≤ port.answers.length ∧ (∀ a ∈ port.answers.take k, a.valid = true) ∧
      q = { answers := port.answers.drop k, requests := asked ++ port.requests }
  | .underrun q => ∃ k asked a, asked.length = k + 1 ∧ (∀ a ∈ port.answers.take k, a.valid = true) ∧ port.answers[k]? = some a ∧
      a.valid = false ∧ q = { answers := port.answers.drop (k + 1), requests := asked ++ port.requests }
  | .silent q => ∃ asked, asked.length = port.answers.length + 1 ∧ (∀ a ∈ port.answers, a.valid = true) ∧
      q = { answers := [], requests := asked ++ port.requests }

theorem takes_ok (a : α) (port : BitPort) : (BitResult.ok a port).Takes port :=
  ⟨0, [], rfl, Nat.zero_le _, by simp, rfl⟩

theorem readBool_takes (p : Byte) (port : BitPort) : (readBool p port).Takes port := by
  obtain ⟨answers, requests⟩ := port
  cases answers with
  | nil => exact ⟨[p], rfl, by simp, rfl⟩
  | cons a rest =>
    obtain ⟨b, v⟩ := a
    cases v with
    | true => exact ⟨1, [p], rfl, by simp, by simp, rfl⟩
    | false => exact ⟨0, [p], ⟨b, false⟩, rfl, by simp, rfl, rfl, rfl⟩

theorem andThen_takes {r : BitResult α} {f : α → BitPort → BitResult β} {port : BitPort}
    (hr : r.Takes port) (hf : ∀ a q, (f a q).Takes q) : (r.andThen f).Takes port := by
  cases r with
  | underrun q => exact hr
  | silent q => exact hr
  | ok a q =>
    obtain ⟨k, asked, hk, hle, hv, rfl⟩ := hr
    have h := hf a { answers := port.answers.drop k, requests := asked ++ port.requests }
    rw [BitResult.andThen_ok]
    have split : ∀ j, port.answers.take (k + j) = port.answers.take k ++ (port.answers.drop k).take j := fun j => List.take_add
    have both : ∀ j, (∀ a ∈ (port.answers.drop k).take j, a.valid = true) → ∀ a ∈ port.answers.take (k + j), a.valid = true := by
      intro j hj a ha
      rw [split] at ha
      rcases List.mem_append.mp ha with ha | ha
      · exact hv a ha
      · exact hj a ha
    generalize f a _ = r at h ⊢
    cases r with
    | ok b q' =>
      obtain ⟨j, asked', hj, hle', hv', rfl⟩ := h
      refine ⟨k + j, asked' ++ asked, by simp [hk, hj, Nat.add_comm], ?_, both j hv', ?_⟩
      · simp at hle'; omega
      · simp [List.drop_drop]
    | underrun q' =>
      obtain ⟨j, asked', x, hj, hv', hx, hxv, rfl⟩ := h
      refine ⟨k + j, asked' ++ asked, x, by simp [hk, hj]; omega, both j hv', ?_, hxv, ?_⟩
      · rw [← hx]; simp
      · simp [List.drop_drop, Nat.add_assoc]
    | silent q' =>
      obtain ⟨asked', hj, hv', rfl⟩ := h
      refine ⟨asked' ++ asked, ?_, ?_, by simp⟩
      · simp [hk, hj]; omega
      · intro a ha
        rw [← List.take_append_drop k port.answers] at ha
        rcases List.mem_append.mp ha with ha | ha
        · exact hv a ha
        · exact hv' a ha

theorem readLitOnto_takes (n v : Nat) (port : BitPort) : (readLitOnto n v port).Takes port := by
  induction n generalizing v port with
  | zero => exact takes_ok _ _
  | succ n ih => exact andThen_takes (readBool_takes _ _) fun _ _ => ih _ _

theorem decodeUniform_takes (n : Nat) (port : BitPort) : (decodeUniform n port).Takes port := by
  unfold decodeUniform
  split
  · exact takes_ok _ _
  · refine andThen_takes (readLitOnto_takes _ _ _) fun v q => ?_
    split
    · exact takes_ok _ _
    · exact andThen_takes (readBool_takes _ _) fun _ _ => takes_ok _ _

theorem subexpLoop_takes (turns i mk : Nat) (port : BitPort) : (subexpLoop turns i mk port).Takes port := by
  induction turns generalizing i mk port with
  | zero => exact andThen_takes (decodeUniform_takes _ _) fun _ _ => takes_ok _ _
  | succ turns ih =>
    unfold subexpLoop
    split
    · exact andThen_takes (decodeUniform_takes _ _) fun _ _ => takes_ok _ _
    · refine andThen_takes (readBool_takes _ _) fun more q => ?_
      cases more with
      | true => exact ih _ _ _
      | false => exact andThen_takes (readLitOnto_takes _ _ _) fun _ _ => takes_ok _ _

theorem diffUpdate_takes (p : Byte) (port : BitPort) : (diffUpdate p port).Takes port := by
  refine andThen_takes (readBool_takes _ _) fun flag q => ?_
  cases flag with
  | true => exact andThen_takes (subexpLoop_takes _ _ _ _) fun _ _ => takes_ok _ _
  | false => exact takes_ok _ _

/-- The answers after a sequence of requests are the last of those before it. -/
theorem Takes.answers {r : BitResult α} {port : BitPort} (h : r.Takes port) : ∃ k, r.port.answers = port.answers.drop k := by
  cases r with
  | ok a q => obtain ⟨k, _, _, _, _, rfl⟩ := h; exact ⟨k, rfl⟩
  | underrun q => obtain ⟨k, _, _, _, _, _, _, rfl⟩ := h; exact ⟨k + 1, rfl⟩
  | silent q => obtain ⟨_, _, _, rfl⟩ := h; exact ⟨port.answers.length, by simp [BitResult.port]⟩

/-- The requests a sequence makes do not depend on those made before it. -/
def BitResult.withRequests (r : BitResult α) (q : List Byte) : BitResult α :=
  match r with
  | .ok a port => .ok a { port with requests := port.requests ++ q }
  | .underrun port => .underrun { port with requests := port.requests ++ q }
  | .silent port => .silent { port with requests := port.requests ++ q }

def SameRequests (f : BitPort → BitResult α) : Prop :=
  ∀ answers requests q, f { answers := answers, requests := requests ++ q } =
    (f { answers := answers, requests := requests }).withRequests q

theorem sameRequests_ok (a : α) : SameRequests (BitResult.ok a) := fun _ _ _ => rfl

theorem sameRequests_readBool (p : Byte) : SameRequests (readBool p) := by
  intro answers requests q
  cases answers with
  | nil => rfl
  | cons a rest => obtain ⟨b, v⟩ := a; cases v <;> rfl

theorem sameRequests_andThen {f : BitPort → BitResult α} {g : α → BitPort → BitResult β}
    (hf : SameRequests f) (hg : ∀ a, SameRequests (g a)) : SameRequests fun port => (f port).andThen g := by
  intro answers requests q
  show (f _).andThen g = ((f _).andThen g).withRequests q
  rw [hf answers requests q]
  cases f { answers := answers, requests := requests } with
  | ok a port => exact hg a port.answers port.requests q
  | underrun port => rfl
  | silent port => rfl

theorem sameRequests_readLitOnto (n v : Nat) : SameRequests (readLitOnto n v) := by
  induction n generalizing v with
  | zero => exact sameRequests_ok v
  | succ n ih => exact sameRequests_andThen (sameRequests_readBool _) fun _ => ih _

theorem sameRequests_decodeUniform (n : Nat) : SameRequests (decodeUniform n) := by
  unfold decodeUniform
  split
  · exact sameRequests_ok 0
  · refine sameRequests_andThen (sameRequests_readLitOnto _ _) fun v => ?_
    split
    · exact sameRequests_ok v
    · exact sameRequests_andThen (sameRequests_readBool _) fun _ => sameRequests_ok _

theorem sameRequests_subexpLoop (turns i mk : Nat) : SameRequests (subexpLoop turns i mk) := by
  induction turns generalizing i mk with
  | zero => exact sameRequests_andThen (sameRequests_decodeUniform _) fun _ => sameRequests_ok _
  | succ turns ih =>
    intro answers requests q
    simp only [subexpLoop]
    split
    · exact sameRequests_andThen (sameRequests_decodeUniform _) (fun _ => sameRequests_ok _) answers requests q
    · refine sameRequests_andThen (sameRequests_readBool _) (fun more => ?_) answers requests q
      cases more with
      | true => exact ih _ _
      | false => exact sameRequests_andThen (sameRequests_readLitOnto _ _) fun _ => sameRequests_ok _

theorem sameRequests_diffUpdate (p : Byte) : SameRequests (diffUpdate p) := by
  refine sameRequests_andThen (sameRequests_readBool _) fun flag => ?_
  cases flag with
  | true => exact sameRequests_andThen (sameRequests_subexpLoop _ _ _) fun _ => sameRequests_ok _
  | false => exact sameRequests_ok _

/-- What more answers behind those a sequence of requests had can change: a sequence that ended ends the same and leaves them, and one
that was left without an answer ends in an underrun where the next answer is the end of the bits. -/
def Extends (f : BitPort → BitResult α) : Prop :=
  ∀ answers requests more,
    match f { answers := answers, requests := requests } with
    | .ok a q => f { answers := answers ++ more, requests := requests } = .ok a { q with answers := q.answers ++ more }
    | .underrun q => f { answers := answers ++ more, requests := requests } = .underrun { q with answers := q.answers ++ more }
    | .silent q => ∀ b, f { answers := answers ++ { bit := b, valid := false } :: more, requests := requests } =
        .underrun { q with answers := more }

theorem extends_ok (a : α) : Extends (BitResult.ok a) := fun _ _ _ => rfl

theorem extends_readBool (p : Byte) : Extends (readBool p) := by
  intro answers requests more
  cases answers with
  | nil => exact fun _ => rfl
  | cons a rest => obtain ⟨b, v⟩ := a; cases v <;> rfl

theorem extends_andThen {f : BitPort → BitResult α} {g : α → BitPort → BitResult β}
    (hf : Extends f) (hg : ∀ a, Extends (g a)) : Extends fun port => (f port).andThen g := by
  intro answers requests more
  have h := fun more => hf answers requests more
  dsimp only
  generalize f { answers := answers, requests := requests } = r at h
  cases r with
  | underrun q => simp [h more]
  | silent q => intro b; simp [h more b]
  | ok a q =>
    simp only [BitResult.andThen_ok, h]
    have hq := hg a q.answers q.requests more
    generalize g a q = r' at hq ⊢
    cases r' with
    | ok b q' => exact hq
    | underrun q' => exact hq
    | silent q' => exact hq

theorem extends_readLitOnto (n v : Nat) : Extends (readLitOnto n v) := by
  induction n generalizing v with
  | zero => exact extends_ok v
  | succ n ih => exact extends_andThen (extends_readBool _) fun _ => ih _

theorem extends_decodeUniform (n : Nat) : Extends (decodeUniform n) := by
  unfold decodeUniform
  split
  · exact extends_ok 0
  · refine extends_andThen (extends_readLitOnto _ _) fun v => ?_
    split
    · exact extends_ok v
    · exact extends_andThen (extends_readBool _) fun _ => extends_ok _

theorem extends_subexpLoop (turns i mk : Nat) : Extends (subexpLoop turns i mk) := by
  induction turns generalizing i mk with
  | zero => exact extends_andThen (extends_decodeUniform _) fun _ => extends_ok _
  | succ turns ih =>
    intro answers requests more
    simp only [subexpLoop]
    by_cases h : 255 ≤ mk + 3 * 2 ^ subexpBits i
    · simp only [if_pos h]
      exact extends_andThen (extends_decodeUniform _) (fun _ => extends_ok _) answers requests more
    · simp only [if_neg h]
      refine extends_andThen (extends_readBool _) (fun go => ?_) answers requests more
      cases go with
      | true => exact ih _ _
      | false => exact extends_andThen (extends_readLitOnto _ _) fun _ => extends_ok _

theorem extends_diffUpdate (p : Byte) : Extends (diffUpdate p) := by
  refine extends_andThen (extends_readBool _) fun flag => ?_
  cases flag with
  | true => exact extends_andThen (extends_subexpLoop _ _ _) fun _ => extends_ok _
  | false => exact extends_ok _

/-- A sequence that takes exactly these answers is left without one by any proper part of them. -/
theorem Extends.silent_of_cut {f : BitPort → BitResult α} (hf : Extends f) {answers : List BitAnswer} {requests q : List Byte} {a : α}
    (h : f { answers := answers, requests := requests } = .ok a { answers := [], requests := q }) {k : Nat} (hk : k < answers.length) :
    ∃ port, f { answers := answers.take k, requests := requests } = .silent port := by
  have e := hf (answers.take k) requests (answers.drop k)
  rw [List.take_append_drop] at e
  have hd : 0 < (answers.drop k).length := by rw [List.length_drop]; omega
  generalize f { answers := answers.take k, requests := requests } = r at e ⊢
  cases r with
  | silent port => exact ⟨port, rfl⟩
  | underrun port => cases h.symm.trans e
  | ok b port =>
    have := congrArg List.length (congrArg BitPort.answers (BitResult.ok.inj (h.symm.trans e)).2)
    simp at this
    omega

/-- The walk of FWD_UPDATE, one entry at a time. -/
theorem fwdLoop_append (P : Params) (xs ys : List Nat) (pt : List Host.Cell) (port : BitPort) :
    fwdLoop P (xs ++ ys) pt port =
      match fwdLoop P xs pt port with
      | .done pt port => fwdLoop P ys pt port
      | .underrun pt port => .underrun pt port
      | .silent pt port => .silent pt port := by
  induction xs generalizing pt port with
  | nil => rfl
  | cons x xs ih =>
    simp only [List.cons_append, fwdLoop]
    cases diffUpdate (Memory.read P.defaultPt pt x) port with
    | ok a q => exact ih _ _
    | underrun q => rfl
    | silent q => rfl

/-- What the walk leaves in an entry it does not visit. -/
theorem fwdLoop_done_other {P : Params} {xs : List Nat} {pt pt' : List Host.Cell} {port port' : BitPort}
    (h : fwdLoop P xs pt port = .done pt' port') (j : Nat) (hj : j ∉ xs) :
    Memory.read P.defaultPt pt' j = Memory.read P.defaultPt pt j := by
  induction xs generalizing pt port with
  | nil => cases h; rfl
  | cons x xs ih =>
    simp only [fwdLoop] at h
    split at h
    · rw [ih h (fun m => hj (List.mem_cons_of_mem _ m)), Memory.read_write_other]
      rintro rfl; exact hj List.mem_cons_self
    · cases h
    · cases h

/-- The table after a walk, whatever its end. -/
def FwdResult.pt : FwdResult → List Host.Cell
  | .done pt _ => pt
  | .underrun pt _ => pt
  | .silent pt _ => pt

/-- Whatever its end, the walk leaves an entry that is not among those to visit. -/
theorem fwdLoop_other (P : Params) (xs : List Nat) (pt : List Host.Cell) (port : BitPort) (j : Nat) (hj : j ∉ xs) :
    Memory.read P.defaultPt (fwdLoop P xs pt port).pt j = Memory.read P.defaultPt pt j := by
  induction xs generalizing pt port with
  | nil => rfl
  | cons x xs ih =>
    simp only [fwdLoop]
    split
    · rw [ih _ _ (fun m => hj (List.mem_cons_of_mem _ m)), Memory.read_write_other]
      rintro rfl; exact hj List.mem_cons_self
    · rfl
    · rfl

/-- A walk that underruns walked a first part to its end, and the underrun came at the entry after it. -/
theorem fwdLoop_underrun {P : Params} {xs : List Nat} {pt pt' : List Host.Cell} {port port' : BitPort}
    (h : fwdLoop P xs pt port = .underrun pt' port') :
    ∃ done i todo q, xs = done ++ i :: todo ∧ fwdLoop P done pt port = .done pt' q ∧
      diffUpdate (Memory.read P.defaultPt pt' i) q = .underrun port' := by
  induction xs generalizing pt port with
  | nil => cases h
  | cons x xs ih =>
    simp only [fwdLoop] at h
    split at h
    · next f v q hd =>
      obtain ⟨done, i, todo, q', rfl, hdone, hi⟩ := ih h
      exact ⟨x :: done, i, todo, q', rfl, by simp only [fwdLoop, hd, hdone], hi⟩
    · next q hd => cases h; exact ⟨[], x, xs, port, rfl, rfl, hd⟩
    · cases h

/-- The walk keeps the canonical form. -/
theorem wf_fwdLoop {P : Params} (xs : List Nat) {pt : List Host.Cell} (port : BitPort) (h : Memory.wf P.defaultPt pt) :
    Memory.wf P.defaultPt (fwdLoop P xs pt port).pt := by
  induction xs generalizing pt port with
  | nil => exact h
  | cons x xs ih =>
    simp only [fwdLoop]
    split
    · exact ih _ (Memory.wf_write _ _ h)
    · exact h
    · exact h

end Sys2Proof.Machine
end

