-- ==== Sys2Proof/Laws/Decode.lean ====
section
/-! SUPPORT. The decoder row by row, and the encoder's numbers. -/

namespace Sys2Proof

theorem bits_lt (w : Word) (hi lo : Nat) : bits w hi lo < 2 ^ (hi + 1 - lo) := Nat.mod_lt _ (Nat.two_pow_pos _)

theorem toNat_ofNat_word {n : Nat} (h : n < 2 ^ 64) : (BitVec.ofNat 64 n).toNat = n := by
  rw [BitVec.toNat_ofNat]; exact Nat.mod_eq_of_lt h

/-- The opcode byte as a number. -/
theorem opcByte_toNat (w : Word) : (opcByte w).toNat = w.toNat % 256 := by
  simp [opcByte, bits]

theorem opcByte_ofNat (n : Nat) : opcByte (BitVec.ofNat 64 n) = BitVec.ofNat 8 n := by
  apply BitVec.eq_of_toNat_eq
  rw [opcByte_toNat, BitVec.toNat_ofNat, BitVec.toNat_ofNat]
  omega

/-- The rows of the opcode map have different opcode bytes. -/
theorem opcodeMap_nodup : (opcodeMap.map fun r => r.1).Nodup := by decide

/-- A word whose opcode byte is a row's decodes by that row. -/
theorem decode_of_row {w : Word} {o : Byte} {f : Format} {build : Word → Instr}
    (hr : (opcodeMap.find? fun r => r.1 == o) = some (o, f, build)) (ho : opcByte w = o) :
    decode w = if reservedClear f w then .command (build w) else .reservedField := by
  unfold decode; rw [ho, hr]

theorem decode_of_row_clear {w : Word} {o : Byte} {f : Format} {build : Word → Instr}
    (hr : (opcodeMap.find? fun r => r.1 == o) = some (o, f, build)) (ho : opcByte w = o) (hc : reservedClear f w = true) :
    decode w = .command (build w) := by rw [decode_of_row hr ho, if_pos hc]

/-- A word with no row has no command. -/
theorem decode_of_no_row {w : Word} (hr : (opcodeMap.find? fun r => r.1 == opcByte w) = none) : decode w = .badOpcode := by
  unfold decode; rw [hr]

/-- What a command's word went through. -/
theorem decode_command {w : Word} {i : Instr} (h : decode w = .command i) :
    ∃ f build, (opcByte w, f, build) ∈ opcodeMap ∧ reservedClear f w = true ∧ i = build w := by
  unfold decode at h
  split at h
  · cases h
  · next o f build hf =>
    have hm := List.mem_of_find?_eq_some hf
    have ho := List.find?_some hf
    split at h
    · next hc =>
      refine ⟨f, build, ?_, hc, (Verdict.command.inj h).symm⟩
      have : o = opcByte w := by simpa using ho
      exact this ▸ hm
    · cases h

/-- The codes of R47 and R48, back and forth. -/
@[simp] theorem sizeOfCode_codeOfSize (z : TxSize) : sizeOfCode (codeOfSize z) = z := by cases z <;> rfl
@[simp] theorem txTypeOfCode_codeOfTxType (t : TxType) : txTypeOfCode (codeOfTxType t) = t := by cases t <;> rfl
@[simp] theorem refOfCode_codeOfRef (r : RefType) : refOfCode (codeOfRef r) = r := by cases r <;> rfl
@[simp] theorem classOfCode_codeOfClass (c : PlaneClass) : classOfCode (codeOfClass c) = c := by cases c <;> rfl
@[simp] theorem tokenOfCode_codeOfToken (t : Token) : tokenOfCode (codeOfToken t) = t := by cases t <;> rfl

theorem codeOfSize_lt (z : TxSize) : codeOfSize z < 4 := by cases z <;> decide
theorem codeOfTxType_lt (t : TxType) : codeOfTxType t < 4 := by cases t <;> decide
theorem codeOfRef_lt (r : RefType) : codeOfRef r < 2 := by cases r <;> decide
theorem codeOfClass_lt (c : PlaneClass) : codeOfClass c < 2 := by cases c <;> decide
theorem codeOfToken_lt (t : Token) : codeOfToken t < 16 := by cases t <;> decide
theorem codeOfBool_lt (b : Bool) : codeOfBool b < 2 := by cases b <;> decide

theorem codeOfSize_sizeOfCode {n : Nat} (h : n < 4) : codeOfSize (sizeOfCode n) = n := by
  have : ∀ n < 4, codeOfSize (sizeOfCode n) = n := by decide
  exact this n h
theorem codeOfTxType_txTypeOfCode {n : Nat} (h : n < 4) : codeOfTxType (txTypeOfCode n) = n := by
  have : ∀ n < 4, codeOfTxType (txTypeOfCode n) = n := by decide
  exact this n h
theorem codeOfRef_refOfCode {n : Nat} (h : n < 2) : codeOfRef (refOfCode n) = n := by
  have : ∀ n < 2, codeOfRef (refOfCode n) = n := by decide
  exact this n h
theorem codeOfClass_classOfCode {n : Nat} (h : n < 2) : codeOfClass (classOfCode n) = n := by
  have : ∀ n < 2, codeOfClass (classOfCode n) = n := by decide
  exact this n h
theorem codeOfToken_tokenOfCode {n : Nat} (h : n < 16) : codeOfToken (tokenOfCode n) = n := by
  have : ∀ n < 16, codeOfToken (tokenOfCode n) = n := by decide
  exact this n h
theorem codeOfBool_beq_one {n : Nat} (h : n < 2) : codeOfBool (n == 1) = n := by
  have : ∀ n < 2, codeOfBool (n == 1) = n := by decide
  exact this n h
theorem codeOfBool_eq_one (b : Bool) : (codeOfBool b == 1) = b := by cases b <;> rfl

theorem codeOfClass_inj {a b : PlaneClass} (h : codeOfClass a = codeOfClass b) : a = b := by
  cases a <;> cases b <;> first | rfl | exact absurd h (by decide)
theorem codeOfRef_inj {a b : RefType} (h : codeOfRef a = codeOfRef b) : a = b := by
  cases a <;> cases b <;> first | rfl | exact absurd h (by decide)

/-- The opcode byte of an encoding, whatever the operands. -/
def opcodeOf : Instr → Byte
  | .nop => opcNop
  | .clearErr => opcClearErr
  | .setConfig _ _ _ => opcSetConfig
  | .resetDefaults => opcResetDefaults
  | .clearCounts => opcClearCounts
  | .blockStart _ _ _ _ => opcBlockStart
  | .scanLookup _ => opcScanLookup
  | .bandLookup _ => opcBandLookup
  | .ctxDerive _ _ _ => opcCtxDerive
  | .tcWrite _ _ => opcTcWrite
  | .ecWrite _ _ _ => opcEcWrite
  | .ecClear _ _ => opcEcClear
  | .probRead _ => opcProbRead
  | .coefLookup _ _ _ => opcCoefLookup
  | .probWrite _ _ _ => opcProbWrite
  | .countRecord _ _ _ => opcCountRecord
  | .countAdd _ _ _ _ => opcCountAdd
  | .countRead _ _ => opcCountRead
  | .subexpUpdate _ => opcSubexpUpdate
  | .fwdUpdate => opcFwdUpdate
  | .modelExpand _ => opcModelExpand
  | .adapt => opcAdapt

theorem opcByte_encode (i : Instr) : opcByte (encode i) = opcodeOf i := by
  rw [encode, opcByte_ofNat]
  apply BitVec.eq_of_toNat_eq
  cases i <;> simp only [encodeNat, encodeCell, opcodeOf, BitVec.toNat_ofNat] <;> omega

/-- An encoding fits a word. -/
theorem encodeCell_lt {c : CellRef} (h : c.wellFormed = true) : encodeCell c < 2 ^ 16 := by
  simp only [CellRef.wellFormed, Bool.and_eq_true, decide_eq_true_eq] at h
  have h1 := codeOfClass_lt c.cls
  have h2 := codeOfRef_lt c.ref
  simp only [encodeCell]; omega

end Sys2Proof
end

