-- ==== Sys2Proof/Laws/Exec.lean ====
section
/-! SUPPORT. What each command's meaning can do, once: if it answers a next state, either it raised one of the errors it can raise, and
changed nothing else, or it had its effect. -/

namespace Sys2Proof.Machine

/-- `t` is `s` with one of these errors recorded for opcode byte `opc`. -/
def Raised (es : List Error) (opc : Byte) (s t : State) : Prop := ∃ e ∈ es, t = s.setStatus (Status.ofError e opc)

theorem Raised.of {e : Error} {opc : Byte} {s t : State} (h : raiseError e opc s = .next t) : Raised [e] opc s t :=
  ⟨e, List.mem_singleton.mpr rfl, raiseError_next h⟩

theorem Raised.mono {es fs : List Error} {opc : Byte} {s t : State} (h : Raised es opc s t) (hs : ∀ e ∈ es, e ∈ fs) :
    Raised fs opc s t := by
  obtain ⟨e, he, ht⟩ := h
  exact ⟨e, hs e he, ht⟩

theorem Raised.status {es : List Error} {opc : Byte} {s t : State} (h : Raised es opc s t) :
    t.status.err = true ∧ t.status.opc = opc := by
  obtain ⟨e, _, rfl⟩ := h
  exact ⟨rfl, rfl⟩

theorem bandOf_ok {P : Params} {scan c b : Nat} (h : bandOf P scan c = .ok b) :
    b ≤ 5 ∧ b = if bandLimit < c then 5 else P.bandRom scan c := by
  unfold bandOf at h
  split at h
  · next hc => cases h; exact ⟨Nat.le_refl 5, (if_pos hc).symm⟩
  · next hc =>
    split at h
    · cases h
    · next hb => cases h; exact ⟨by omega, (if_neg hc).symm⟩

theorem bandOf_error {P : Params} {scan c : Nat} {e : Error} (h : bandOf P scan c = .error e) :
    e = .ctxRange ∧ c ≤ bandLimit ∧ 5 < P.bandRom scan c := by
  unfold bandOf at h
  split at h
  · cases h
  · next hc =>
    split at h
    · next hb => cases h; exact ⟨rfl, by omega, hb⟩
    · cases h

theorem contextOf_ok {P : Params} {s : State} {c col row x : Nat} (h : contextOf P s c col row = .ok x) :
    (c = 0 ∧ spanInRange P s col row = true ∧ x = codeOfBool (aboveFlag s col) + codeOfBool (leftFlag s row)) ∨
    (c ≠ 0 ∧ badNeighbours (P.nbRom s.blk.scanId c) c = false ∧ x ≤ 5 ∧ x = combinedContext P s (P.nbRom s.blk.scanId c)) := by
  unfold contextOf at h
  split at h
  · next hc =>
    split at h
    · cases h
    · next hs => cases h; exact .inl ⟨hc, by simpa using hs, rfl⟩
  · next hc =>
    split at h
    · cases h
    · next hb =>
      split at h
      · cases h
      · next hx => cases h; exact .inr ⟨hc, by simpa using hb, by omega, rfl⟩

theorem contextOf_error {P : Params} {s : State} {c col row : Nat} {e : Error} (h : contextOf P s c col row = .error e) :
    (c = 0 ∧ spanInRange P s col row = false ∧ e = .indexRange) ∨
    (c ≠ 0 ∧ e = .ctxRange ∧
      (badNeighbours (P.nbRom s.blk.scanId c) c = true ∨ 5 < combinedContext P s (P.nbRom s.blk.scanId c))) := by
  unfold contextOf at h
  split at h
  · next hc =>
    split at h
    · next hs => cases h; exact .inl ⟨hc, by simpa using hs, rfl⟩
    · cases h
  · next hc =>
    split at h
    · next hb => cases h; exact .inr ⟨hc, rfl, .inl hb⟩
    · split at h
      · next hx => cases h; exact .inr ⟨hc, rfl, .inr hx⟩
      · cases h

theorem contextOf_le {P : Params} {s : State} {c col row x : Nat} (h : contextOf P s c col row = .ok x) : x ≤ 5 := by
  rcases contextOf_ok h with ⟨_, _, rfl⟩ | ⟨_, _, hx, _⟩
  · have a := codeOfBool_lt (aboveFlag s col)
    have l := codeOfBool_lt (leftFlag s row)
    omega
  · exact hx

/-! The meanings. -/

theorem execBlockStart_next {z : TxSize} {k : TxType} {p : Nat} {r : RefType} {s t : State}
    (h : execBlockStart z k p r s = .next t) :
    Raised [.badGeometry] opcBlockStart s t ∨
    (illegalGeometry z k p = false ∧
      t = (s.setTc []).setBlk { valid := true, size := z, txtype := k, plane := p, ref := r, scanId := scanIdOf z k, cls := planeClass p }) := by
  unfold execBlockStart at h
  split at h
  · exact .inl (.of h)
  · next hg => cases h; exact .inr ⟨by simpa using hg, rfl⟩

theorem scanLookup_next {P : Params} {c : Nat} {s t : State} (h : scanLookup P c s = .next t) :
    Raised [.noBlock, .indexRange] opcScanLookup s t ∨
    (s.blk.valid = true ∧ c < coefCount s ∧ t = s.setRes 0#64 (posField (scanPosition P s c))) := by
  unfold scanLookup at h
  split at h
  · exact .inl ((Raised.of h).mono (by simp))
  · next hv =>
    split at h
    · exact .inl ((Raised.of h).mono (by simp))
    · next hc => cases h; exact .inr ⟨by simpa using hv, by omega, rfl⟩

theorem bandLookup_next {P : Params} {c : Nat} {s t : State} (h : bandLookup P c s = .next t) :
    Raised [.noBlock, .indexRange, .ctxRange] opcBandLookup s t ∨
    (s.blk.valid = true ∧ c < coefCount s ∧ ∃ b, bandOf P s.blk.scanId c = .ok b ∧ t = s.setRes 0#64 (bandField b)) := by
  unfold bandLookup at h
  split at h
  · exact .inl ((Raised.of h).mono (by simp))
  · next hv =>
    split at h
    · exact .inl ((Raised.of h).mono (by simp))
    · next hc =>
      split at h
      · next e he =>
        rw [(bandOf_error he).1] at h
        exact .inl ((Raised.of h).mono (by simp))
      · next b hb => cases h; exact .inr ⟨by simpa using hv, by omega, b, hb, rfl⟩

theorem execTcWrite_next {c : Nat} {k : Token} {s t : State} (h : execTcWrite c k s = .next t) :
    Raised [.noBlock, .indexRange, .badToken] opcTcWrite s t ∨
    (s.blk.valid = true ∧ c < coefCount s ∧ ∃ m, tokenClass k = some m ∧ t = writeTc s c m) := by
  unfold execTcWrite at h
  split at h
  · exact .inl ((Raised.of h).mono (by simp))
  · next hv =>
    split at h
    · exact .inl ((Raised.of h).mono (by simp))
    · next hc =>
      split at h
      · exact .inl ((Raised.of h).mono (by simp))
      · next m hm => cases h; exact .inr ⟨by simpa using hv, by omega, m, hm, rfl⟩

theorem ctxDerive_next {P : Params} {c col row : Nat} {s t : State} (h : ctxDerive P c col row s = .next t) :
    Raised [.noBlock, .indexRange, .ctxRange] opcCtxDerive s t ∨
    (s.blk.valid = true ∧ c < coefCount s ∧ ∃ x, contextOf P s c col row = .ok x ∧ t = s.setRes 0#64 (ctxField x)) := by
  unfold ctxDerive at h
  split at h
  · exact .inl ((Raised.of h).mono (by simp))
  · next hv =>
    split at h
    · exact .inl ((Raised.of h).mono (by simp))
    · next hc =>
      split at h
      · next e he =>
        refine .inl ((Raised.of h).mono ?_)
        rcases contextOf_error he with ⟨_, _, rfl⟩ | ⟨_, rfl, _⟩ <;> simp
      · next x hx => cases h; exact .inr ⟨by simpa using hv, by omega, x, hx, rfl⟩

theorem ecWrite_next {P : Params} {nz : Bool} {col row : Nat} {s t : State} (h : ecWrite P nz col row s = .next t) :
    Raised [.noBlock, .indexRange] opcEcWrite s t ∨
    (s.blk.valid = true ∧ spanInRange P s col row = true ∧ t = fillEdges s s.blk.plane col row (blockSpan s) nz) := by
  unfold ecWrite at h
  split at h
  · exact .inl ((Raised.of h).mono (by simp))
  · next hv =>
    split at h
    · exact .inl ((Raised.of h).mono (by simp))
    · next hs => cases h; exact .inr ⟨by simpa using hv, by simpa using hs, rfl⟩

theorem probRead_next {P : Params} {cell : CellRef} {s t : State} (h : probRead P cell s = .next t) :
    Raised [.indexRange] opcProbRead s t ∨ (cellInRange cell = true ∧ t = setLanes s (cellLane P s cell)) := by
  unfold probRead at h
  split at h
  · exact .inl (.of h)
  · next hc => cases h; exact .inr ⟨by simpa using hc, rfl⟩

theorem coefLookup_next {P : Params} {c col row : Nat} {s t : State} (h : coefLookup P c col row s = .next t) :
    Raised [.noBlock, .indexRange, .ctxRange] opcCoefLookup s t ∨
    (s.blk.valid = true ∧ c < coefCount s ∧ ∃ b x, bandOf P s.blk.scanId c = .ok b ∧ contextOf P s c col row = .ok x ∧
      t = setCoef s (cellLane P s (lookupCell s b x)) (scanPosition P s c) b x) := by
  unfold coefLookup at h
  split at h
  · exact .inl ((Raised.of h).mono (by simp))
  · next hv =>
    split at h
    · exact .inl ((Raised.of h).mono (by simp))
    · next hc =>
      split at h
      · exact .inl ((Raised.of h).mono (by simp))
      · split at h
        · next e he =>
          rw [(bandOf_error he).1] at h
          exact .inl ((Raised.of h).mono (by simp))
        · next b hb =>
          split at h
          · next e he =>
            refine .inl ((Raised.of h).mono ?_)
            rcases contextOf_error he with ⟨_, _, rfl⟩ | ⟨_, rfl, _⟩ <;> simp
          · next x hx => cases h; exact .inr ⟨by simpa using hv, by omega, b, x, hb, hx, rfl⟩

theorem probWrite_next {P : Params} {cell : CellRef} {node : Nat} {v : Byte} {s t : State} (h : probWrite P cell node v s = .next t) :
    Raised [.indexRange, .badProb] opcProbWrite s t ∨
    (cellInRange cell = true ∧ nodeInRange node = true ∧ v ≠ 0#8 ∧ t = writePt P s (ptx cell node) v) := by
  unfold probWrite at h
  split at h
  · exact .inl ((Raised.of h).mono (by simp))
  · next hc =>
    split at h
    · exact .inl ((Raised.of h).mono (by simp))
    · next hv =>
      cases h
      refine .inr ⟨?_, ?_, by simpa using hv, rfl⟩ <;> simp at hc <;> simp [hc]

theorem execCountRecord_next {cell : CellRef} {node : Nat} {br : Bool} {s t : State} (h : execCountRecord cell node br s = .next t) :
    Raised [.indexRange, .nodeRange] opcCountRecord s t ∨
    (cellInRange cell = true ∧ nodeInRange node = true ∧ t = bumpCount s (ptx cell node) br 1) := by
  unfold execCountRecord at h
  split at h
  · exact .inl ((Raised.of h).mono (by simp))
  · next hc =>
    split at h
    · exact .inl ((Raised.of h).mono (by simp))
    · next hn => cases h; exact .inr ⟨by simpa using hc, by simpa using hn, rfl⟩

theorem execCountAdd_next {cell : CellRef} {node : Nat} {br : Bool} {a : Nat} {s t : State}
    (h : execCountAdd cell node br a s = .next t) :
    Raised [.indexRange, .nodeRange] opcCountAdd s t ∨
    (cellInRange cell = true ∧ nodeInRange node = true ∧ t = bumpCount s (ptx cell node) br a) := by
  unfold execCountAdd at h
  split at h
  · exact .inl ((Raised.of h).mono (by simp))
  · next hc =>
    split at h
    · exact .inl ((Raised.of h).mono (by simp))
    · next hn => cases h; exact .inr ⟨by simpa using hc, by simpa using hn, rfl⟩

theorem execCountRead_next {cell : CellRef} {node : Nat} {s t : State} (h : execCountRead cell node s = .next t) :
    Raised [.indexRange] opcCountRead s t ∨
    (cellInRange cell = true ∧ nodeInRange node = true ∧
      t = s.setRes (readCt s (ptx cell node) true ++ readCt s (ptx cell node) false) 0#64) := by
  unfold execCountRead at h
  split at h
  · exact .inl (.of h)
  · next hc =>
    cases h
    refine .inr ⟨?_, ?_, rfl⟩ <;> simp at hc <;> simp [hc]

theorem execSubexpUpdate_next {p : Byte} {s t : State} (h : execSubexpUpdate p s = .next t) :
    Raised [.badProb] opcSubexpUpdate s t ∨
    (p ≠ 0#8 ∧ ∃ f q port, diffUpdate p s.port = .ok (f, q) port ∧
      t = (s.setPort port).setRes ((bit f ++ q : BitVec 9).setWidth 64) 0#64) ∨
    (p ≠ 0#8 ∧ ∃ port, diffUpdate p s.port = .underrun port ∧ Raised [.underrun] opcSubexpUpdate (s.setPort port) t) := by
  unfold execSubexpUpdate at h
  split at h
  · exact .inl (.of h)
  · next hp =>
    have hp : p ≠ 0#8 := by simpa using hp
    split at h
    · next f q port hd => cases h; exact .inr (.inl ⟨hp, f, q, port, hd, rfl⟩)
    · next port hd => exact .inr (.inr ⟨hp, port, hd, .of h⟩)
    · cases h

theorem fwdUpdate_next {P : Params} {s t : State} (h : fwdUpdate P s = .next t) :
    (∃ pt port, fwdWalk P s = .done pt port ∧ t = (s.setPt pt).setPort port) ∨
    (∃ pt port, fwdWalk P s = .underrun pt port ∧ Raised [.underrun] opcFwdUpdate ((s.setPt pt).setPort port) t) := by
  unfold fwdUpdate at h
  split at h
  · next pt port hw => cases h; exact .inl ⟨pt, port, hw, rfl⟩
  · next pt port hw => exact .inr ⟨pt, port, hw, .of h⟩
  · cases h

theorem modelExpand_next {P : Params} {p : Byte} {s t : State} (h : modelExpand P p s = .next t) :
    Raised [.badProb] opcModelExpand s t ∨ (p ≠ 0#8 ∧ t = setLanes s (expandLane P p)) := by
  unfold modelExpand at h
  split at h
  · exact .inl (.of h)
  · next hp => cases h; exact .inr ⟨by simpa using hp, rfl⟩

/-! ADAPT's loop, entry by entry. -/

theorem adaptLoop_other (P : Params) (s : State) (xs : List Nat) (pt : List Host.Cell) (j : Nat) (h : j ∉ xs) :
    Memory.read P.defaultPt (adaptLoop P s xs pt) j = Memory.read P.defaultPt pt j := by
  induction xs generalizing pt with
  | nil => rfl
  | cons x xs ih =>
    rw [adaptLoop, ih _ fun m => h (List.mem_cons_of_mem _ m), Memory.read_write_other]
    rintro rfl; exact h List.mem_cons_self

theorem adaptLoop_at (P : Params) (s : State) (xs : List Nat) (pt : List Host.Cell) (j : Nat) (hn : xs.Nodup) (h : j ∈ xs) :
    Memory.read P.defaultPt (adaptLoop P s xs pt) j = adaptedProb P s j (Memory.read P.defaultPt pt j) := by
  induction xs generalizing pt with
  | nil => cases h
  | cons x xs ih =>
    obtain ⟨hx, hn⟩ := List.nodup_cons.mp hn
    rw [adaptLoop]
    by_cases hj : j = x
    · subst hj; rw [adaptLoop_other _ _ _ _ _ hx, Memory.read_write_self]
    · rcases List.mem_cons.mp h with h | h
      · exact absurd h hj
      · rw [ih _ hn h, Memory.read_write_other _ _ _ _ _ hj]

theorem wf_adaptLoop {P : Params} (s : State) (xs : List Nat) {pt : List Host.Cell} (h : Memory.wf P.defaultPt pt) :
    Memory.wf P.defaultPt (adaptLoop P s xs pt) := by
  induction xs generalizing pt with
  | nil => exact h
  | cons x xs ih => exact ih (Memory.wf_write _ _ h)

/-- A saturating addition stays within the counter. -/
theorem countAddSat_toNat (x : Count) (a : Nat) : (countAddSat x a).toNat = min (x.toNat + a) 4294967295 := by
  unfold countAddSat
  rw [BitVec.toNat_ofNat]
  exact Nat.mod_eq_of_lt (by omega)

/-- One count changes, the others do not. -/
theorem readCt_bumpCount (s : State) (i j : Nat) (a b : Bool) (n : Nat) :
    readCt (bumpCount s i a n) j b = if j = i ∧ b = a then countAddSat (readCt s i a) n else readCt s j b :=
  readCt_writeCt ..

/-! Every command at once. -/

/-- What a command that raises no error may change, and what it leaves in its one-register effects. -/
def Effect (i : Instr) (s t : State) : Prop :=
  match i with
  | .nop => t = s
  | .clearErr => t = clearError s
  | .setConfig a b c => t = s.setCfg { compactEn := a, adaptEn := b, irqEn := c }
  | .resetDefaults => t = s.setPt []
  | .clearCounts => t = s.setCt []
  | .blockStart z k p r =>
    t = (s.setTc []).setBlk { valid := true, size := z, txtype := k, plane := p, ref := r, scanId := scanIdOf z k, cls := planeClass p }
  | .scanLookup _ => ∃ a b, t = s.setRes a b
  | .bandLookup _ => ∃ a b, t = s.setRes a b
  | .ctxDerive _ _ _ => ∃ a b, t = s.setRes a b
  | .tcWrite _ _ => ∃ m, t = s.setTc m
  | .ecWrite _ _ _ => ∃ m n, t = (s.setAc m).setLc n
  | .ecClear _ _ => ∃ m n, t = (s.setAc m).setLc n
  | .probRead _ => ∃ a b, t = s.setRes a b
  | .coefLookup _ _ _ => ∃ a b, t = s.setRes a b
  | .probWrite _ _ _ => ∃ m, t = s.setPt m
  | .countRecord _ _ _ => ∃ m, t = s.setCt m
  | .countAdd _ _ _ _ => ∃ m, t = s.setCt m
  | .countRead _ _ => ∃ a b, t = s.setRes a b
  | .subexpUpdate _ => ∃ p a b k, t = (s.setPort p).setRes a b ∧ p.answers = s.port.answers.drop k
  | .fwdUpdate => ∃ m p k, t = (s.setPt m).setPort p ∧ p.answers = s.port.answers.drop k
  | .modelExpand _ => ∃ a b, t = s.setRes a b
  | .adapt => ∃ m, t = (s.setPt m).setCt []

/-- What a command that raises an error leaves. -/
def Failure (i : Instr) (s t : State) : Prop :=
  match i with
  | .subexpUpdate _ =>
    Raised [.badProb] opcSubexpUpdate s t ∨
      ∃ p k, p.answers = s.port.answers.drop k ∧ Raised [.underrun] opcSubexpUpdate (s.setPort p) t
  | .fwdUpdate => ∃ m p k, p.answers = s.port.answers.drop k ∧ Raised [.underrun] opcFwdUpdate ((s.setPt m).setPort p) t
  | i => ∃ es, Raised es (opcodeOf i) s t

theorem fwdLoop_answers (P : Params) (xs : List Nat) (pt : List Host.Cell) (port : BitPort) :
    ∃ k, (fwdLoop P xs pt port).port.answers = port.answers.drop k := by
  induction xs generalizing pt port with
  | nil => exact ⟨0, rfl⟩
  | cons x xs ih =>
    have ht := Takes.answers (diffUpdate_takes (Memory.read P.defaultPt pt x) port)
    simp only [fwdLoop]
    revert ht
    cases diffUpdate (Memory.read P.defaultPt pt x) port with
    | ok a q =>
      rintro ⟨k, hk⟩
      obtain ⟨j, hj⟩ := ih (Memory.write P.defaultPt pt x a.2) q
      refine ⟨k + j, ?_⟩
      simp only [BitResult.port] at hk
      rw [hj, hk, List.drop_drop]
    | underrun q => exact id
    | silent q => exact id

/-- What a command can do: its effect, or one of its errors. -/
theorem exec_next {i : Instr} {s t : State} (h : exec i s = .next t) : Effect i s t ∨ Failure i s t := by
  cases i with
  | nop => cases h; exact .inl rfl
  | clearErr => cases h; exact .inl rfl
  | setConfig => cases h; exact .inl rfl
  | resetDefaults => cases h; exact .inl rfl
  | clearCounts => cases h; exact .inl rfl
  | ecClear => cases h; exact .inl ⟨_, _, rfl⟩
  | adapt => cases h; exact .inl ⟨_, rfl⟩
  | blockStart => exact (execBlockStart_next h).elim (fun h => .inr ⟨_, h⟩) fun ⟨_, h⟩ => .inl h
  | scanLookup => exact (scanLookup_next h).elim (fun h => .inr ⟨_, h⟩) fun ⟨_, _, h⟩ => .inl ⟨_, _, h⟩
  | bandLookup => exact (bandLookup_next h).elim (fun h => .inr ⟨_, h⟩) fun ⟨_, _, _, _, h⟩ => .inl ⟨_, _, h⟩
  | ctxDerive => exact (ctxDerive_next h).elim (fun h => .inr ⟨_, h⟩) fun ⟨_, _, _, _, h⟩ => .inl ⟨_, _, h⟩
  | tcWrite => exact (execTcWrite_next h).elim (fun h => .inr ⟨_, h⟩) fun ⟨_, _, _, _, h⟩ => .inl ⟨_, h⟩
  | ecWrite => exact (ecWrite_next h).elim (fun h => .inr ⟨_, h⟩) fun ⟨_, _, h⟩ => .inl ⟨_, _, h⟩
  | probRead => exact (probRead_next h).elim (fun h => .inr ⟨_, h⟩) fun ⟨_, h⟩ => .inl ⟨_, _, h⟩
  | coefLookup => exact (coefLookup_next h).elim (fun h => .inr ⟨_, h⟩) fun ⟨_, _, _, _, _, _, h⟩ => .inl ⟨_, _, h⟩
  | probWrite => exact (probWrite_next h).elim (fun h => .inr ⟨_, h⟩) fun ⟨_, _, _, h⟩ => .inl ⟨_, h⟩
  | countRecord => exact (execCountRecord_next h).elim (fun h => .inr ⟨_, h⟩) fun ⟨_, _, h⟩ => .inl ⟨_, h⟩
  | countAdd => exact (execCountAdd_next h).elim (fun h => .inr ⟨_, h⟩) fun ⟨_, _, h⟩ => .inl ⟨_, h⟩
  | countRead => exact (execCountRead_next h).elim (fun h => .inr ⟨_, h⟩) fun ⟨_, _, h⟩ => .inl ⟨_, _, h⟩
  | modelExpand => exact (modelExpand_next h).elim (fun h => .inr ⟨_, h⟩) fun ⟨_, h⟩ => .inl ⟨_, _, h⟩
  | subexpUpdate p =>
    have ht := Takes.answers (diffUpdate_takes p s.port)
    rcases execSubexpUpdate_next h with h | ⟨_, _, _, _, hd, h⟩ | ⟨_, _, hd, h⟩
    · exact .inr (.inl h)
    · rw [hd] at ht; obtain ⟨k, hk⟩ := ht; exact .inl ⟨_, _, _, k, h, hk⟩
    · rw [hd] at ht; obtain ⟨k, hk⟩ := ht; exact .inr (.inr ⟨_, k, hk, h⟩)
  | fwdUpdate =>
    have ht := fwdLoop_answers Config.params (fwdOrder (signalledNodes Config.params s.cfg.compactEn)) s.pt s.port
    rcases fwdUpdate_next h with ⟨_, _, hw, h⟩ | ⟨_, _, hw, h⟩
    · rw [show fwdLoop _ _ _ _ = _ from hw] at ht; obtain ⟨k, hk⟩ := ht; exact .inl ⟨_, _, k, h, hk⟩
    · rw [show fwdLoop _ _ _ _ = _ from hw] at ht; obtain ⟨k, hk⟩ := ht; exact .inr ⟨_, _, k, hk, h⟩

end Sys2Proof.Machine
end

