-- ==== Sys2Proof/Laws/PerInstr.lean ====
section
/-! SUPPORT. Statements made instruction by instruction. `EncodingFits`: a well-formed command's number fits the 64-bit command word
with the command's opcode byte at the bottom, so no field of its format reaches the opcode byte or bit 64. -/

namespace Sys2Proof.Laws.EncodingFits

def Statement (i : Instr) : Prop := WellFormed i → encodeNat i < 2 ^ 64 ∧ encodeNat i % 256 = (opcodeOf i).toNat

theorem nop : Statement .nop := by
  intro _
  decide

theorem clearErr : Statement .clearErr := by
  intro _
  decide

theorem setConfig : ∀ ce ae ie, Statement (.setConfig ce ae ie) := by
  intro ce ae ie h
  have h0 := codeOfBool_lt ce
  have h1 := codeOfBool_lt ae
  have h2 := codeOfBool_lt ie
  simp only [encodeNat, opcodeOf, BitVec.toNat_ofNat]
  omega

theorem resetDefaults : Statement .resetDefaults := by
  intro _
  decide

theorem clearCounts : Statement .clearCounts := by
  intro _
  decide

theorem blockStart : ∀ z t p r, Statement (.blockStart z t p r) := by
  intro z t p r h
  have h0 := codeOfSize_lt z
  have h1 := codeOfTxType_lt t
  have h2 := codeOfRef_lt r
  simp only [WellFormed, Instr.wellFormed, decide_eq_true_eq] at h
  simp only [encodeNat, opcodeOf, BitVec.toNat_ofNat]
  omega

theorem scanLookup : ∀ c, Statement (.scanLookup c) := by
  intro c h
  simp only [WellFormed, Instr.wellFormed, decide_eq_true_eq] at h
  simp only [encodeNat, opcodeOf, BitVec.toNat_ofNat]
  omega

theorem bandLookup : ∀ c, Statement (.bandLookup c) := by
  intro c h
  simp only [WellFormed, Instr.wellFormed, decide_eq_true_eq] at h
  simp only [encodeNat, opcodeOf, BitVec.toNat_ofNat]
  omega

theorem ctxDerive : ∀ c col row, Statement (.ctxDerive c col row) := by
  intro c col row h
  simp only [WellFormed, Instr.wellFormed, Bool.and_eq_true, decide_eq_true_eq] at h
  simp only [encodeNat, opcodeOf, BitVec.toNat_ofNat]
  omega

theorem tcWrite : ∀ c k, Statement (.tcWrite c k) := by
  intro c k h
  have h0 := codeOfToken_lt k
  simp only [WellFormed, Instr.wellFormed, decide_eq_true_eq] at h
  simp only [encodeNat, opcodeOf, BitVec.toNat_ofNat]
  omega

theorem ecWrite : ∀ z col row, Statement (.ecWrite z col row) := by
  intro z col row h
  have h0 := codeOfBool_lt z
  simp only [WellFormed, Instr.wellFormed, Bool.and_eq_true, decide_eq_true_eq] at h
  simp only [encodeNat, opcodeOf, BitVec.toNat_ofNat]
  omega

theorem ecClear : ∀ a l, Statement (.ecClear a l) := by
  intro a l h
  have h0 := codeOfBool_lt a
  have h1 := codeOfBool_lt l
  simp only [encodeNat, opcodeOf, BitVec.toNat_ofNat]
  omega

theorem probRead : ∀ cell, Statement (.probRead cell) := by
  intro cell h
  have h0 := encodeCell_lt (c := cell) (by simpa [WellFormed, Instr.wellFormed] using h)
  simp only [encodeNat, opcodeOf, encodeCell, BitVec.toNat_ofNat] at *
  omega

theorem coefLookup : ∀ c col row, Statement (.coefLookup c col row) := by
  intro c col row h
  simp only [WellFormed, Instr.wellFormed, Bool.and_eq_true, decide_eq_true_eq] at h
  simp only [encodeNat, opcodeOf, BitVec.toNat_ofNat]
  omega

theorem probWrite : ∀ cell n v, Statement (.probWrite cell n v) := by
  intro cell n v h
  have h0 := encodeCell_lt (c := cell) (by simp [WellFormed, Instr.wellFormed] at h; simp [h])
  have h1 := v.isLt
  simp only [WellFormed, Instr.wellFormed, Bool.and_eq_true, decide_eq_true_eq] at h
  simp only [encodeNat, opcodeOf, encodeCell, BitVec.toNat_ofNat] at *
  omega

theorem countRecord : ∀ cell n b, Statement (.countRecord cell n b) := by
  intro cell n b h
  have h0 := encodeCell_lt (c := cell) (by simp [WellFormed, Instr.wellFormed] at h; simp [h])
  have h1 := codeOfBool_lt b
  simp only [WellFormed, Instr.wellFormed, Bool.and_eq_true, decide_eq_true_eq] at h
  simp only [encodeNat, opcodeOf, encodeCell, BitVec.toNat_ofNat] at *
  omega

theorem countAdd : ∀ cell n b a, Statement (.countAdd cell n b a) := by
  intro cell n b a h
  have h0 := encodeCell_lt (c := cell) (by simp [WellFormed, Instr.wellFormed] at h; simp [h])
  have h1 := codeOfBool_lt b
  simp only [WellFormed, Instr.wellFormed, Bool.and_eq_true, decide_eq_true_eq] at h
  simp only [encodeNat, opcodeOf, encodeCell, BitVec.toNat_ofNat] at *
  omega

theorem countRead : ∀ cell n, Statement (.countRead cell n) := by
  intro cell n h
  have h0 := encodeCell_lt (c := cell) (by simp [WellFormed, Instr.wellFormed] at h; simp [h])
  simp only [WellFormed, Instr.wellFormed, Bool.and_eq_true, decide_eq_true_eq] at h
  simp only [encodeNat, opcodeOf, encodeCell, BitVec.toNat_ofNat] at *
  omega

theorem subexpUpdate : ∀ p, Statement (.subexpUpdate p) := by
  intro p h
  have h0 := p.isLt
  simp only [encodeNat, opcodeOf, BitVec.toNat_ofNat]
  omega

theorem fwdUpdate : Statement .fwdUpdate := by
  intro _
  decide

theorem modelExpand : ∀ p, Statement (.modelExpand p) := by
  intro p h
  have h0 := p.isLt
  simp only [encodeNat, opcodeOf, BitVec.toNat_ofNat]
  omega

theorem adapt : Statement .adapt := by
  intro _
  decide

end Sys2Proof.Laws.EncodingFits
end

