-- ==== Sys2Proof/Laws/Step.lean ====
section
/-! SUPPORT. One step by its input, and the facts about a latched block and the configuration that statements about the machine use. -/

namespace Sys2Proof.Machine

theorem step_idle {s : State} (h : s.bus.pending = []) : step s = .next s := by unfold step; rw [h]

theorem step_event {s : State} {e : HostEvent} {rest : List HostEvent} (h : s.bus.pending = e :: rest) :
    step s = takeEvent Config.params e (afterEvent s rest) := by unfold step; rw [h]

theorem afterEvent_eq (s : State) (rest : List HostEvent) :
    afterEvent s rest = { s with bus := { pending := rest, returned := s.bus.returned } } := rfl

theorem takeEvent_command (P : Params) (w : Word) (s : State) : takeEvent P (.store 0 8 w) s = issueWord w s := rfl

theorem issueWord_halted {s : State} {w : Word} (h : s.status.err = true) (hw : w ≠ 1#64) : issueWord w s = .next s := by
  unfold issueWord; rw [ignoresWord_of_halted h hw]; rfl

theorem issueWord_command {s : State} {w : Word} {i : Instr} (h : ignoresWord s w = false) (hd : decode w = .command i) :
    issueWord w s = exec i s := by unfold issueWord; rw [h, hd]; rfl

theorem issueWord_badOpcode {s : State} {w : Word} (h : ignoresWord s w = false) (hd : decode w = .badOpcode) :
    issueWord w s = raiseError .badOpcode (opcByte w) s := by unfold issueWord; rw [h, hd]; rfl

theorem issueWord_reservedField {s : State} {w : Word} (h : ignoresWord s w = false) (hd : decode w = .reservedField) :
    issueWord w s = raiseError .reservedField (opcByte w) s := by unfold issueWord; rw [h, hd]; rfl

/-- What one command word can do. -/
theorem issueWord_next {s t : State} {w : Word} (h : issueWord w s = .next t) :
    (ignoresWord s w = true ∧ t = s) ∨ (∃ e, t = s.setStatus (Status.ofError e (opcByte w))) ∨
    (∃ i, decode w = .command i ∧ exec i s = .next t) := by
  unfold issueWord at h
  split at h
  · next hi => cases h; exact .inl ⟨hi, rfl⟩
  · split at h
    · exact .inr (.inl ⟨_, raiseError_next h⟩)
    · exact .inr (.inl ⟨_, raiseError_next h⟩)
    · next i hd => exact .inr (.inr ⟨i, hd, h⟩)

/-- What one input can do: run a command word, be read, or reset the unit. -/
theorem takeEvent_next {P : Params} {e : HostEvent} {s t : State} (h : takeEvent P e s = .next t) :
    (∃ w, issueWord w s = .next t) ∨ (∃ b, t = s.setBus b) ∨ (∃ p, t = platformReset (s.setPort p)) := by
  cases e with
  | store o n w =>
    simp only [takeEvent, hostStore] at h
    split at h
    · cases h
    · split at h
      · exact .inl ⟨w, h⟩
      · cases h; exact .inr (.inl ⟨s.bus, rfl⟩)
  | load o n =>
    simp only [takeEvent, hostLoad] at h
    split at h
    · cases h
    · cases h; exact .inr (.inl ⟨_, rfl⟩)
  | reset => cases h; exact .inr (.inr ⟨s.port, rfl⟩)
  | resetDuring w n => cases h; exact .inr (.inr ⟨_, rfl⟩)

/-- Nothing is listed after reset, so every memory has its canonical form. -/
theorem reset_memories_canonical (P : Params) : MemoriesCanonical P State.reset :=
  ⟨Memory.wf_nil _, Memory.wf_nil _, Memory.wf_nil _, Memory.wf_nil _, Memory.wf_nil _⟩

/-! Literals, as a source that sends them answers. -/

theorem validAnswers_cons (b : Bool) (bs : List Bool) : validAnswers (b :: bs) = { bit := b, valid := true } :: validAnswers bs := rfl

theorem validAnswers_append (a b : List Bool) : validAnswers (a ++ b) = validAnswers a ++ validAnswers b := List.map_append

theorem literalBits_length (n v : Nat) : (literalBits n v).length = n := by
  induction n with
  | zero => rfl
  | succ n ih => simp [literalBits, ih]

/-- Reading a literal gives the number it was written from (R85). -/
theorem readLitOnto_literalBits (n v x : Nat) (rest : List BitAnswer) (q : List Byte) :
    readLitOnto n v { answers := validAnswers (literalBits n x) ++ rest, requests := q } =
      .ok (2 ^ n * v + x % 2 ^ n) { answers := rest, requests := List.replicate n evenProb ++ q } := by
  induction n generalizing v q with
  | zero => simp [readLitOnto, literalBits, validAnswers]; omega
  | succ n ih =>
    simp only [literalBits, validAnswers_cons, List.cons_append, readLitOnto, readBool_valid, BitResult.andThen_ok]
    rw [ih]
    congr 1
    · rw [codeOfBool_beq_one (Nat.mod_lt _ (by decide)), Nat.pow_succ, Nat.mod_mul]
      ring
    · congr 1
      rw [List.replicate_succ', List.append_assoc]; rfl

/-! A latched block. -/

theorem illegalGeometry_false {z : TxSize} {k : TxType} {p : Nat} (h : illegalGeometry z k p = false) :
    p < 3 ∧ k ≠ .code3 ∧ (z = .s32x32 → k = .dctDct) := by
  revert h
  cases z <;> cases k <;> simp [illegalGeometry]

theorem BlkLegal.latched {b : Blk} (h : BlkLegal b) (hv : b.valid = true) :
    illegalGeometry b.size b.txtype b.plane = false ∧ b.scanId = scanIdOf b.size b.txtype ∧ b.cls = planeClass b.plane := by
  rcases h with rfl | ⟨_, h⟩
  · cases hv
  · exact h

/-- The scan order of a latched block is one of the ten, and covers the block. -/
theorem BlkLegal.scan {b : Blk} (h : BlkLegal b) (hv : b.valid = true) :
    b.scanId < numScans ∧ scanLength b.scanId = sizeCoefs b.size := by
  obtain ⟨hg, hs, _⟩ := h.latched hv
  obtain ⟨_, hk, hz⟩ := illegalGeometry_false hg
  rw [hs]
  revert hk hz
  cases b.size <;> cases b.txtype <;> decide

/-- The configuration's laws at a latched block. -/
theorem band_of_block {s : State} {c : Nat} (h : BlkLegal s.blk) (hv : s.blk.valid = true) (hc : c < coefCount s) :
    bandOf Config.params s.blk.scanId c = .ok (if 21 < c then 5 else Config.params.bandRom s.blk.scanId c) := by
  obtain ⟨h1, h2⟩ := h.scan hv
  unfold bandOf bandLimit
  split
  · rfl
  · next hb =>
    have := Config.params_lawful.band_range s.blk.scanId c h1 (by unfold bandLimit; omega) (by rw [h2]; exact hc)
    rw [if_neg (by omega)]

theorem neighbours_of_block {s : State} {c : Nat} (h : BlkLegal s.blk) (hv : s.blk.valid = true) (h1 : 1 ≤ c) (hc : c < coefCount s) :
    badNeighbours (Config.params.nbRom s.blk.scanId c) c = false := by
  obtain ⟨hs, hl⟩ := h.scan hv
  obtain ⟨hcnt, h0, hn⟩ := Config.params_lawful.neighbours s.blk.scanId c hs h1 (by rw [hl]; exact hc)
  unfold badNeighbours
  rcases hcnt with e | e
  · simp [e]; omega
  · have := hn e; simp [e]; omega

theorem context_of_block {s : State} {c col row : Nat} (h : BlkLegal s.blk) (hv : s.blk.valid = true) (h1 : 1 ≤ c) (hc : c < coefCount s) :
    contextOf Config.params s c col row = .ok (combinedContext Config.params s (Config.params.nbRom s.blk.scanId c)) := by
  unfold contextOf
  rw [if_neg (by omega), neighbours_of_block h hv h1 hc]
  have : combinedContext Config.params s (Config.params.nbRom s.blk.scanId c) ≤ 5 := Config.params_lawful.combine_range _ _
  rw [if_neg (by decide), if_neg (by omega)]

end Sys2Proof.Machine
end

