-- ==== Sys2Proof/Machine/Assembler.lean ====
section
/-! DEFINITION. The assembler syntax of R50 and the pseudo-instructions of R51: a line of text to the commands it stands for.
It is no part of the machine; it is the notation the spec writes commands in. -/

namespace Sys2Proof.Machine

/-- The digit a character stands for, at most 15. -/
def digitValue (c : Char) : Option Nat :=
  if 48 ≤ c.toNat ∧ c.toNat ≤ 57 then some (c.toNat - 48)
  else if 97 ≤ c.toNat ∧ c.toNat ≤ 102 then some (c.toNat - 87)
  else if 65 ≤ c.toNat ∧ c.toNat ≤ 70 then some (c.toNat - 55)
  else none

/-- The digits' value in a base, onto `v`. -/
def digitsOnto (base : Nat) : Nat → List Char → Option Nat
  | v, [] => some v
  | v, c :: cs =>
    match digitValue c with
    | some d => if d < base then digitsOnto base (base * v + d) cs else none
    | none => none

/-- A number: decimal, or hexadecimal with `0x` (R50). -/
def parseNumber : List Char → Option Nat
  | [] => none
  | '0' :: 'x' :: c :: cs => digitsOnto 16 0 (c :: cs)
  | cs => digitsOnto 10 0 cs

/-- A symbolic operand by its code, or a number. -/
def parseCode (names : List (String × Nat)) (cs : List Char) : Option Nat :=
  match names.find? fun n => n.1.toList == cs with
  | some n => some n.2
  | none => parseNumber cs

def sizeNames : List (String × Nat) := [("4x4", 0), ("8x8", 1), ("16x16", 2), ("32x32", 3)]
def txTypeNames : List (String × Nat) := [("DCT_DCT", 0), ("ADST_DCT", 1), ("DCT_ADST", 2)]
def refNames : List (String × Nat) := [("intra", 0), ("inter", 1)]
def tokenNames : List (String × Nat) :=
  [("ZERO", 0), ("ONE", 1), ("TWO", 2), ("THREE", 3), ("FOUR", 4), ("CATEGORY1", 5), ("CATEGORY2", 6), ("CATEGORY3", 7),
   ("CATEGORY4", 8), ("CATEGORY5", 9), ("CATEGORY6", 10), ("END_OF_BLOCK", 11), ("END_OF_SUPERBLOCK", 12)]

/-- The symbolic names an operand position accepts (R50): only `SIZE`, `TXTYPE`, `REF` of format G, and `TOKEN`. -/
def operandNames (mnemonic : String) (position : Nat) : List (String × Nat) :=
  if mnemonic == "BLOCK_START" then
    if position = 0 then sizeNames else if position = 1 then txTypeNames else if position = 3 then refNames else []
  else if mnemonic == "TC_WRITE" then (if position = 1 then tokenNames else [])
  else []

/-- The widths of a mnemonic's operands in the order of R50, which is the order of the format's fields (R43), with the
opcode and the fields' lowest bits. -/
def operandFields : List (String × Nat × List (Nat × Nat)) :=
  [ ("NOP", 0x00, []), ("CLEAR_ERR", 0x01, []), ("RESET_DEFAULTS", 0x03, []), ("CLEAR_COUNTS", 0x04, []),
    ("FWD_UPDATE", 0x31, []), ("ADAPT", 0x38, []),
    ("SET_CONFIG", 0x02, [(8, 1), (9, 1), (10, 1)]),
    ("EC_CLEAR", 0x1B, [(8, 1), (9, 1)]),
    ("BLOCK_START", 0x10, [(8, 2), (10, 2), (12, 2), (14, 1)]),
    ("SCAN_LOOKUP", 0x11, [(8, 10)]),
    ("BAND_LOOKUP", 0x12, [(8, 10)]),
    ("CTX_DERIVE", 0x18, [(8, 10), (18, 16), (34, 16)]),
    ("COEF_LOOKUP", 0x21, [(8, 10), (18, 16), (34, 16)]),
    ("TC_WRITE", 0x19, [(8, 10), (18, 4)]),
    ("EC_WRITE", 0x1A, [(8, 1), (18, 16), (34, 16)]),
    ("PROB_READ", 0x20, [(8, 1), (9, 1), (10, 3), (13, 3)]),
    ("COUNT_READ", 0x25, [(8, 1), (9, 1), (10, 3), (13, 3), (16, 4)]),
    ("COUNT_RECORD", 0x23, [(8, 1), (9, 1), (10, 3), (13, 3), (16, 4), (20, 1)]),
    ("COUNT_ADD", 0x24, [(8, 1), (9, 1), (10, 3), (13, 3), (16, 4), (20, 1), (21, 32)]),
    ("PROB_WRITE", 0x22, [(8, 1), (9, 1), (10, 3), (13, 3), (16, 4), (20, 8)]),
    ("SUBEXP_UPDATE", 0x30, [(8, 8)]),
    ("MODEL_EXPAND", 0x32, [(8, 8)]) ]

/-- Places each operand in its field, from operand `position` on; an operand too many, too few or too wide fits none. -/
def placeOperands (mnemonic : String) : Nat → List (Nat × Nat) → List (List Char) → Nat → Option Nat
  | _, [], [], acc => some acc
  | position, (lo, width) :: fields, op :: ops, acc =>
    match parseCode (operandNames mnemonic position) op with
    | some v => if v < 2 ^ width then placeOperands mnemonic (position + 1) fields ops (acc + 2 ^ lo * v) else none
    | none => none
  | _, _, _, _ => none

/-- A list of characters cut at every comma. -/
def splitCommas : List Char → List (List Char)
  | [] => [[]]
  | c :: cs =>
    if c == ',' then [] :: splitCommas cs
    else
      match splitCommas cs with
      | [] => [[c]]
      | part :: parts => (c :: part) :: parts

/-- Without the spaces at either end. -/
def trimSpaces (cs : List Char) : List Char := ((cs.dropWhile (· == ' ')).reverse.dropWhile (· == ' ')).reverse

/-- The mnemonic of a line and its operands. -/
def splitLine (cs : List Char) : List Char × List (List Char) :=
  let rest := trimSpaces ((trimSpaces cs).dropWhile (· != ' '))
  ((trimSpaces cs).takeWhile (· != ' '), if rest == [] then [] else (splitCommas rest).map trimSpaces)

/-- The command words of one line (R50, R51); none where the line is no command. -/
def assemble (line : String) : Option (List Word) :=
  let parts := splitLine line.toList
  if parts.1 == "EC_CLEAR_ALL".toList && parts.2 == [] then some (ecClearAll.map encode)
  else if parts.1 == "SEQ_RESET".toList && parts.2 == [] then some (seqReset.map encode)
  else
    match operandFields.find? fun f => f.1.toList == parts.1 with
    | some (name, opc, fields) => (placeOperands name 0 fields parts.2 opc).map fun w => [BitVec.ofNat 64 w]
    | none => none

end Sys2Proof.Machine
end

