-- ==== Sys2Proof/Tests/Slice0.lean ====
section
/-! SUPPORT. Tests. Every expected value is the spec's: the field layouts of 30_encoding.md, the tables and the vectors of
95_test_vectors.md (named L2.x and L3 in the comments), computed there under the test configuration T0. After them, for each statement
with hypotheses, a state and operands that meet them. -/

namespace Sys2Proof.Machine

/-! The well-formedness check refuses an operand that does not fit its field (R43). -/

theorem test_wf_plane : ¬ WellFormed (.blockStart .s4x4 .dctDct 4 .intra) := by decide
theorem test_wf_scan_index : ¬ WellFormed (.scanLookup 1024) := by decide
theorem test_wf_band_index : ¬ WellFormed (.bandLookup 1024) := by decide
theorem test_wf_ctx_index : ¬ WellFormed (.ctxDerive 1024 0 0) := by decide
theorem test_wf_ctx_col : ¬ WellFormed (.ctxDerive 0 65536 0) := by decide
theorem test_wf_ctx_row : ¬ WellFormed (.ctxDerive 0 0 65536) := by decide
theorem test_wf_tc_index : ¬ WellFormed (.tcWrite 1024 .zero) := by decide
theorem test_wf_ec_col : ¬ WellFormed (.ecWrite true 65536 0) := by decide
theorem test_wf_ec_row : ¬ WellFormed (.ecWrite true 0 65536) := by decide
theorem test_wf_coef_index : ¬ WellFormed (.coefLookup 1024 0 0) := by decide
theorem test_wf_coef_col : ¬ WellFormed (.coefLookup 0 65536 0) := by decide
theorem test_wf_coef_row : ¬ WellFormed (.coefLookup 0 0 65536) := by decide

/-- The cell `(cls, ref, band, ctx)`, as the assembler names it. -/
def cellAt (cls ref band ctx : Nat) : CellRef := { cls := classOfCode cls, ref := refOfCode ref, band := band, ctx := ctx }

theorem test_wf_band : ¬ WellFormed (.probRead (cellAt 0 0 8 0)) := by decide
theorem test_wf_ctx : ¬ WellFormed (.probRead (cellAt 0 0 0 8)) := by decide
theorem test_wf_write_cell : ¬ WellFormed (.probWrite (cellAt 0 0 8 0) 0 1#8) := by decide
theorem test_wf_write_node : ¬ WellFormed (.probWrite (cellAt 0 0 0 0) 16 1#8) := by decide
theorem test_wf_record_cell : ¬ WellFormed (.countRecord (cellAt 0 0 0 8) 0 true) := by decide
theorem test_wf_record_node : ¬ WellFormed (.countRecord (cellAt 0 0 0 0) 16 true) := by decide
theorem test_wf_add_cell : ¬ WellFormed (.countAdd (cellAt 0 0 8 0) 0 true 0) := by decide
theorem test_wf_add_node : ¬ WellFormed (.countAdd (cellAt 0 0 0 0) 16 true 0) := by decide
theorem test_wf_add_amount : ¬ WellFormed (.countAdd (cellAt 0 0 0 0) 0 true 4294967296) := by decide
theorem test_wf_read_cell : ¬ WellFormed (.countRead (cellAt 0 0 8 0) 0) := by decide
theorem test_wf_read_node : ¬ WellFormed (.countRead (cellAt 0 0 0 0) 16) := by decide

/-! Decoding: one word of each command, from the words that 40_control.md to 45_backward_adapt.md and 95_test_vectors.md write out. -/

theorem test_decode_control :
    decode 0x0000000000000000#64 = .command .nop ∧ decode 0x0000000000000001#64 = .command .clearErr ∧
    decode 0x0000000000000402#64 = .command (.setConfig false false true) ∧
    decode 0x0000000000000003#64 = .command .resetDefaults ∧ decode 0x0000000000000004#64 = .command .clearCounts := by decide

theorem test_decode_scan :
    decode 0x0000000000006A10#64 = .command (.blockStart .s16x16 .dctAdst 2 .inter) ∧
    decode 0x0000000000000F11#64 = .command (.scanLookup 15) ∧ decode 0x000000000003FF12#64 = .command (.bandLookup 1023) := by decide

theorem test_decode_context :
    decode 0x0000003C0FFC0518#64 = .command (.ctxDerive 5 1023 15) ∧ decode 0x0000000000280019#64 = .command (.tcWrite 0 .category6) ∧
    decode 0x000000300FF0011A#64 = .command (.ecWrite true 1020 12) ∧ decode 0x000000000000011B#64 = .command (.ecClear true false) := by
  decide

theorem test_decode_probability :
    decode 0x000000000000E020#64 = .command (.probRead (cellAt 0 0 0 7)) ∧
    decode 0x000000000FFC0021#64 = .command (.coefLookup 0 1023 0) ∧
    decode 0x000000000FFA0022#64 = .command (.probWrite (cellAt 0 0 0 0) 10 255#8) := by decide

theorem test_decode_counts :
    decode 0x00000000001AB723#64 = .command (.countRecord (cellAt 1 1 5 5) 10 true) ∧
    decode 0x000000000C800024#64 = .command (.countAdd (cellAt 0 0 0 0) 0 false 100) ∧
    decode 0x00000000000AB725#64 = .command (.countRead (cellAt 1 1 5 5) 10) := by decide

theorem test_decode_update :
    decode 0x0000000000008030#64 = .command (.subexpUpdate 128#8) ∧ decode 0x0000000000000031#64 = .command .fwdUpdate ∧
    decode 0x000000000000C832#64 = .command (.modelExpand 200#8) ∧ decode 0x0000000000000038#64 = .command .adapt := by decide

/-- L2.1 and L2.5: undefined opcodes and reserved bits. -/
theorem test_decode_illegal :
    decode 0x0000000000000005#64 = .badOpcode ∧ decode 0x00000000000000FF#64 = .badOpcode ∧
    decode 0x0000000000000039#64 = .badOpcode ∧ decode 0x8000000000000000#64 = .reservedField ∧
    decode 0x0000000000000101#64 = .reservedField ∧ decode 0x0000000000000802#64 = .reservedField ∧
    decode 0x000000000000021A#64 = .reservedField := by decide

theorem test_encode_words :
    encode (.blockStart .s8x8 .dctAdst 1 .inter) = 0x5910#64 ∧ encode (.tcWrite 3 .three) = 0xC0319#64 ∧
    encode (.probWrite (cellAt 1 0 2 3) 4 200#8) = 0xC846922#64 ∧ encode (.countAdd (cellAt 0 0 0 0) 0 true 0x20) = 0x4100024#64 := by
  decide

theorem test_table_word : decodeTableWord 64 0x6A10 = some (.blockStart .s16x16 .dctAdst 2 .inter) ∧ decodeTableWord 64 0x05 = none := by
  decide

/-! The assembler notation (R50, R51). -/

theorem test_assemble_symbols : assemble "BLOCK_START 8x8, DCT_ADST, 1, inter" = some [0x5910#64] ∧
    assemble "TC_WRITE 3, THREE" = some [0xC0319#64] := by decide
theorem test_assemble_numbers : assemble "COUNT_ADD 0, 0, 0, 0, 0, 1, 0x20" = some [0x4100024#64] ∧
    assemble "PROB_WRITE 1, 0, 2, 3, 4, 200" = some [0xC846922#64] := by decide
theorem test_assemble_pseudo : assemble "EC_CLEAR_ALL" = some [0x31B#64] ∧ assemble "SEQ_RESET" = some [0x3#64, 0x4#64] := by decide
theorem test_assemble_refuses : assemble "SCAN_LOOKUP 1024" = none ∧ assemble "NOP 0" = none := by decide

/-! The test configuration T0 of 95_test_vectors.md, as far as these tests read it: the 4x4 tables, and the parameters. -/

def scanT0 : List (List Nat) :=
  [[0, 4, 1, 5, 8, 2, 12, 9, 3, 6, 13, 10, 7, 14, 11, 15], [0, 1, 4, 2, 5, 3, 6, 8, 9, 7, 12, 10, 13, 11, 14, 15],
   [0, 4, 8, 1, 12, 5, 9, 2, 13, 6, 10, 3, 7, 14, 11, 15]]

def neighboursT0 : List (List Nat) := [[], [0], [0], [2, 1], [1], [2], [4], [3, 4], [5], [5, 3]]

def bandsT0 : List Nat := [0, 1, 1, 2, 2, 2, 3, 3, 3, 3, 4, 4, 4, 4, 4, 5, 5, 5, 5, 5, 5, 5]

/-- `MERGE_T0`. -/
def mergeT0 (pre : Byte) (c0 c1 : Count) : Byte :=
  let n := c0.toNat + c1.toNat
  if n = 0 then pre
  else
    let e := clipProb ((256 * c0.toNat + n / 2) / n)
    let f := 112 * min n 24 / 24
    let r := (pre.toNat * (256 - f) + e * f + 128) / 256
    if c1.toNat = 0 ∧ pre.toNat < 255 ∧ r ≤ pre.toNat then BitVec.ofNat 8 (pre.toNat + 1)
    else if c0.toNat = 0 ∧ 1 < pre.toNat ∧ pre.toNat ≤ r then BitVec.ofNat 8 (pre.toNat - 1)
    else BitVec.ofNat 8 r

def T0 : Params where
  u := 3
  aboveEntries := 1024
  leftEntries := 16
  adaptMinCount := 1
  windowBase := 0
  defaultPt := fun i => BitVec.ofNat 8 (1 + 40 * (i / 66 % 6) + 6 * (i / 11 % 6) + i % 11)
  scanRom := fun s c => (scanT0.getD s []).getD c 0
  nbRom := fun _ c =>
    { cnt := (neighboursT0.getD c [0]).length, nb0 := (neighboursT0.getD c [0]).getD 0 0, nb1 := (neighboursT0.getD c [0]).getD 1 0 }
  bandRom := fun _ c => bandsT0.getD c 0
  compactRom := fun r j => BitVec.ofNat 8 (1 + (r + 16 * j) % 255)
  ctxCombine := ctxCombineDefault
  mergeFn := mergeT0

/-- The next state, or the state after reset where there is none. -/
def after : Result → State
  | .next t => t
  | .fault _ => State.reset
  | .refused _ => State.reset

/-- The unit with the latched block a BLOCK_START leaves. -/
def withBlock (z : TxSize) (k : TxType) (p : Nat) : State := after (execBlockStart z k p .intra State.reset)

/-- The unit with a bit source that gives these answers: 0 and 1 are bits, 2 an answer with `valid = 0`. -/
def withAnswers (bs : List Nat) (s : State) : State :=
  s.setPort { answers := bs.map fun b => { bit := b == 1, valid := b != 2 }, requests := [] }

/-- `RES0` and `RES1`. -/
def results (s : State) : Word × Word := (s.res0, s.res1)

/-! Control (L2.1). -/

theorem test_set_config : cfgWord (after (execSetConfig true true true State.reset)).cfg = 0x7#64 := by decide
theorem test_bad_opcode_interrupt :
    statusWord (after (issueWord 0x05#64 (after (execSetConfig false false true State.reset)))) = 0x10511#64 := by decide
theorem test_reserved_field : statusWord (after (issueWord 0x101#64 State.reset)) = 0x121#64 := by decide
theorem test_halted_ignores : after (issueWord 0x302#64 (after (issueWord 0xFF#64 State.reset))) = after (issueWord 0xFF#64 State.reset) := by
  decide
theorem test_clear_err : after (issueWord 0x01#64 (after (issueWord 0xFF#64 State.reset))) = State.reset := by decide
theorem test_nop : after (issueWord 0x00#64 State.reset) = State.reset := by decide

/-! Scan and band (L2.2). -/

theorem test_block_start : blkWord (after (issueWord 0x6A10#64 State.reset)).blk = 0x18D5#64 := by decide
theorem test_block_start_geometry : statusWord (after (issueWord 0xB10#64 State.reset)) = 0x1041#64 := by decide
theorem test_scan_lookup : results (after (scanLookup T0 3 (withBlock .s4x4 .dctAdst 0))) = (0#64, 0x1000000#64) := by decide
theorem test_scan_lookup_range : statusWord (after (scanLookup T0 16 (withBlock .s4x4 .dctDct 0))) = 0x1151#64 := by decide
theorem test_band_lookup : results (after (bandLookup T0 6 (withBlock .s4x4 .dctDct 0))) = (0#64, 0x0000000C00000000#64) := by decide
theorem test_band_lookup_last : results (after (bandLookup T0 1023 (withBlock .s32x32 .dctDct 0))) = (0#64, 0x1400000000#64) := by decide

/-! Token cache and context (L2.3, L2.4). -/

theorem test_tc_write : readTc (after (execTcWrite 0 .category6 (withBlock .s4x4 .dctDct 0))) 0 = .atLeastTwo := by decide
theorem test_tc_write_order : statusWord (after (execTcWrite 16 .endOfBlock (withBlock .s4x4 .dctDct 0))) = 0x1951#64 := by decide

/-- L2.4-5: neighbours of classes 1 and 2 give context 4. -/
theorem test_ctx_derive :
    results (after (ctxDerive T0 3 0 0 (writeTc (writeTc (withBlock .s4x4 .dctDct 0) 2 .one) 1 .atLeastTwo))) = (0#64, 0x8000000000#64) := by
  decide

/-- L2.4-3: a single neighbour counts twice. -/
theorem test_ctx_derive_single :
    (after (ctxDerive T0 1 0 0 (writeTc (withBlock .s4x4 .dctDct 0) 0 .atLeastTwo))).res1 = 0xA000000000#64 := by decide

/-- The block of L2.4-8 to 14: an 8x8 block after EC_WRITE 1, 5, 3. -/
def edgesSet : State := after (ecWrite T0 true 5 3 (withBlock .s8x8 .dctDct 0))

theorem test_ctx_first : (after (ctxDerive T0 0 4 0 edgesSet)).res1 = 0x2000000000#64 ∧ (after (ctxDerive T0 0 4 2 edgesSet)).res1 = 0x4000000000#64 := by
  decide
theorem test_ctx_first_bounds : (after (ctxDerive T0 0 1022 0 edgesSet)).res1 = 0#64 ∧ statusWord (after (ctxDerive T0 0 1023 0 edgesSet)) = 0x1851#64 := by
  decide

/-- L2.4, its last vector: a neighbour entry that breaks R66's law, which a lawful configuration does not have. -/
theorem test_ctx_rom_fault :
    statusWord (after (ctxDerive { T0 with nbRom := fun _ _ => { cnt := 0, nb0 := 0, nb1 := 0 } } 1 0 0 (withBlock .s4x4 .dctDct 0))) = 0x1893#64 := by
  decide

/-! Entropy context (L2.5). -/

theorem test_ec_write :
    let t := after (ecWrite T0 true 6 0 (withBlock .s8x8 .dctDct 1))
    [readAc t 1 5, readAc t 1 6, readAc t 1 7, readAc t 1 8, readAc t 0 6] = [false, true, true, false, false] ∧
    [readLc t 1 0, readLc t 1 1, readLc t 1 2, readLc t 0 0] = [true, true, false, false] := by decide
theorem test_ec_write_range : statusWord (after (ecWrite T0 true 1021 0 (withBlock .s16x16 .dctAdst 2))) = 0x1A51#64 := by decide
theorem test_ec_clear : readAc (after (execEcClear true false edgesSet)) 0 5 = false ∧ readLc (after (execEcClear true false edgesSet)) 0 3 = true := by
  decide

/-! Probability store (L2.6). -/

theorem test_prob_read : results (after (probRead T0 (cellAt 1 1 5 5) State.reset)) = (0xEEEDECEBEAE9E8E7#64, 0x0000000000F1F0EF#64) := by
  decide
theorem test_prob_read_compact :
    results (after (probRead T0 (cellAt 0 0 0 0) (after (execSetConfig true true false State.reset)))) =
      (0x6454443424030201#64, 0x0000000000948474#64) := by decide

/-- P1 step 8. -/
theorem test_coef_lookup :
    results (after (coefLookup T0 3 0 0 (writeTc (withBlock .s4x4 .dctDct 0) 0 .atLeastTwo))) = (0x5857565554535251#64, 0x00000008055B5A59#64) := by
  decide

/-- P1 step 4. -/
theorem test_coef_lookup_context :
    results (after (coefLookup T0 1 0 0 (writeTc (withBlock .s4x4 .dctDct 0) 0 .atLeastTwo))) = (0x4E4D4C4B4A494847#64, 0x000000A40451504F#64) := by
  decide
theorem test_prob_write : readPt T0 (after (probWrite T0 (cellAt 0 0 0 0) 10 255#8 State.reset)) 10 = 255#8 := by decide
theorem test_prob_write_order : statusWord (after (probWrite T0 (cellAt 0 0 6 0) 11 0#8 State.reset)) = 0x2251#64 := by decide
theorem test_reset_defaults : readPt T0 (after (execResetDefaults (writePt T0 State.reset 0 99#8))) 0 = 1#8 := by decide

/-! Counts (L2.7). -/

theorem test_count_record_saturates :
    readCt (after (execCountRecord (cellAt 1 1 5 5) 10 true (writeCt State.reset 1583 true 0xFFFFFFFF#32))) 1583 true = 0xFFFFFFFF#32 := by decide
theorem test_count_record_order : statusWord (after (execCountRecord (cellAt 0 0 6 0) 11 false State.reset)) = 0x2351#64 := by decide
theorem test_count_add : readCt (after (execCountAdd (cellAt 0 0 0 0) 0 false 100 State.reset)) 0 false = 100#32 := by decide
theorem test_count_add_node : statusWord (after (execCountAdd (cellAt 0 0 0 0) 12 false 5 State.reset)) = 0x2463#64 := by decide
theorem test_count_read :
    results (after (execCountRead (cellAt 1 1 5 5) 10 (writeCt State.reset 1583 true 0xFFFFFFFF#32))) = (0xFFFFFFFF00000000#64, 0#64) := by decide
theorem test_clear_counts : readCt (after (execClearCounts (writeCt State.reset 0 false 7#32))) 0 false = 0#32 := by decide

/-! Forward update (L2.8). -/

theorem test_imap : [0, 5, 15, 16, 31, 32, 63, 64, 100, 128, 129, 130, 200, 253, 254].map imap =
    [7, 72, 202, 215, 13, 14, 48, 49, 88, 118, 119, 120, 196, 253, 253] := by decide
theorem test_inv_remap : [(128, 1), (128, 19), (128, 20), (200, 21), (255, 254), (1, 254), (64, 100), (2, 0)].map (fun x => invRemap x.2 x.1) =
    [138, 255, 127, 199, 2, 254, 108, 8] := by decide
theorem test_subexp_update :
    let t := after (execSubexpUpdate 128#8 (withAnswers [1, 0, 0, 0, 0, 0, 1] State.reset))
    t.res0 = 0x17C#64 ∧ t.port.requests.length = 6 ∧ t.port.requests = [128#8, 128#8, 128#8, 128#8, 128#8, 252#8] := by decide
theorem test_subexp_underrun :
    let t := after (execSubexpUpdate 128#8 (withAnswers [1, 0, 0, 2] State.reset))
    statusWord t = 0x30A3#64 ∧ t.res0 = 0#64 ∧ t.port.requests.length = 4 := by decide

/-- L2.8-10 cut short, with R93: the first entry becomes 8 and stays so when the source runs out at the third. -/
theorem test_fwd_update_underrun :
    let t := after (fwdUpdate T0 (withAnswers [1, 0, 0, 0, 0, 0, 0, 2] State.reset))
    statusWord t = 0x31A3#64 ∧ t.pt = [(0, 8#8)] := by decide

/-- L2.8-8: with the compact model on, 432 requests. -/
theorem test_fwd_update_compact_visits : (fwdOrder (signalledNodes T0 true)).length = 432 ∧ (fwdOrder 3).take 5 = [0, 1, 2, 11, 12] := by
  decide +kernel

/-! Compact model and adaptation (L2.9, L2.10). -/

theorem test_model_expand : results (after (modelExpand T0 200#8 State.reset)) = (0x2A1A0AF9E9000000#64, 0x00000000005A4A3A#64) := by decide
theorem test_model_expand_zero : statusWord (after (modelExpand T0 0#8 State.reset)) = 0x3281#64 := by decide
theorem test_adapt_entry : adaptedProb T0 (writeCt State.reset 0 false 100#32) 0 1#8 = 112#8 := by decide
theorem test_adapt_loop : adaptLoop T0 (writeCt State.reset 5 false 100#32) (List.range 12) [] = [(5, 115#8)] := by decide
theorem test_adapt_off :
    after (adapt T0 (writeCt (after (execSetConfig false false false State.reset)) 0 true 50#32)) = after (execSetConfig false false false State.reset) := by
  decide

/-! The window (L2.11). -/

theorem test_cap : capWord T0 = 0x01FC001004002023#64 := by decide
theorem test_window_bytes : (List.finRange 8).map (fun j => windowByte T0 (after (probRead T0 (cellAt 0 0 0 0) State.reset)) ⟨0x18 + j.val, by omega⟩) =
    [1#8, 2#8, 3#8, 4#8, 5#8, 6#8, 7#8, 8#8] := by decide
theorem test_window_refuses : (match takeEvent T0 (.load 0x18 1) State.reset with | .refused .unspecifiedAccess => true | _ => false) = true := by
  decide
theorem test_window_ignores : after (takeEvent T0 (.store 0x08 8 0xFFFF#64) State.reset) = State.reset := by decide

/-- R117: a reset in the middle of a command drops its request and keeps the answers not given. -/
theorem test_reset_during :
    (after (takeEvent T0 (.resetDuring 0x8030#64 2) (withAnswers [1, 0, 0, 0, 0, 0] State.reset))).port =
      { answers := List.replicate 4 { bit := false, valid := true }, requests := [128#8, 128#8, 252#8] } := by decide

/-- A table word becomes the next command. -/
theorem test_with_fetch_word : cfgWord (after (step (State.reset.withFetchWord 64 0x702))).cfg = 0x7#64 := by decide

/-! The hypotheses of the statements can be met: for each, states and operands that do, at the edges of their ranges. -/

/-- The unit with this host access next. -/
def facing (e : HostEvent) (s : State) : State := s.setBus { pending := [e], returned := [] }

/-- A halted unit. -/
def halted : State := after (issueWord 0xFF#64 State.reset)

theorem withBlock_legal : BlkLegal (withBlock .s4x4 .dctDct 0).blk ∧ BlkLegal (withBlock .s8x8 .dctAdst 2).blk ∧
    BlkLegal (withBlock .s32x32 .dctDct 1).blk :=
  ⟨.inr ⟨rfl, by decide, by decide, by decide⟩, .inr ⟨rfl, by decide, by decide, by decide⟩, .inr ⟨rfl, by decide, by decide, by decide⟩⟩

theorem reset_inv : Inv Config.params State.reset :=
  { canonical := reset_memories_canonical _
    indices := { pt := by simp [State.reset], ct := by simp [State.reset], tc := by simp [State.reset], ac := by simp [State.reset], lc := by simp [State.reset] }
    probs := Config.params_lawful.default_range
    blk := .inl rfl
    status := .inl rfl }

theorem witness_DecodeOfEncodeIsTheCommand : WellFormed (.countAdd (cellAt 1 1 7 7) 15 true 4294967295) ∧
    WellFormed (.coefLookup 1023 65535 65535) ∧ WellFormed (.blockStart .s32x32 .code3 3 .inter) :=
  ⟨by simp [WellFormed, Instr.wellFormed, CellRef.wellFormed, cellAt], by decide, by decide⟩
theorem witness_DecodedWordIsTheEncoding : ∃ w i, decode w = .command i := ⟨_, _, test_decode_counts.2.1⟩
theorem witness_VerdictsFollowMatchAndMask_reserved :
    ∃ w : Word, ∃ r ∈ opcodeTable, opcByte w = opcByte r.1 ∧ w &&& r.2 ≠ r.1 :=
  ⟨0x21A#64, (0x1A#64, 0xFFFC00000003FEFF#64), by decide, by decide, by decide⟩
theorem witness_VerdictsFollowMatchAndMask_unknown : ∃ w : Word, ∀ r ∈ opcodeTable, opcByte w ≠ opcByte r.1 := ⟨0x05#64, by
  have h : (opcodeTable.all fun r => opcByte 0x05#64 != opcByte r.1) = true := by decide
  intro r hr
  simpa using List.all_eq_true.mp h r hr⟩
theorem witness_StepRunsTheDecodedCommand : ∃ (s : State) (w : Word) (i : Instr) (rest : List HostEvent),
    s.bus.pending = .store 0 8 w :: rest ∧ s.status.err = false ∧ decode w = .command i :=
  ⟨facing (.store 0 8 0x38#64) State.reset, 0x38#64, .adapt, [], rfl, rfl, by decide⟩
theorem witness_HaltedUnitOnlyTakesClearErr (w : Word) :
    (facing (.store 0 8 w) halted).bus.pending = .store 0 8 w :: [] ∧ (facing (.store 0 8 w) halted).status.err = true :=
  ⟨rfl, rfl⟩
theorem witness_DecodeChecksComeFirst (w : Word) :
    (facing (.store 0 8 w) State.reset).bus.pending = .store 0 8 w :: [] ∧ (facing (.store 0 8 w) State.reset).status.err = false :=
  ⟨rfl, rfl⟩
theorem witness_DecodeChecksComeFirst_opcode : undefinedOpcode (opcByte 0x39#64) ∧ undefinedOpcode (opcByte 0xFF#64) ∧
    ¬ undefinedOpcode (opcByte 0x38#64) := by unfold undefinedOpcode; decide
theorem witness_UnspecifiedAccessIsRefused (e : HostEvent) : (facing e State.reset).bus.pending = e :: [] ∧
    ((1 : Fin 64).val % 8 ≠ 0 ∨ 8 ≠ 8) ∧ ((0x18 : Fin 64).val % 8 ≠ 0 ∨ 4 ≠ 8) := ⟨rfl, by decide, by decide⟩
theorem witness_WindowAccessesReadTheRegisters (e : HostEvent) : (facing e State.reset).bus.pending = e :: [] ∧
    (0x00 : Fin 64).val % 8 = 0 ∧ (0x38 : Fin 64).val % 8 = 0 := ⟨rfl, by decide, by decide⟩
theorem witness_LanesSitAtWindowBytes : ∃ t, exec (.probRead (cellAt 1 1 5 5)) State.reset = .next t ∧ (5 < 6 ∧ 5 < 6) :=
  ⟨_, rfl, by decide⟩
theorem witness_ResetSetsEveryValue :
    (facing .reset halted).bus.pending = .reset :: [] ∧
    ∃ w n, (facing (.resetDuring 0x31#64 1583) halted).bus.pending = .resetDuring w n :: [] := ⟨rfl, 0x31#64, 1583, rfl⟩

/-- The unit with a source that gives these bits and then does not answer. -/
def withBits (bs : List Bool) : State := State.reset.setPort { answers := validAnswers bs, requests := [] }

/-- Silent at the first request, and at the last of the longest code. -/
theorem witness_UnansweredRequestIsStuck : (1#8 : Byte) ≠ 0#8 ∧ (∀ w, some 254 = some w → w ≤ 254) ∧
    0 < (updateCode none).length ∧ (withBits []).port.answers = validAnswers ((updateCode none).take 0) ∧
    11 < (updateCode (some 254)).length ∧
    (withBits ((updateCode (some 254)).take 11)).port.answers = validAnswers ((updateCode (some 254)).take 11) ∧
    5 < (streamCode (fun _ => none) (visitedEntries (withBits [false, false, false, false, false]))).length ∧
    (withBits [false, false, false, false, false]).port.answers =
      validAnswers ((streamCode (fun _ => none) (visitedEntries (withBits [false, false, false, false, false]))).take 5) :=
  ⟨by decide, by simp, by decide, rfl, by decide, rfl, by decide +kernel, rfl⟩
theorem witness_StepKeepsInvariant : ∃ s t : State, Inv Config.params s ∧ step s = .next t := ⟨State.reset, State.reset, reset_inv, rfl⟩
theorem witness_StoredProbabilitiesStayInRange :
    (∀ k, k < 1584 → readPt Config.params State.reset k ≠ 0#8) ∧ ∃ t, exec .adapt State.reset = .next t :=
  ⟨Config.params_lawful.default_range, _, rfl⟩
theorem witness_OnlyErrorsAndClearErrWriteStatus : (∃ t, exec .clearErr halted = .next t) ∧ ∃ t, exec (.scanLookup 0) State.reset = .next t :=
  ⟨⟨_, rfl⟩, _, rfl⟩
theorem witness_FailedCommandChangesOnlyStatus :
    (∃ t, exec (.scanLookup 0) State.reset = .next t ∧ t.status.err = true) ∧
    (∃ t, exec (.subexpUpdate 128#8) (withAnswers [1, 2] State.reset) = .next t ∧ t.status.err = true) ∧
    (∃ t, exec .fwdUpdate (withAnswers [2] State.reset) = .next t ∧ t.status.err = true) ∧ State.reset.status.err = false :=
  ⟨⟨_, rfl, rfl⟩, ⟨_, rfl, rfl⟩, ⟨_, rfl, rfl⟩, rfl⟩
theorem witness_EachStateHasItsWriters : ∃ t, exec (.ecClear true true) State.reset = .next t := ⟨_, rfl⟩
theorem witness_InterruptFollowsTheErrorLevel :
    ∃ s t : State, exec (.scanLookup 0) s = .next t ∧ s.status.err = false ∧ t.status.err = true ∧ t.cfg.irqEn = true :=
  ⟨after (execSetConfig false true true State.reset), _, rfl, rfl, rfl, rfl⟩
theorem witness_GeometrySelectsScanAndClass : illegalGeometry .s4x4 .dctAdst 0 = false ∧ illegalGeometry .s32x32 .dctDct 0 = false := by decide
theorem witness_BlockStartLatchesTheGeometry : (3 : Nat) < 4 ∧ (2 : Nat) < 4 ∧ (2 : Nat) ≠ 3 ∧ TxType.dctAdst ≠ .code3 ∧
    ¬(TxSize.s16x16 = .s32x32 ∧ TxType.dctAdst ≠ .dctDct) := by decide
theorem witness_ScanLookupReturnsThePosition : State.reset.blk.valid = false ∧ (withBlock .s4x4 .dctDct 0).blk.valid = true ∧
    coefCount (withBlock .s4x4 .dctDct 0) ≤ 16 ∧ 15 < coefCount (withBlock .s4x4 .dctDct 0) := by decide
theorem witness_ScanVisitsEveryPositionOnce :
    BlkLegal (withBlock .s4x4 .dctDct 0).blk ∧ (withBlock .s4x4 .dctDct 0).blk.valid = true ∧ 15 < coefCount (withBlock .s4x4 .dctDct 0) ∧
    (∃ t, exec (.scanLookup 0) (withBlock .s4x4 .dctDct 0) = .next t) ∧ ∃ u, exec (.scanLookup 15) (withBlock .s4x4 .dctDct 0) = .next u :=
  ⟨withBlock_legal.1, by decide, by decide, ⟨_, rfl⟩, _, rfl⟩
theorem witness_BandLookupReturnsTheBand : BlkLegal State.reset.blk ∧ State.reset.blk.valid = false ∧
    BlkLegal (withBlock .s4x4 .dctDct 0).blk ∧ (withBlock .s4x4 .dctDct 0).blk.valid = true ∧
    coefCount (withBlock .s4x4 .dctDct 0) ≤ 16 ∧ 15 < coefCount (withBlock .s4x4 .dctDct 0) :=
  ⟨.inl rfl, rfl, withBlock_legal.1, by decide, by decide, by decide⟩
theorem witness_BandsDoNotDecrease :
    BlkLegal (withBlock .s8x8 .dctAdst 2).blk ∧ (withBlock .s8x8 .dctAdst 2).blk.valid = true ∧ 63 < coefCount (withBlock .s8x8 .dctAdst 2) ∧
    (∃ t, exec (.bandLookup 22) (withBlock .s8x8 .dctAdst 2) = .next t) ∧ ∃ u, exec (.bandLookup 63) (withBlock .s8x8 .dctAdst 2) = .next u :=
  ⟨withBlock_legal.2.1, by decide, by decide, ⟨_, rfl⟩, _, rfl⟩
theorem witness_TcWriteRecordsTheClass : State.reset.blk.valid = false ∧ (withBlock .s4x4 .dctDct 0).blk.valid = true ∧
    coefCount (withBlock .s4x4 .dctDct 0) ≤ 16 ∧ 15 < coefCount (withBlock .s4x4 .dctDct 0) ∧ 11 ≤ codeOfToken .endOfBlock ∧
    codeOfToken .category6 < 11 := by decide

/-- A 4x4 block at column 0 and row 0 lies within both edge arrays of every configuration. -/
theorem first_span_fits : (withBlock .s4x4 .dctDct 0).blk.valid = true ∧
    0 + blockSpan (withBlock .s4x4 .dctDct 0) ≤ Config.params.aboveEntries ∧ 0 + blockSpan (withBlock .s4x4 .dctDct 0) ≤ Config.params.leftEntries := by
  have ha := Config.params_lawful.above_range
  have hl := Config.params_lawful.left_range
  have hs : blockSpan (withBlock .s4x4 .dctDct 0) = 1 := by decide
  rw [hs]
  exact ⟨by decide, by omega, by omega⟩

/-- A block at column 65535 does not. -/
theorem last_span_does_not_fit : ¬(65535 + blockSpan (withBlock .s4x4 .dctDct 0) ≤ Config.params.aboveEntries ∧
    0 + blockSpan (withBlock .s4x4 .dctDct 0) ≤ Config.params.leftEntries) := by
  have ha := Config.params_lawful.above_range
  have hs : blockSpan (withBlock .s4x4 .dctDct 0) = 1 := by decide
  rw [hs]; omega

theorem witness_FirstContextCountsNonzeroNeighbours :
    (false = true ↔ ∃ k, k < blockSpan (withBlock .s4x4 .dctDct 0) ∧
      readAc (withBlock .s4x4 .dctDct 0) (withBlock .s4x4 .dctDct 0).blk.plane (0 + k) = true) ∧
    (false = true ↔ ∃ k, k < blockSpan (withBlock .s4x4 .dctDct 0) ∧
      readLc (withBlock .s4x4 .dctDct 0) (withBlock .s4x4 .dctDct 0).blk.plane (0 + k) = true) :=
  ⟨⟨nofun, fun ⟨_, _, h⟩ => nomatch h⟩, ⟨nofun, fun ⟨_, _, h⟩ => nomatch h⟩⟩
theorem witness_LaterContextCombinesTheNeighbours : BlkLegal State.reset.blk ∧ State.reset.blk.valid = false ∧
    BlkLegal (withBlock .s32x32 .dctDct 1).blk ∧ (withBlock .s32x32 .dctDct 1).blk.valid = true ∧
    1023 < coefCount (withBlock .s32x32 .dctDct 1) ∧ coefCount (withBlock .s32x32 .dctDct 1) ≤ 1024 ∧ 1 ≤ 1 :=
  ⟨.inl rfl, rfl, withBlock_legal.2.2, by decide, by decide, by decide, by decide⟩
theorem witness_ContextRangeErrorNeverFires :
    ∃ t, exec (.bandLookup 22) (withBlock .s8x8 .dctAdst 2) = .next t ∧ BlkLegal (withBlock .s8x8 .dctAdst 2).blk ∧
      (withBlock .s8x8 .dctAdst 2).status.err = false := ⟨_, rfl, withBlock_legal.2.1, by decide⟩

/-- Configurations that break the law of R61, of R66 in a count, in a neighbour and in the second one, and of R67. -/
theorem witness_ContextRangeErrorNeverFires_broken :
    (withBlock .s8x8 .dctAdst 2).blk.valid = true ∧ 0 < coefCount (withBlock .s8x8 .dctAdst 2) ∧ 63 < coefCount (withBlock .s8x8 .dctAdst 2) ∧
    (0 + blockSpan (withBlock .s8x8 .dctAdst 2) ≤ T0.aboveEntries ∧ 0 + blockSpan (withBlock .s8x8 .dctAdst 2) ≤ T0.leftEntries) ∧
    5 < (Params.bandRom { T0 with bandRom := fun _ _ => 6 }) (withBlock .s8x8 .dctAdst 2).blk.scanId 21 ∧
    breaksContextLaws { T0 with nbRom := fun _ _ => { cnt := 0, nb0 := 0, nb1 := 0 } } (withBlock .s8x8 .dctAdst 2) 1 ∧
    breaksContextLaws { T0 with nbRom := fun _ _ => { cnt := 1, nb0 := 1, nb1 := 0 } } (withBlock .s8x8 .dctAdst 2) 1 ∧
    breaksContextLaws { T0 with nbRom := fun _ _ => { cnt := 2, nb0 := 0, nb1 := 63 } } (withBlock .s8x8 .dctAdst 2) 63 ∧
    breaksContextLaws { T0 with ctxCombine := fun _ _ => 6 } (withBlock .s8x8 .dctAdst 2) 1 := by
  unfold breaksContextLaws; decide
theorem witness_LookupsIgnoreTheCachePastTheBlock : BlkLegal (withBlock .s4x4 .dctDct 0).blk ∧
    ∀ k, k < coefCount (withBlock .s4x4 .dctDct 0) →
      Memory.read tcReset [(16, MagClass.one)] k = readTc (withBlock .s4x4 .dctDct 0) k :=
  ⟨withBlock_legal.1, by decide⟩
theorem witness_EcWriteMarksTheBlocksEdges : State.reset.blk.valid = false ∧ (withBlock .s4x4 .dctDct 0).blk.valid = true ∧
    (0 + blockSpan (withBlock .s4x4 .dctDct 0) ≤ Config.params.aboveEntries ∧ 0 + blockSpan (withBlock .s4x4 .dctDct 0) ≤ Config.params.leftEntries) ∧
    ¬(65535 + blockSpan (withBlock .s4x4 .dctDct 0) ≤ Config.params.aboveEntries ∧
      0 + blockSpan (withBlock .s4x4 .dctDct 0) ≤ Config.params.leftEntries) := ⟨rfl, first_span_fits.1, first_span_fits.2, last_span_does_not_fit⟩
theorem witness_CoefLookupReturnsTheLookups : BlkLegal State.reset.blk ∧ State.reset.blk.valid = false ∧
    BlkLegal (withBlock .s4x4 .dctDct 0).blk ∧ (withBlock .s4x4 .dctDct 0).blk.valid = true ∧
    coefCount (withBlock .s4x4 .dctDct 0) ≤ 16 ∧ 0 < coefCount (withBlock .s4x4 .dctDct 0) ∧ 15 < coefCount (withBlock .s4x4 .dctDct 0) ∧
    (0 + blockSpan (withBlock .s4x4 .dctDct 0) ≤ Config.params.aboveEntries ∧ 0 + blockSpan (withBlock .s4x4 .dctDct 0) ≤ Config.params.leftEntries) ∧
    ¬(65535 + blockSpan (withBlock .s4x4 .dctDct 0) ≤ Config.params.aboveEntries ∧
      0 + blockSpan (withBlock .s4x4 .dctDct 0) ≤ Config.params.leftEntries) :=
  ⟨.inl rfl, rfl, withBlock_legal.1, first_span_fits.1, by decide, by decide, by decide, first_span_fits.2, last_span_does_not_fit⟩
theorem witness_FlatIndexIsABijection : (cellAt 1 1 5 5).band < 6 ∧ (cellAt 1 1 5 5).ctx < 6 ∧ 10 < 11 ∧ ptx (cellAt 1 1 5 5) 10 = 1583 := by
  decide
theorem witness_ProbReadReturnsTheVector : (6 ≤ (cellAt 0 0 6 0).band ∨ 6 ≤ (cellAt 0 0 6 0).ctx) ∧ (cellAt 0 0 5 5).band < 6 ∧
    (cellAt 0 0 5 5).ctx < 6 := by decide

/-- COEF_LOOKUP 0, 0, 0 in a 4x4 block completes without an error. -/
theorem witness_CoefLookupEqualsTheFourCommands :
    ∃ t, exec (.coefLookup 0 0 0) (withBlock .s4x4 .dctDct 0) = .next t ∧ t.status.err = false ∧
      BlkLegal (withBlock .s4x4 .dctDct 0).blk ∧ (withBlock .s4x4 .dctDct 0).status.err = false := by
  obtain ⟨hv, ha, hl⟩ := first_span_fits
  have hs : spanInRange Config.params (withBlock .s4x4 .dctDct 0) 0 0 = true := by
    unfold spanInRange
    rw [Bool.and_eq_true, decide_eq_true_eq, decide_eq_true_eq]
    exact ⟨ha, hl⟩
  have h : exec (.coefLookup 0 0 0) (withBlock .s4x4 .dctDct 0) =
      .next (setCoef (withBlock .s4x4 .dctDct 0)
        (cellLane Config.params (withBlock .s4x4 .dctDct 0) (lookupCell (withBlock .s4x4 .dctDct 0) (Config.params.bandRom 0 0) 0))
        (scanPosition Config.params (withBlock .s4x4 .dctDct 0) 0) (Config.params.bandRom 0 0) 0) := by
    show coefLookup Config.params 0 0 0 (withBlock .s4x4 .dctDct 0) = _
    unfold coefLookup contextOf
    rw [band_of_block withBlock_legal.1 hv (by decide), hs]
    rfl
  exact ⟨_, h, rfl, withBlock_legal.1, by decide⟩

theorem witness_ProbWriteStoresOneEntry : (6 ≤ (cellAt 0 0 0 0).band ∨ 6 ≤ (cellAt 0 0 0 0).ctx ∨ 11 ≤ 11) ∧
    ((cellAt 0 0 5 5).band < 6 ∧ (cellAt 0 0 5 5).ctx < 6 ∧ 10 < 11) ∧ (255#8 : Byte) ≠ 0#8 := by decide
theorem witness_CountCommandsAddSaturating : (6 ≤ (cellAt 0 0 0 6).band ∨ 6 ≤ (cellAt 0 0 0 6).ctx) ∧
    ((cellAt 0 0 5 5).band < 6 ∧ (cellAt 0 0 5 5).ctx < 6 ∧ 11 ≤ 11 ∧ 10 < 11) ∧
    (cellAt 0 0 5 5, 9, true) ≠ (cellAt 0 0 5 5, 10, true) := by decide
theorem witness_CountIncrementsCommute : Memory.wf ctReset State.reset.ct ∧ (cellAt 1 1 5 5).band < 6 ∧ (cellAt 1 1 5 5).ctx < 6 ∧ 10 < 11 :=
  ⟨Memory.wf_nil _, by decide, by decide, by decide⟩
theorem witness_CountReadReturnsBothCounters : (6 ≤ (cellAt 0 0 0 0).band ∨ 6 ≤ (cellAt 0 0 0 0).ctx ∨ 11 ≤ 11) ∧
    (cellAt 0 0 5 5).band < 6 ∧ (cellAt 0 0 5 5).ctx < 6 ∧ 10 < 11 := by decide
theorem witness_MergingAWorkerAddsItsCounts : State.reset.status.err = false ∧ (cellAt 1 1 5 5).band < 6 ∧ (cellAt 1 1 5 5).ctx < 6 ∧ 10 < 11 := by
  decide
theorem witness_EveryCodewordDecodesToItsIndex : 0 ≤ 254 ∧ 254 ≤ 254 := by decide
theorem witness_DeltaUpdateMovesWithinRange : (254 ≤ 254 ∧ 1 ≤ 1 ∧ 1 ≤ 255) ∧ (0 ≤ 254 ∧ 1 ≤ 255 ∧ 255 ≤ 255) := by decide
theorem witness_RemappingTakesEveryDistance : (253 ≤ 254 ∧ 254 ≤ 254 ∧ 253 ≠ 254 ∧ imap 253 = imap 254) ∧ (1 ≤ 1 ∧ 254 ≤ 254) := by decide
theorem witness_SubexpUpdateDecodesOneDelta (rest : List BitAnswer) (u : Option Nat) :
    (State.reset.setPort { answers := validAnswers (updateCode u) ++ rest, requests := [] }).port.answers = validAnswers (updateCode u) ++ rest ∧
    (1#8 : Byte) ≠ 0#8 ∧ 254 ≤ 254 := ⟨rfl, by decide, by decide⟩
theorem witness_SubexpUpdateUnderrunsCleanly : ∃ (s : State) (rest : List BitAnswer), (255#8 : Byte) ≠ 0#8 ∧
    (∀ w, some 254 = some w → w ≤ 254) ∧ 11 < (updateCode (some 254)).length ∧
    s.port.answers = validAnswers ((updateCode (some 254)).take 11) ++ { bit := true, valid := false } :: rest :=
  ⟨State.reset.setPort { answers := validAnswers ((updateCode (some 254)).take 11) ++ [{ bit := true, valid := false }], requests := [] }, [],
    by decide, by simp, by decide, rfl⟩
theorem witness_FwdUpdateVisitsEntriesInOrder : 2 ≤ 11 ∧ 11 ≤ 11 := by decide
theorem witness_FwdUpdateAppliesTheStream : ∃ (s : State) (upd : Nat → Option Nat), (∀ i w, upd i = some w → w ≤ 254) ∧ upd 1583 = some 254 ∧
    s.port.answers = validAnswers ((fwdOrder (if s.cfg.compactEn then Config.params.u else 11)).flatMap fun i => updateCode (upd i)) ++ [] :=
  ⟨State.reset.setPort
      { answers :=
          validAnswers ((fwdOrder (if State.reset.cfg.compactEn then Config.params.u else 11)).flatMap fun i =>
          updateCode (if i = 1583 then some 254 else none)) ++ []
        requests := [] },
    fun i => if i = 1583 then some 254 else none,
    (fun i w h => by
      change (if i = 1583 then some 254 else none) = some w at h
      by_cases hi : i = 1583
      · rw [if_pos hi] at h; cases h; decide
      · rw [if_neg hi] at h; cases h),
    if_pos rfl, rfl⟩
theorem witness_FwdUpdateCompletesWhenAnswered : ∃ s : State, (∀ a ∈ s.port.answers, a.valid = true) ∧ 12 * 1584 ≤ s.port.answers.length :=
  ⟨State.reset.setPort { answers := List.replicate (12 * 1584) { bit := true, valid := true }, requests := [] },
    fun a h => by rw [List.eq_of_mem_replicate (show a ∈ List.replicate _ _ from h)], Nat.le_of_eq List.length_replicate.symm⟩
theorem witness_ZeroFlagsLeaveTheTable : ∃ s : State, Memory.wf Config.params.defaultPt s.pt ∧
    s.port.answers = List.replicate (144 * (if s.cfg.compactEn then Config.params.u else 11)) { bit := false, valid := true } ++ [] :=
  ⟨State.reset.setPort
      { answers := List.replicate (144 * (if State.reset.cfg.compactEn then Config.params.u else 11)) { bit := false, valid := true } ++ []
        requests := [] },
    Memory.wf_nil _, rfl⟩
/-- A stream that updates the first entry with the longest code and ends inside that of the second. -/
theorem witness_FwdUnderrunKeepsTheVisitedPart_stream : ∃ (s : State) (upd : Nat → Option Nat) (todo : List Nat),
    (∀ j w, upd j = some w → w ≤ 254) ∧ visitedEntries s = [0] ++ 1 :: todo ∧ 11 < (updateCode (upd 1)).length ∧
    s.port.answers = validAnswers (streamCode upd [0] ++ (updateCode (upd 1)).take 11) ++ { bit := true, valid := false } :: [] :=
  ⟨State.reset.setPort
      { answers := validAnswers (streamCode (fun _ => some 254) [0] ++ (updateCode (some 254)).take 11) ++ [{ bit := true, valid := false }]
        requests := [] },
    fun _ => some 254, (fwdOrder 11).drop 2, (fun _ _ h => by cases h; decide), rfl, by decide, rfl⟩
theorem witness_FwdUnderrunKeepsTheVisitedPart :
    ∃ t, exec .fwdUpdate (withAnswers [0, 0, 2] State.reset) = .next t ∧ t.status.err = true ∧ (withAnswers [0, 0, 2] State.reset).status.err = false :=
  ⟨_, rfl, rfl, rfl⟩
theorem witness_FwdUpdateDependsOnTableModeAndBits :
    ∃ t, exec .fwdUpdate (withAnswers [0, 2] State.reset) = .next t ∧ (withAnswers [0, 2] State.reset).pt = (withAnswers [0, 2] halted).pt ∧
      (withAnswers [0, 2] State.reset).cfg.compactEn = (withAnswers [0, 2] halted).cfg.compactEn ∧
      (withAnswers [0, 2] State.reset).port.answers = (withAnswers [0, 2] halted).port.answers :=
  ⟨_, rfl, by decide, by decide, by decide⟩

/-- The unit with the compact model on and entry `U - 1` of the first cell holding 200. -/
def pivot200 : State := writePt Config.params (after (execSetConfig true true false State.reset)) (ptx (cellAt 0 0 0 0) (Config.params.u - 1)) 200#8

theorem witness_ModelExpandReturnsTheExpansion : (200#8 : Byte) ≠ 0#8 ∧ pivot200.cfg.compactEn = true ∧
    readPt Config.params pivot200 (ptx (cellAt 0 0 0 0) (Config.params.u - 1)) = 200#8 ∧
    (∃ u, exec (.probRead (cellAt 0 0 0 0)) pivot200 = .next u) ∧ Config.params.u ≤ 10 ∧ 10 < 11 := by
  refine ⟨by decide, rfl, ?_, ⟨_, rfl⟩, ?_, by decide⟩
  · unfold pivot200; rw [readPt_writePt, if_pos rfl]
  · have := Config.params_lawful.u_range; omega

/-- An entry that only saw branch 0, and one that only saw branch 1. -/
def oneSided : State := writeCt (writeCt State.reset 0 false 100#32) 1583 true 1#32

theorem witness_AdaptMovesTowardTheObserved : Params.some.Lawful ∧ oneSided.cfg.adaptEn = true ∧ (0 < 1584 ∧ 1583 < 1584) ∧
    readPt Params.some oneSided 0 ≠ 0#8 ∧ readPt Params.some oneSided 1583 ≠ 0#8 ∧ (∃ t, adapt Params.some oneSided = .next t) ∧
    readCt oneSided 0 true = 0#32 ∧ Params.some.adaptMinCount ≤ (readCt oneSided 0 false).toNat ∧
    readCt oneSided 1583 false = 0#32 ∧ Params.some.adaptMinCount ≤ (readCt oneSided 1583 true).toNat :=
  ⟨Params.some_lawful, rfl, by decide, by decide, by decide, ⟨_, rfl⟩, by decide, by decide, by decide, by decide⟩

end Sys2Proof.Machine
end

section
/-! PROOFS of the family 10_state.md: the register words, who writes which state, and the invariant of the step. -/

namespace Sys2Proof.Machine

/-! ## The register words -/

/-- A field of a concatenation above its lowest part is a field of what lies above that part. -/
theorem extract_above {v w lo n : Nat} {x : BitVec v} {y : BitVec w} {z : BitVec n} (hx : x.extractLsb' (lo - w) n = z)
    (h : w ≤ lo := by decide) : (x ++ y).extractLsb' lo n = z :=
  (BitVec.extractLsb'_append_eq_of_le h).trans hx

/-- Settles O11: with the parts below it taken off, a field is the lowest part of what is left, or, at the top of its
word, all of it. -/
theorem registerWordsHoldTheirFields : Obligations.RegisterWordsHoldTheirFields := by
  intro s
  and_intros
  all_goals repeat refine extract_above ?_
  any_goals exact BitVec.extractLsb'_append_eq_right
  all_goals exact BitVec.extractLsb'_eq_self

/-! ## Who writes which state -/

/-- A failed command records one error under its own opcode byte. Of the rest, only FWD_UPDATE may have changed the table,
and only the two commands that make requests the port. -/
theorem Failure.frame {i : Instr} {s t : State} (h : Failure i s t) :
    ∃ e m p, t = ((s.setPt m).setPort p).setStatus (Status.ofError e (opcodeOf i)) ∧
      (m = s.pt ∨ i = .fwdUpdate) ∧ (p = s.port ∨ (∃ b, i = .subexpUpdate b) ∨ i = .fwdUpdate) := by
  cases i
  case subexpUpdate b =>
    obtain ⟨e, -, rfl⟩ | ⟨p, -, -, e, -, rfl⟩ := h
    · exact ⟨e, s.pt, s.port, rfl, .inl rfl, .inl rfl⟩
    · exact ⟨e, s.pt, p, rfl, .inl rfl, .inr (.inl ⟨b, rfl⟩)⟩
  case fwdUpdate =>
    obtain ⟨m, p, -, -, e, -, rfl⟩ := h
    exact ⟨e, m, p, rfl, .inr rfl, .inr (.inr rfl)⟩
  all_goals
    obtain ⟨-, e, -, rfl⟩ := h
    exact ⟨e, s.pt, s.port, rfl, .inl rfl, .inl rfl⟩

/-- A command that raises no error keeps `STATUS`, unless it is CLEAR_ERR. -/
theorem Effect.status {i : Instr} {s t : State} (h : Effect i s t) :
    t.status = s.status ∨ (i = .clearErr ∧ t.status = Status.clear) := by
  cases i
  case clearErr => exact .inr ⟨rfl, congrArg State.status h⟩
  case nop | setConfig | resetDefaults | clearCounts | blockStart => cases h; exact .inl rfl
  case tcWrite | probWrite | countRecord | countAdd | adapt => obtain ⟨_, rfl⟩ := h; exact .inl rfl
  case subexpUpdate => obtain ⟨_, _, _, _, rfl, _⟩ := h; exact .inl rfl
  case fwdUpdate => obtain ⟨_, _, _, rfl, _⟩ := h; exact .inl rfl
  all_goals obtain ⟨_, _, rfl⟩ := h; exact .inl rfl

/-- Settles O18. -/
theorem onlyErrorsAndClearErrWriteStatus : Obligations.OnlyErrorsAndClearErrWriteStatus := by
  intro i s t h
  rcases exec_next h with h | h
  · exact h.status.imp_right .inl
  · obtain ⟨e, m, p, rfl, -⟩ := h.frame
    exact .inr (.inr ⟨e, by rw [opcByte_encode]; rfl⟩)

/-- Settles O20: command by command where no error is raised, and by the frame of a failed command where one is. -/
theorem eachStateHasItsWriters : Obligations.EachStateHasItsWriters := by
  intro i s t h
  rcases exec_next h with h | h
  · cases i
    case nop | setConfig | resetDefaults | clearCounts | blockStart => cases h; simp
    case clearErr => cases h; simp [clearError]
    case tcWrite | probWrite | countRecord | countAdd | adapt => obtain ⟨_, rfl⟩ := h; simp
    case subexpUpdate => obtain ⟨_, _, _, _, rfl, _⟩ := h; simp
    case fwdUpdate => obtain ⟨_, _, _, rfl, _⟩ := h; simp
    all_goals obtain ⟨_, _, rfl⟩ := h; simp
  · obtain ⟨e, m, p, rfl, hm, hp⟩ := h.frame
    exact ⟨.inl rfl, .inl rfl, hm.imp_right fun hi => .inr (.inr (.inl hi)), .inl rfl, .inl rfl, .inl ⟨rfl, rfl⟩, hp,
      .inl ⟨rfl, rfl⟩, rfl⟩

end Sys2Proof.Machine
end

section
/-! PROOFS of the family 10_state.md: every step keeps the invariant. It is taken apart into one fact for each field of the
state; each write of a field keeps its fact, and each command is a few such writes. -/

namespace Sys2Proof.Machine

/-! ## What the invariant says of one memory -/

/-- A memory in its canonical form that lists only indices it has. -/
structure Memory.Legal {α : Type} [DecidableEq α] (bg : Nat → α) (has : Nat → Prop) (m : List (Nat × α)) : Prop where
  wf : Memory.wf bg m
  indices : ∀ e ∈ m, has e.1

section
variable {α : Type} [DecidableEq α] {bg : Nat → α} {has : Nat → Prop} {m : List (Nat × α)}

theorem Memory.legal_nil : Memory.Legal bg has [] := ⟨Memory.wf_nil bg, by simp⟩

theorem Memory.Legal.write (h : Memory.Legal bg has m) {k : Nat} (hk : has k) (v : α) :
    Memory.Legal bg has (Memory.write bg m k v) where
  wf := Memory.wf_write k v h.wf
  indices e he := by
    rcases Memory.mem_write he with rfl | he
    · exact hk
    · exact h.indices e he

theorem Memory.Legal.fill (h : Memory.Legal bg has m) {k n : Nat} (hk : ∀ i < n, has (k + i)) (v : α) :
    Memory.Legal bg has (Memory.fill bg m k v n) where
  wf := Memory.wf_fill k v n h.wf
  indices e he := by
    rcases Memory.mem_fill he with ⟨i, hi, rfl⟩ | he
    · exact hk i hi
    · exact h.indices e he

end

/-- The indices of an edge array with `n` entries in each plane (R23). -/
def IsEdgeKey (n e : Nat) : Prop := ∃ p k, p < numPlanes ∧ k < n ∧ e = edgeKey p k

/-- A fill within one plane's entries keeps an edge array legal. -/
theorem legal_fillEdge {n plane col len : Nat} {m : List (Nat × Bool)} (h : Memory.Legal edgeReset (IsEdgeKey n) m)
    (hp : plane < numPlanes) (hc : col + len ≤ n) (v : Bool) :
    Memory.Legal edgeReset (IsEdgeKey n) (Memory.fill edgeReset m (edgeKey plane col) v len) :=
  h.fill (fun i hi => ⟨plane, col + i, hp, by omega, by simp only [edgeKey]; omega⟩) v

/-- A legal probability table with no entry 0 (R72). -/
structure PtLegal (P : Params) (m : List Host.Cell) : Prop where
  table : Memory.Legal P.defaultPt (· < numEntries) m
  nonzero : ∀ i, i < numEntries → Memory.read P.defaultPt m i ≠ 0#8

theorem ptLegal_nil {P : Params} (hL : P.Lawful) : PtLegal P [] := ⟨Memory.legal_nil, hL.default_range⟩

theorem PtLegal.write {P : Params} {m : List Host.Cell} (h : PtLegal P m) {k : Nat} {v : Byte} (hk : k < numEntries)
    (hv : v ≠ 0#8) : PtLegal P (Memory.write P.defaultPt m k v) where
  table := h.table.write hk v
  nonzero i hi := by
    rw [Memory.read_write]
    split
    · exact hv
    · exact h.nonzero i hi

/-! ## The invariant field by field -/

theorem inv_iff {P : Params} {s : State} : Inv P s ↔
    PtLegal P s.pt ∧ Memory.Legal ctReset (· < 2 * numEntries) s.ct ∧ Memory.Legal tcReset (· < numTokens) s.tc ∧
      Memory.Legal edgeReset (IsEdgeKey P.aboveEntries) s.ac ∧ Memory.Legal edgeReset (IsEdgeKey P.leftEntries) s.lc ∧
      BlkLegal s.blk ∧ StatusLegal s.status := by
  constructor
  · rintro ⟨c, i, hprobs, hblk, hstatus⟩
    exact ⟨⟨⟨c.pt, i.pt⟩, hprobs⟩, ⟨c.ct, i.ct⟩, ⟨c.tc, i.tc⟩, ⟨c.ac, i.ac⟩, ⟨c.lc, i.lc⟩, hblk, hstatus⟩
  · rintro ⟨⟨hpt, hprobs⟩, hct, htc, hac, hlc, hblk, hstatus⟩
    exact ⟨⟨hpt.wf, hct.wf, htc.wf, hac.wf, hlc.wf⟩,
      ⟨hpt.indices, hct.indices, htc.indices, hac.indices, hlc.indices⟩, hprobs, hblk, hstatus⟩

/-- The reset state meets the invariant. -/
theorem inv_reset {P : Params} (hL : P.Lawful) : Inv P State.reset :=
  inv_iff.mpr ⟨ptLegal_nil hL, Memory.legal_nil, Memory.legal_nil, Memory.legal_nil, Memory.legal_nil, .inl rfl, .inl rfl⟩

section
variable {P : Params} {s t : State}

/-! The fields the invariant does not speak of. -/

theorem Inv.setCfg (h : Inv P s) (v : Cfg) : Inv P (s.setCfg v) := inv_iff.mpr ((inv_iff (s := s)).mp h)
theorem Inv.setRes (h : Inv P s) (r0 r1 : Word) : Inv P (s.setRes r0 r1) := inv_iff.mpr ((inv_iff (s := s)).mp h)
theorem Inv.setPort (h : Inv P s) (p : BitPort) : Inv P (s.setPort p) := inv_iff.mpr ((inv_iff (s := s)).mp h)
theorem Inv.setBus (h : Inv P s) (b : HostBus) : Inv P (s.setBus b) := inv_iff.mpr ((inv_iff (s := s)).mp h)

/-! The fields it speaks of. -/

theorem Inv.ptLegal (h : Inv P s) : PtLegal P s.pt := (inv_iff.mp h).1

theorem Inv.setPt (h : Inv P s) {m : List Host.Cell} (hm : PtLegal P m) : Inv P (s.setPt m) :=
  have ⟨_, rest⟩ := inv_iff.mp h
  inv_iff.mpr ⟨hm, rest⟩

theorem Inv.clearCt (h : Inv P s) : Inv P (s.setCt []) :=
  have ⟨pt, _, rest⟩ := inv_iff.mp h
  inv_iff.mpr ⟨pt, Memory.legal_nil, rest⟩

theorem Inv.writeCt (h : Inv P s) {i : Nat} (hi : i < numEntries) (br : Bool) (v : Count) : Inv P (writeCt s i br v) :=
  have ⟨pt, ct, rest⟩ := inv_iff.mp h
  have hk : countKey i br < 2 * numEntries := by have := codeOfBool_lt br; simp only [countKey]; omega
  inv_iff.mpr ⟨pt, ct.write hk v, rest⟩

theorem Inv.clearTc (h : Inv P s) : Inv P (s.setTc []) :=
  have ⟨pt, ct, _, rest⟩ := inv_iff.mp h
  inv_iff.mpr ⟨pt, ct, Memory.legal_nil, rest⟩

theorem Inv.writeTc (h : Inv P s) {c : Nat} (hc : c < numTokens) (v : MagClass) : Inv P (writeTc s c v) :=
  have ⟨pt, ct, tc, rest⟩ := inv_iff.mp h
  inv_iff.mpr ⟨pt, ct, tc.write hc v, rest⟩

theorem Inv.fillEdges (h : Inv P s) {plane col row len : Nat} (hp : plane < numPlanes) (hc : col + len ≤ P.aboveEntries)
    (hr : row + len ≤ P.leftEntries) (v : Bool) : Inv P (fillEdges s plane col row len v) :=
  have ⟨pt, ct, tc, ac, lc, rest⟩ := inv_iff.mp h
  inv_iff.mpr ⟨pt, ct, tc, legal_fillEdge ac hp hc v, legal_fillEdge lc hp hr v, rest⟩

theorem Inv.clearEdges (h : Inv P s) (above left : Bool) :
    Inv P ((s.setAc (if above then [] else s.ac)).setLc (if left then [] else s.lc)) := by
  obtain ⟨pt, ct, tc, ac, lc, rest⟩ := inv_iff.mp h
  refine inv_iff.mpr ⟨pt, ct, tc, ?_, ?_, rest⟩
  · cases above
    · exact ac
    · exact Memory.legal_nil
  · cases left
    · exact lc
    · exact Memory.legal_nil

theorem Inv.setBlk (h : Inv P s) {b : Blk} (hb : BlkLegal b) : Inv P (s.setBlk b) :=
  have ⟨pt, ct, tc, ac, lc, _, status⟩ := inv_iff.mp h
  inv_iff.mpr ⟨pt, ct, tc, ac, lc, hb, status⟩

theorem Inv.setStatus (h : Inv P s) {v : Status} (hv : StatusLegal v) : Inv P (s.setStatus v) :=
  have ⟨pt, ct, tc, ac, lc, blk, _⟩ := inv_iff.mp h
  inv_iff.mpr ⟨pt, ct, tc, ac, lc, blk, hv⟩

/-- Raising an error keeps the invariant. -/
theorem Inv.raised (h : Inv P s) {es : List Error} {opc : Byte} (ht : Raised es opc s t) : Inv P t := by
  obtain ⟨e, -, rfl⟩ := ht
  exact h.setStatus (.inr ⟨e, opc, rfl⟩)

theorem Inv.platformReset (hL : P.Lawful) : Inv P (platformReset s) := ((inv_reset hL).setPort _).setBus _

end

/-! ## Operands in range -/

theorem ptx_lt {cell : CellRef} {node : Nat} (hc : cellInRange cell = true) (hn : nodeInRange node = true) :
    ptx cell node < numEntries := by
  have hcls := codeOfClass_lt cell.cls
  have href := codeOfRef_lt cell.ref
  simp only [cellInRange, nodeInRange, Bool.and_eq_true, decide_eq_true_eq] at hc hn
  simp only [ptx, cellIndex, numEntries]
  omega

theorem coefCount_le (s : State) : coefCount s ≤ numTokens := by
  unfold coefCount
  cases s.blk.size <;> decide

/-- FWD_UPDATE visits only entries of the table. -/
theorem lt_of_mem_fwdOrder {nn i : Nat} (hn : nn ≤ 11) (h : i ∈ fwdOrder nn) : i < numEntries := by
  simp only [fwdOrder, List.mem_flatMap, List.mem_map, List.mem_range] at h
  obtain ⟨cls, -, ref, -, band, hband, ctx, hctx, node, hnode, rfl⟩ := h
  exact ptx_lt (by simp [cellInRange, hband, hctx]) (by simp [nodeInRange]; omega)

theorem signalledNodes_le {P : Params} (hL : P.Lawful) (compactEn : Bool) : signalledNodes P compactEn ≤ 11 := by
  have hu := hL.u_range
  unfold signalledNodes
  split <;> omega

/-! ## The new probabilities of FWD_UPDATE and ADAPT are not 0 -/

theorem merge13_le (v : Nat) : merge13 v ≤ 253 := by
  unfold merge13
  split
  · omega
  · rcases Nat.lt_or_ge (v - 20) unmergedDistances.length with h | h
    · rw [List.getD_eq_getElem _ _ h]
      have hm := List.mem_range.mp (List.mem_filter.mp (List.getElem_mem h)).1
      omega
    · rw [List.getD_eq_default _ _ h]
      omega

theorem imap_le (w : Nat) : imap w ≤ 254 := by
  have := merge13_le w
  unfold imap
  split <;> omega

theorem recenter_le {v m : Nat} (hv : v ≤ 254) (hm : m ≤ 127) : recenter v m ≤ 254 := by
  unfold recenter
  split
  · exact hv
  · split <;> omega

/-- R89 gives a number in 1..255, whatever the index and the old probability. -/
theorem invRemap_range (w p : Nat) : 1 ≤ invRemap w p ∧ invRemap w p ≤ 255 := by
  unfold invRemap
  split
  · have := recenter_le (imap_le w) (m := p - 1) (by omega)
    omega
  · have := recenter_le (imap_le w) (m := 254 - (p - 1)) (by omega)
    omega

theorem BitResult.andThen_eq_ok {α β : Type} {r : BitResult α} {f : α → BitPort → BitResult β} {b : β} {q : BitPort}
    (h : r.andThen f = .ok b q) : ∃ a p, r = .ok a p ∧ f a p = .ok b q := by
  cases r with
  | ok a p => exact ⟨a, p, rfl, h⟩
  | underrun p => cases h
  | silent p => cases h

/-- What R90 can answer: the old probability, or a remapped index. -/
theorem diffUpdate_ok {p q : Byte} {f : Bool} {port port' : BitPort} (h : diffUpdate p port = .ok (f, q) port') :
    (f = false ∧ q = p) ∨ (f = true ∧ ∃ w, q = BitVec.ofNat 8 (invRemap w p.toNat)) := by
  obtain ⟨flag, port₁, -, h⟩ := BitResult.andThen_eq_ok h
  cases flag with
  | false => cases h; exact .inl ⟨rfl, rfl⟩
  | true =>
    obtain ⟨w, port₂, -, h⟩ := BitResult.andThen_eq_ok h
    cases h
    exact .inr ⟨rfl, w, rfl⟩

theorem diffUpdate_nonzero {p q : Byte} {f : Bool} {port port' : BitPort} (hp : p ≠ 0#8)
    (h : diffUpdate p port = .ok (f, q) port') : q ≠ 0#8 := by
  rcases diffUpdate_ok h with ⟨-, rfl⟩ | ⟨-, w, rfl⟩
  · exact hp
  · have hw := invRemap_range w p.toNat
    intro h0
    have := congrArg BitVec.toNat h0
    simp only [BitVec.toNat_ofNat] at this
    omega

/-- The walk of FWD_UPDATE keeps the table legal, whatever its end. -/
theorem ptLegal_fwdLoop {P : Params} {xs : List Nat} (hx : ∀ i ∈ xs, i < numEntries) {pt : List Host.Cell} (port : BitPort)
    (h : PtLegal P pt) : PtLegal P (fwdLoop P xs pt port).pt := by
  induction xs generalizing pt port with
  | nil => exact h
  | cons x xs ih =>
    obtain ⟨hx, hxs⟩ := List.forall_mem_cons.mp hx
    simp only [fwdLoop]
    split
    · next hd => exact ih hxs _ (h.write hx (diffUpdate_nonzero (h.nonzero x hx) hd))
    · exact h
    · exact h

theorem ptLegal_fwdWalk {P : Params} (hL : P.Lawful) {s : State} (h : PtLegal P s.pt) : PtLegal P (fwdWalk P s).pt :=
  ptLegal_fwdLoop (fun _ => lt_of_mem_fwdOrder (signalledNodes_le hL _)) _ h

theorem adaptedProb_nonzero {P : Params} (hL : P.Lawful) (s : State) (i : Nat) {pre : Byte} (h : pre ≠ 0#8) :
    adaptedProb P s i pre ≠ 0#8 := by
  unfold adaptedProb
  split
  · exact hL.merge.range _ _ _ h
  · exact h

theorem ptLegal_adaptLoop {P : Params} (hL : P.Lawful) (s : State) {xs : List Nat} (hx : ∀ i ∈ xs, i < numEntries)
    {pt : List Host.Cell} (h : PtLegal P pt) : PtLegal P (adaptLoop P s xs pt) := by
  induction xs generalizing pt with
  | nil => exact h
  | cons x xs ih =>
    obtain ⟨hx, hxs⟩ := List.forall_mem_cons.mp hx
    exact ih hxs (h.write hx (adaptedProb_nonzero hL s x (h.nonzero x hx)))

/-! ## The commands that write a memory or latch the block -/

section
variable {P : Params} {s t : State}

theorem Inv.execBlockStart (hi : Inv P s) {z : TxSize} {k : TxType} {p : Nat} {r : RefType}
    (h : execBlockStart z k p r s = .next t) : Inv P t := by
  rcases execBlockStart_next h with h | ⟨hg, rfl⟩
  · exact hi.raised h
  · exact hi.clearTc.setBlk (.inr ⟨rfl, hg, rfl, rfl⟩)

theorem Inv.execTcWrite (hi : Inv P s) {c : Nat} {k : Token} (h : execTcWrite c k s = .next t) : Inv P t := by
  rcases execTcWrite_next h with h | ⟨-, hc, m, -, rfl⟩
  · exact hi.raised h
  · exact hi.writeTc (hc.trans_le (coefCount_le s)) m

theorem Inv.ecWrite (hi : Inv P s) {nz : Bool} {col row : Nat} (h : ecWrite P nz col row s = .next t) : Inv P t := by
  rcases ecWrite_next h with h | ⟨hv, hspan, rfl⟩
  · exact hi.raised h
  · obtain ⟨hp, -⟩ := illegalGeometry_false (hi.blk.latched hv).1
    simp only [spanInRange, Bool.and_eq_true, decide_eq_true_eq] at hspan
    obtain ⟨hcol, hrow⟩ := hspan
    exact hi.fillEdges hp hcol hrow nz

theorem Inv.probWrite (hi : Inv P s) {cell : CellRef} {node : Nat} {v : Byte} (h : probWrite P cell node v s = .next t) :
    Inv P t := by
  rcases probWrite_next h with h | ⟨hc, hn, hv, rfl⟩
  · exact hi.raised h
  · exact hi.setPt (hi.ptLegal.write (ptx_lt hc hn) hv)

theorem Inv.execCountRecord (hi : Inv P s) {cell : CellRef} {node : Nat} {br : Bool}
    (h : execCountRecord cell node br s = .next t) : Inv P t := by
  rcases execCountRecord_next h with h | ⟨hc, hn, rfl⟩
  · exact hi.raised h
  · exact hi.writeCt (ptx_lt hc hn) br _

theorem Inv.execCountAdd (hi : Inv P s) {cell : CellRef} {node : Nat} {br : Bool} {a : Nat}
    (h : execCountAdd cell node br a s = .next t) : Inv P t := by
  rcases execCountAdd_next h with h | ⟨hc, hn, rfl⟩
  · exact hi.raised h
  · exact hi.writeCt (ptx_lt hc hn) br _

theorem Inv.execSubexpUpdate (hi : Inv P s) {p : Byte} (h : execSubexpUpdate p s = .next t) : Inv P t := by
  rcases execSubexpUpdate_next h with h | ⟨-, _, _, port, -, rfl⟩ | ⟨-, port, -, h⟩
  · exact hi.raised h
  · exact (hi.setPort port).setRes _ _
  · exact (hi.setPort port).raised h

theorem Inv.fwdUpdate (hL : P.Lawful) (hi : Inv P s) (h : fwdUpdate P s = .next t) : Inv P t := by
  have hw := ptLegal_fwdWalk hL hi.ptLegal
  rcases fwdUpdate_next h with ⟨pt, port, e, rfl⟩ | ⟨pt, port, e, h⟩
  · rw [e] at hw
    exact (hi.setPt hw).setPort port
  · rw [e] at hw
    exact ((hi.setPt hw).setPort port).raised h

theorem Inv.adapt (hL : P.Lawful) (hi : Inv P s) (h : adapt P s = .next t) : Inv P t := by
  cases h
  refine (hi.setPt ?_).clearCt
  split
  · exact ptLegal_adaptLoop hL s (fun _ => List.mem_range.mp) hi.ptLegal
  · exact hi.ptLegal

end

/-! ## Every command, every input, every step -/

theorem exec_keeps_inv {i : Instr} {s t : State} (hi : Inv Config.params s) (h : exec i s = .next t) : Inv Config.params t := by
  cases i with
  | nop => cases h; exact hi
  | clearErr => cases h; exact hi.setStatus (.inl rfl)
  | setConfig => cases h; exact hi.setCfg _
  | resetDefaults => cases h; exact hi.setPt (ptLegal_nil Config.params_lawful)
  | clearCounts => cases h; exact hi.clearCt
  | ecClear above left => cases h; exact hi.clearEdges above left
  | scanLookup => exact (scanLookup_next h).elim hi.raised fun ⟨_, _, ht⟩ => ht ▸ hi.setRes _ _
  | bandLookup => exact (bandLookup_next h).elim hi.raised fun ⟨_, _, _, _, ht⟩ => ht ▸ hi.setRes _ _
  | ctxDerive => exact (ctxDerive_next h).elim hi.raised fun ⟨_, _, _, _, ht⟩ => ht ▸ hi.setRes _ _
  | probRead => exact (probRead_next h).elim hi.raised fun ⟨_, ht⟩ => ht ▸ hi.setRes _ _
  | coefLookup => exact (coefLookup_next h).elim hi.raised fun ⟨_, _, _, _, _, _, ht⟩ => ht ▸ hi.setRes _ _
  | countRead => exact (execCountRead_next h).elim hi.raised fun ⟨_, _, ht⟩ => ht ▸ hi.setRes _ _
  | modelExpand => exact (modelExpand_next h).elim hi.raised fun ⟨_, ht⟩ => ht ▸ hi.setRes _ _
  | blockStart => exact hi.execBlockStart h
  | tcWrite => exact hi.execTcWrite h
  | ecWrite => exact hi.ecWrite h
  | probWrite => exact hi.probWrite h
  | countRecord => exact hi.execCountRecord h
  | countAdd => exact hi.execCountAdd h
  | subexpUpdate => exact hi.execSubexpUpdate h
  | fwdUpdate => exact hi.fwdUpdate Config.params_lawful h
  | adapt => exact hi.adapt Config.params_lawful h

theorem issueWord_keeps_inv {w : Word} {s t : State} (hi : Inv Config.params s) (h : issueWord w s = .next t) :
    Inv Config.params t := by
  rcases issueWord_next h with ⟨-, rfl⟩ | ⟨e, rfl⟩ | ⟨i, -, h⟩
  · exact hi
  · exact hi.setStatus (.inr ⟨e, _, rfl⟩)
  · exact exec_keeps_inv hi h

theorem takeEvent_keeps_inv {e : HostEvent} {s t : State} (hi : Inv Config.params s)
    (h : takeEvent Config.params e s = .next t) : Inv Config.params t := by
  rcases takeEvent_next h with ⟨w, h⟩ | ⟨b, rfl⟩ | ⟨p, rfl⟩
  · exact issueWord_keeps_inv hi h
  · exact hi.setBus b
  · exact .platformReset Config.params_lawful

/-- Settles O16: a step with no input changes nothing, and one with an input takes it with the invariant. -/
theorem stepKeepsInvariant : Obligations.StepKeepsInvariant := by
  intro s t hi h
  cases hp : s.bus.pending with
  | nil =>
    rw [step_idle hp] at h
    cases h
    exact hi
  | cons e rest =>
    rw [step_event hp] at h
    exact takeEvent_keeps_inv (hi.setBus _) h

end Sys2Proof.Machine
end

section
/-! PROOFS of the family 20_memory.md: the flat index, the count table, the window's accesses, and the lanes in the window. -/

namespace Sys2Proof.Machine

/-! ## The flat index -/

theorem cellInRange_iff {cell : CellRef} : cellInRange cell = true ↔ cell.band < 6 ∧ cell.ctx < 6 := by simp [cellInRange]

theorem nodeInRange_iff {node : Nat} : nodeInRange node = true ↔ node < 11 := by simp [nodeInRange]

/-- A flat index gives back the cell and the node: its digits in the mixed radix of R33 are their fields. -/
theorem ptx_injective {c d : CellRef} {m n : Nat} (hc : cellInRange c = true) (hm : m < 11) (hd : cellInRange d = true)
    (hn : n < 11) (h : ptx c m = ptx d n) : c = d ∧ m = n := by
  obtain ⟨cls, ref, band, ctx⟩ := c
  obtain ⟨cls', ref', band', ctx'⟩ := d
  simp only [cellInRange_iff] at hc hd
  simp only [ptx, cellIndex] at h
  have hcell : ((codeOfClass cls * 2 + codeOfRef ref) * 6 + band) * 6 + ctx =
      ((codeOfClass cls' * 2 + codeOfRef ref') * 6 + band') * 6 + ctx' := by omega
  have hrow : codeOfClass cls * 2 + codeOfRef ref = codeOfClass cls' * 2 + codeOfRef ref' := by omega
  have hr := codeOfRef_lt ref
  have hr' := codeOfRef_lt ref'
  obtain rfl : cls = cls' := codeOfClass_inj (by omega)
  obtain rfl : ref = ref' := codeOfRef_inj (by omega)
  obtain ⟨rfl, rfl, rfl⟩ : band = band' ∧ ctx = ctx' ∧ m = n := by omega
  exact ⟨rfl, rfl⟩

/-- The cell of a flat index, digit by digit (R33). -/
def cellOfPtx (i : Nat) : CellRef :=
  { cls := classOfCode (i / 792), ref := refOfCode (i / 396 % 2), band := i / 66 % 6, ctx := i / 11 % 6 }

theorem cellInRange_cellOfPtx (i : Nat) : cellInRange (cellOfPtx i) = true := by
  simp only [cellInRange_iff, cellOfPtx]
  omega

theorem ptx_cellOfPtx {i : Nat} (h : i < 1584) : ptx (cellOfPtx i) (i % 11) = i := by
  have hcls := codeOfClass_classOfCode (n := i / 792) (by omega)
  have href := codeOfRef_refOfCode (n := i / 396 % 2) (by omega)
  simp only [ptx, cellIndex, cellOfPtx, hcls, href]
  omega

/-- Settles O36: `ptx_lt` is the range, and `cellOfPtx` the inverse. -/
theorem flatIndexIsABijection : Obligations.FlatIndexIsABijection := by
  refine ⟨fun c n hb hx hn => ?_, fun c d m n hb hx hm hb' hx' hn h => ?_, fun i hi => ?_⟩
  · exact ptx_lt (cellInRange_iff.mpr ⟨hb, hx⟩) (nodeInRange_iff.mpr hn)
  · exact ptx_injective (cellInRange_iff.mpr ⟨hb, hx⟩) hm (cellInRange_iff.mpr ⟨hb', hx'⟩) hn h
  · obtain ⟨hb, hx⟩ := cellInRange_iff.mp (cellInRange_cellOfPtx i)
    exact ⟨cellOfPtx i, i % 11, hb, hx, Nat.mod_lt i (by decide), ptx_cellOfPtx hi⟩

/-! ## The count table -/

/-- Every index of the count table's list is some counter's. -/
theorem exists_countKey (k : Nat) : ∃ i b, countKey i b = k := by
  refine ⟨k / 2, k % 2 == 1, ?_⟩
  have := codeOfBool_beq_one (Nat.mod_lt k (by decide : 0 < 2))
  simp only [countKey]
  omega

/-- Canonical count tables with the same counters are equal. -/
theorem ct_ext {s t : State} (hs : Memory.wf ctReset s.ct) (ht : Memory.wf ctReset t.ct)
    (h : ∀ i b, readCt s i b = readCt t i b) : s.ct = t.ct := by
  refine Memory.ext hs ht fun k => ?_
  obtain ⟨i, b, rfl⟩ := exists_countKey k
  exact h i b

/-- Two saturating additions to one counter give the same in either order. -/
theorem countAddSat_comm (x : Count) (a b : Nat) : countAddSat (countAddSat x a) b = countAddSat (countAddSat x b) a := by
  apply BitVec.eq_of_toNat_eq
  simp only [countAddSat_toNat]
  omega

theorem wf_bumpCount {s : State} (i : Nat) (b : Bool) (n : Nat) (h : Memory.wf ctReset s.ct) :
    Memory.wf ctReset (bumpCount s i b n).ct := wf_writeCt i b _ h

/-- Increments of one counter commute since the saturating additions do, and of two since neither reads what the other writes. -/
theorem bumpCount_comm {s : State} (hs : Memory.wf ctReset s.ct) (i j : Nat) (p q : Bool) (a b : Nat) :
    bumpCount (bumpCount s i p a) j q b = bumpCount (bumpCount s j q b) i p a := by
  refine congrArg s.setCt (ct_ext (wf_bumpCount j q b (wf_bumpCount i p a hs)) (wf_bumpCount i p a (wf_bumpCount j q b hs))
    fun k r => ?_)
  simp only [readCt_bumpCount]
  by_cases same : j = i ∧ q = p
  · obtain ⟨rfl, rfl⟩ := same
    by_cases hk : k = j ∧ r = q
    · simp [hk, countAddSat_comm _ a b]
    · simp [hk]
  · have same' : ¬(i = j ∧ p = q) := fun ⟨hi, hp⟩ => same ⟨hi.symm, hp.symm⟩
    simp only [if_neg same, if_neg same']
    by_cases hi : k = i ∧ r = p
    · obtain ⟨rfl, rfl⟩ := hi
      simp [same']
    · simp [hi]

theorem execCountAdd_inRange {cell : CellRef} {node : Nat} (hc : cellInRange cell = true) (hn : node < 11) (br : Bool) (a : Nat)
    (s : State) : execCountAdd cell node br a s = .next (bumpCount s (ptx cell node) br a) := by
  simp [execCountAdd, hc, nodeInRange_iff.mpr hn]

/-- Settles O42: in range both orders complete, and `bumpCount_comm` makes their ends one state. -/
theorem countIncrementsCommute : Obligations.CountIncrementsCommute := by
  intro c d m n p q a b s hs hcb hcx hm hdb hdx hn
  have hadd := execCountAdd_inRange (cellInRange_iff.mpr ⟨hcb, hcx⟩) hm p a
  have hadd' := execCountAdd_inRange (cellInRange_iff.mpr ⟨hdb, hdx⟩) hn q b
  refine ⟨_, _, _, hadd s, hadd' _, hadd' s, (hadd _).trans ?_⟩
  rw [bumpCount_comm hs]

/-! ## The accesses of the window -/

/-- Settles O6: taking the access off the list leaves `STATUS.ERR` as it was, so the word is not ignored. -/
theorem stepRunsTheDecodedCommand : Obligations.StepRunsTheDecodedCommand := by
  intro s w i rest hp herr hd
  have hrun : ignoresWord (afterEvent s rest) w = false := ignoresWord_of_running w herr
  rw [step_event hp, takeEvent_command, issueWord_command hrun hd, afterEvent_eq]

theorem accessSpecified_eq_false {offset : Fin 64} {bytes : Nat} (h : offset.val % 8 ≠ 0 ∨ bytes ≠ 8) :
    accessSpecified offset bytes = false := by
  rw [Bool.eq_false_iff, ne_eq, accessSpecified_iff]
  omega

/-- Settles O9: the store and the load both make the check of R30 first. -/
theorem unspecifiedAccessIsRefused : Obligations.UnspecifiedAccessIsRefused := by
  intro s rest offset bytes data h
  have hbad := accessSpecified_eq_false h
  refine ⟨fun hp => ?_, fun hp => ?_⟩
  · simp [step_event hp, takeEvent, hostStore, hbad]
  · simp [step_event hp, takeEvent, hostLoad, hbad]

/-- No register shows the host's side of the window. -/
@[simp] theorem windowRegister_setBus (P : Params) (s : State) (b : HostBus) (k : Nat) :
    windowRegister P (s.setBus b) k = windowRegister P s k := rfl

/-- An aligned load returns its register and changes no state of the unit (R13, R35). -/
theorem takeEvent_load {offset : Fin 64} (h : offset.val % 8 = 0) (P : Params) (s : State) : takeEvent P (.load offset 8) s =
    .next (s.setBus { s.bus with returned := windowRegister P s (offset.val / 8) :: s.bus.returned }) := by
  simp [takeEvent, hostLoad, (accessSpecified_iff offset 8).mpr ⟨h, rfl⟩]

/-- An aligned store to any offset but that of `CMD` is ignored (R13, R29). -/
theorem takeEvent_store_ignored {offset : Fin 64} (h : offset.val % 8 = 0) (h0 : offset.val ≠ 0) (P : Params) (data : Word)
    (s : State) : takeEvent P (.store offset 8 data) s = .next s := by
  simp only [takeEvent, hostStore, (accessSpecified_iff offset 8).mpr ⟨h, rfl⟩, if_neg h0]
  rfl

/-- Settles O10: the value is `windowRegister` at the offset's eighth, which is one register for each offset. -/
theorem windowAccessesReadTheRegisters : Obligations.WindowAccessesReadTheRegisters := by
  intro s rest offset data h
  refine ⟨fun hp => ⟨windowRegister Config.params s (offset.val / 8), ?_, ?_⟩, fun hp h0 => ?_⟩
  · rw [step_event hp, takeEvent_load h, afterEvent, windowRegister_setBus]
    rfl
  · and_intros
    all_goals
      intro ho
      rw [ho]
      rfl
  · rw [step_event hp, takeEvent_store_ignored h h0]
    rfl

/-! ## The lanes of a result in the window -/

theorem laneOf_low {n : Nat} (h : n < 8) (s : State) : laneOf s n = s.res0.extractLsb' (8 * n) 8 := if_pos h

theorem laneOf_high {n : Nat} (h : 8 ≤ n) (s : State) : laneOf s n = s.res1.extractLsb' (8 * (n - 8)) 8 :=
  if_neg (Nat.not_lt.mpr h)

/-- The lanes of a probability vector, as `setLanes` lays them out (R49). -/
theorem laneOf_setLanes {n : Nat} (h : n < 11) (s : State) (v : Nat → Byte) : laneOf (setLanes s v) n = v n := by
  rcases Nat.lt_or_ge n 8 with hn | hn
  · rw [laneOf_low hn]
    exact lowLanes_lane v n hn
  · rw [laneOf_high hn, setLanes, State.setRes_res1, extract_setWidth _ _ _ (by decide), highLanes_lane v _ (by omega),
      Nat.add_sub_cancel' hn]

/-- The model's read path is the one the statements are said with (R74). -/
theorem cellLane_eq_readNode (s : State) (cell : CellRef) (n : Nat) :
    cellLane Config.params s cell n = readNode s cell n := by
  simp [cellLane, readNode, pivot]

/-- Byte `j` of the register at offset `8 * k` is bits `8 * j + 7` down to `8 * j` of that register (R31). -/
theorem windowByte_eq_extract {k j : Nat} (hj : j < 8) (ho : 8 * k + j < 64) (P : Params) (s : State) :
    windowByte P s ⟨8 * k + j, ho⟩ = (windowRegister P s k).extractLsb' (8 * j) 8 := by
  have hdiv : (8 * k + j) / 8 = k := by omega
  have hmod : (8 * k + j) % 8 = j := by omega
  have hwidth : 8 * j + 7 + 1 - 8 * j = 8 := by omega
  apply BitVec.eq_of_toNat_eq
  simp [windowByte, bits, hdiv, hmod, hwidth, Nat.shiftRight_eq_div_pow]

theorem windowByte_low {n : Nat} (h : n < 8) (P : Params) (s : State) : windowByte P s ⟨0x18 + n, by omega⟩ = laneOf s n :=
  (windowByte_eq_extract (k := 3) h (by omega) P s).trans (laneOf_low h s).symm

theorem windowByte_high {n : Nat} (h8 : 8 ≤ n) (h : n ≤ 10) (P : Params) (s : State) :
    windowByte P s ⟨0x20 + (n - 8), by omega⟩ = laneOf s n :=
  (windowByte_eq_extract (k := 4) (by omega) (by omega) P s).trans (laneOf_high h8 s).symm

theorem probRead_inRange {cell : CellRef} (h : cellInRange cell = true) (P : Params) (s : State) :
    probRead P cell s = .next (setLanes s (cellLane P s cell)) := by simp [probRead, h]

/-- PROB_READ of a cell in range leaves the cell's vector in the lanes (R74, R75). -/
theorem laneOf_probRead {cell : CellRef} {s t : State} (hc : cellInRange cell = true) (h : exec (.probRead cell) s = .next t)
    {n : Nat} (hn : n < 11) : laneOf t n = readNode s cell n := by
  obtain rfl : setLanes s (cellLane Config.params s cell) = t :=
    Host.Outcome.next.inj ((probRead_inRange hc Config.params s).symm.trans h)
  rw [laneOf_setLanes hn, cellLane_eq_readNode]

/-- Settles O12: a byte of either result register is a lane, and a lane a node of the cell. -/
theorem lanesSitAtWindowBytes : Obligations.LanesSitAtWindowBytes := by
  intro s t cell h hb hx
  have hlane := fun n => laneOf_probRead (n := n) (cellInRange_iff.mpr ⟨hb, hx⟩) h
  exact ⟨fun n hn => (windowByte_low hn _ _).trans (hlane n (by omega)),
    fun n h8 hn => (windowByte_high h8 hn _ _).trans (hlane n (by omega))⟩

end Sys2Proof.Machine
end

section
/-! PROOFS of the family 30_encoding.md: the rows of the opcode map, the round trip of commands and words, and the masks of
the opcode table. -/

namespace Sys2Proof.Machine

/-! ## The verdict, row by row -/

theorem find?_opcodeMap {r : Byte × Format × (Word → Instr)} (hr : r ∈ opcodeMap) :
    (opcodeMap.find? fun q => q.1 == r.1) = some r := by
  fin_cases hr <;> rfl

theorem decode_of_mem {r : Byte × Format × (Word → Instr)} {w : Word} (hr : r ∈ opcodeMap) (ho : opcByte w = r.1) :
    decode w = if reservedClear r.2.1 w then .command (r.2.2 w) else .reservedField :=
  decode_of_row (find?_opcodeMap hr) ho

theorem decode_eq_badOpcode_iff {w : Word} : decode w = .badOpcode ↔ ∀ r ∈ opcodeMap, opcByte w ≠ r.1 := by
  constructor
  · intro h r hr ho
    rw [decode_of_mem hr ho] at h
    split at h <;> cases h
  · intro h
    exact decode_of_no_row (List.find?_eq_none.mpr fun r hr ho => h r hr (eq_of_beq ho).symm)

/-- The ranges R44 lists as undefined are what its rows leave. -/
theorem no_row_iff_undefinedOpcode (b : Byte) : (∀ r ∈ opcodeMap, b ≠ r.1) ↔ undefinedOpcode b := by
  have hb := b.isLt
  simp only [opcodeMap, List.mem_cons, List.not_mem_nil, or_false, forall_eq_or_imp, forall_eq, ne_eq, ← BitVec.toNat_inj,
    BitVec.toNat_ofNat, undefinedOpcode]
  omega

/-- Settles O4: the verdict means that no row has the word's opcode byte. -/
theorem undefinedOpcodesAreIllegal : Obligations.UndefinedOpcodesAreIllegal := fun w =>
  decode_eq_badOpcode_iff.trans (no_row_iff_undefinedOpcode (opcByte w))

theorem opcodeOf_row {r : Byte × Format × (Word → Instr)} (hr : r ∈ opcodeMap) (w : Word) : opcodeOf (r.2.2 w) = r.1 := by
  fin_cases hr <;> rfl

/-- Only the row of its own opcode byte decodes to a command. -/
theorem decode_eq_command_iff_of_row {i : Instr} {f : Format} {build : Word → Instr}
    (hr : (opcodeMap.find? fun r => r.1 == opcodeOf i) = some (opcodeOf i, f, build)) (w : Word) :
    decode w = .command i ↔ opcByte w = opcodeOf i ∧ reservedClear f w = true ∧ build w = i := by
  constructor
  · intro h
    have ho : opcByte w = opcodeOf i := by
      obtain ⟨g, build', hm, -, rfl⟩ := decode_command h
      exact (opcodeOf_row hm w).symm
    rw [decode_of_row hr ho] at h
    split at h
    · next hc => exact ⟨ho, hc, Verdict.command.inj h⟩
    · cases h
  · rintro ⟨ho, hc, hb⟩
    rw [decode_of_row_clear hr ho hc, hb]

/-! ## Operands read from a word, as equations between numbers -/

theorem opcByte_eq_iff {w : Word} {o : Byte} : opcByte w = o ↔ w.toNat % 256 = o.toNat := by
  rw [← BitVec.toNat_inj, opcByte_toNat]

theorem encode_eq_iff {i : Instr} {w : Word} : encode i = w ↔ encodeNat i % 2 ^ 64 = w.toNat := by
  rw [encode, ← BitVec.toNat_inj, BitVec.toNat_ofNat]

theorem sizeOfCode_eq_iff {n : Nat} (h : n < 4) {z : TxSize} : sizeOfCode n = z ↔ n = codeOfSize z :=
  ⟨fun hz => hz ▸ (codeOfSize_sizeOfCode h).symm, fun hn => hn ▸ sizeOfCode_codeOfSize z⟩

theorem txTypeOfCode_eq_iff {n : Nat} (h : n < 4) {t : TxType} : txTypeOfCode n = t ↔ n = codeOfTxType t :=
  ⟨fun ht => ht ▸ (codeOfTxType_txTypeOfCode h).symm, fun hn => hn ▸ txTypeOfCode_codeOfTxType t⟩

theorem refOfCode_eq_iff {n : Nat} (h : n < 2) {r : RefType} : refOfCode n = r ↔ n = codeOfRef r :=
  ⟨fun hr => hr ▸ (codeOfRef_refOfCode h).symm, fun hn => hn ▸ refOfCode_codeOfRef r⟩

theorem classOfCode_eq_iff {n : Nat} (h : n < 2) {c : PlaneClass} : classOfCode n = c ↔ n = codeOfClass c :=
  ⟨fun hc => hc ▸ (codeOfClass_classOfCode h).symm, fun hn => hn ▸ classOfCode_codeOfClass c⟩

theorem tokenOfCode_eq_iff {n : Nat} (h : n < 16) {t : Token} : tokenOfCode n = t ↔ n = codeOfToken t :=
  ⟨fun ht => ht ▸ (codeOfToken_tokenOfCode h).symm, fun hn => hn ▸ tokenOfCode_codeOfToken t⟩

theorem bitAt_eq_iff {w : Word} {k : Nat} {b : Bool} : bitAt w k = b ↔ bits w k k = codeOfBool b := by
  have hk : bits w k k < 2 := by simpa using bits_lt w k k
  exact ⟨fun h => h ▸ (codeOfBool_beq_one hk).symm, fun h => by rw [bitAt, h, codeOfBool_eq_one]⟩

theorem ofNat_byte_eq_iff {n : Nat} (h : n < 256) {b : Byte} : BitVec.ofNat 8 n = b ↔ n = b.toNat := by
  rw [← BitVec.toNat_inj, BitVec.toNat_ofNat, Nat.mod_eq_of_lt h]

theorem fieldCell_eq_iff {w : Word} {c : CellRef} : fieldCell w = c ↔
    bits w 8 8 = codeOfClass c.cls ∧ bits w 9 9 = codeOfRef c.ref ∧ bits w 12 10 = c.band ∧ bits w 15 13 = c.ctx := by
  cases c
  simp only [fieldCell, CellRef.mk.injEq, classOfCode_eq_iff (bits_lt w 8 8), refOfCode_eq_iff (bits_lt w 9 9)]

/-! ## The round trip -/

/-- The fields and the reserved bits of a format tile the word (R43): the word has the opcode byte, no reserved bit and the
operands of a command exactly when the command's number, each operand at its field's lowest bit, is the word's. -/
theorem decode_eq_command_iff {w : Word} {i : Instr} : decode w = .command i ↔ WellFormed i ∧ encode i = w := by
  have hw := w.isLt
  cases i
  all_goals
    rw [decode_eq_command_iff_of_row rfl, opcByte_eq_iff, encode_eq_iff]
    simp only [opcodeOf, BitVec.toNat_ofNat, reservedClear, reservedBits, List.all_cons, List.all_nil, Bool.and_true, beq_iff_eq,
      true_and, and_true, WellFormed, Instr.wellFormed, CellRef.wellFormed, Bool.and_eq_true, decide_eq_true_eq, encodeNat,
      encodeCell]
  case nop | clearErr | resetDefaults | clearCounts | fwdUpdate | adapt =>
    simp only [bits]
    omega
  case setConfig ce ae ie =>
    have hce := codeOfBool_lt ce
    have hae := codeOfBool_lt ae
    have hie := codeOfBool_lt ie
    simp only [Instr.setConfig.injEq, bitAt_eq_iff, bits]
    omega
  case blockStart z t p r =>
    have hz := codeOfSize_lt z
    have ht := codeOfTxType_lt t
    have hr := codeOfRef_lt r
    simp only [Instr.blockStart.injEq, sizeOfCode_eq_iff (bits_lt w 9 8), txTypeOfCode_eq_iff (bits_lt w 11 10),
      refOfCode_eq_iff (bits_lt w 14 14)]
    simp only [bits]
    omega
  case scanLookup c | bandLookup c =>
    simp only [Instr.scanLookup.injEq, Instr.bandLookup.injEq, fieldC, bits]
    omega
  case ctxDerive c col row | coefLookup c col row =>
    simp only [Instr.ctxDerive.injEq, Instr.coefLookup.injEq, fieldC, fieldCol, fieldRow, bits]
    omega
  case tcWrite c k =>
    have hk := codeOfToken_lt k
    simp only [Instr.tcWrite.injEq, tokenOfCode_eq_iff (bits_lt w 21 18), fieldC]
    simp only [bits]
    omega
  case ecWrite nz col row =>
    have hnz := codeOfBool_lt nz
    simp only [Instr.ecWrite.injEq, bitAt_eq_iff, fieldCol, fieldRow, bits]
    omega
  case ecClear above left =>
    have habove := codeOfBool_lt above
    have hleft := codeOfBool_lt left
    simp only [Instr.ecClear.injEq, bitAt_eq_iff, bits]
    omega
  case subexpUpdate p | modelExpand p =>
    have hp := p.isLt
    simp only [Instr.subexpUpdate.injEq, Instr.modelExpand.injEq, fieldProb, ofNat_byte_eq_iff (bits_lt w 15 8)]
    simp only [bits]
    omega
  case probRead cell | countRead cell node =>
    have hcls := codeOfClass_lt cell.cls
    have href := codeOfRef_lt cell.ref
    simp only [Instr.probRead.injEq, Instr.countRead.injEq, fieldCell_eq_iff, fieldNode, bits]
    omega
  case countRecord cell node br | countAdd cell node br amount =>
    have hcls := codeOfClass_lt cell.cls
    have href := codeOfRef_lt cell.ref
    have hbr := codeOfBool_lt br
    simp only [Instr.countRecord.injEq, Instr.countAdd.injEq, fieldCell_eq_iff, fieldNode, bitAt_eq_iff, bits]
    omega
  case probWrite cell node v =>
    have hcls := codeOfClass_lt cell.cls
    have href := codeOfRef_lt cell.ref
    have hv := v.isLt
    simp only [Instr.probWrite.injEq, fieldCell_eq_iff, fieldNode, ofNat_byte_eq_iff (bits_lt w 27 20)]
    simp only [bits]
    omega

/-- Settles O1: the right-to-left half of `decode_eq_command_iff`. -/
theorem decodeOfEncodeIsTheCommand : Obligations.DecodeOfEncodeIsTheCommand := fun _ h =>
  decode_eq_command_iff.mpr ⟨h, rfl⟩

/-- Settles O2: the left-to-right half of `decode_eq_command_iff`. -/
theorem decodedWordIsTheEncoding : Obligations.DecodedWordIsTheEncoding := fun _ _ =>
  decode_eq_command_iff.mp

/-! ## The masks of the opcode table -/

theorem bits_eq_zero_iff {w : Word} {hi lo : Nat} : bits w hi lo = 0 ↔ ∀ k, lo ≤ k → k ≤ hi → w.getLsbD k = false := by
  have hshift : ∀ k, (w.toNat / 2 ^ lo).testBit k = w.getLsbD (lo + k) := fun k => by
    rw [Nat.testBit_div_two_pow, BitVec.testBit_toNat, Nat.add_comm]
  simp only [bits, Nat.eq_iff_testBit_eq, Nat.testBit_mod_two_pow, Nat.zero_testBit, hshift, Bool.and_eq_false_imp,
    decide_eq_true_eq]
  exact ⟨fun h k hl hh => by simpa [Nat.add_sub_cancel' hl] using h (k - lo) (by omega),
    fun h k hk => h (lo + k) (by omega) (by omega)⟩

/-- The bits of a command word from `hi` down to `lo`, as a mask. -/
def rangeMask (hi lo : Nat) : Word := (BitVec.allOnes (hi + 1 - lo)).setWidth 64 <<< lo

theorem getLsbD_rangeMask {hi lo k : Nat} : (rangeMask hi lo).getLsbD k = decide (k < 64 ∧ lo ≤ k ∧ k ≤ hi) := by
  simp only [rangeMask, BitVec.getLsbD_shiftLeft, BitVec.getLsbD_setWidth, BitVec.getLsbD_allOnes, ← decide_not,
    ← Bool.decide_and, decide_eq_decide]
  omega

theorem and_rangeMask_eq_zero_iff {w : Word} {hi lo : Nat} : w &&& rangeMask hi lo = 0#64 ↔ bits w hi lo = 0 := by
  simp only [bits_eq_zero_iff, BitVec.eq_of_getLsbD_eq_iff, BitVec.getLsbD_and, getLsbD_rangeMask, BitVec.getLsbD_zero,
    Bool.and_eq_false_imp, decide_eq_false_iff_not]
  constructor
  · intro h k hl hh
    by_contra hk
    rw [Bool.not_eq_false] at hk
    exact h k (BitVec.lt_of_getLsbD hk) hk ⟨BitVec.lt_of_getLsbD hk, hl, hh⟩
  · rintro h k - hk ⟨-, hl, hh⟩
    exact Bool.false_ne_true ((h k hl hh).symm.trans hk)

/-- The bits a list of ranges covers, as a mask. -/
def rangesMask (rs : List (Nat × Nat)) : Word := rs.foldr (fun r m => rangeMask r.1 r.2 ||| m) 0#64

theorem and_rangesMask_eq_zero_iff {w : Word} {rs : List (Nat × Nat)} :
    w &&& rangesMask rs = 0#64 ↔ (rs.all fun r => bits w r.1 r.2 == 0) = true := by
  induction rs with
  | nil => simp [rangesMask]
  | cons r rs ih =>
    rw [rangesMask, List.foldr_cons, BitVec.and_or_distrib_left, BitVec.or_eq_zero_iff, and_rangeMask_eq_zero_iff,
      ← rangesMask, ih]
    simp

theorem and_reservedMask_eq_zero_iff {w : Word} {f : Format} :
    w &&& rangesMask (reservedBits f) = 0#64 ↔ reservedClear f w = true :=
  and_rangesMask_eq_zero_iff

theorem and_lowByte_eq_iff {w : Word} {o : Byte} : w &&& 0xFF#64 = o.setWidth 64 ↔ opcByte w = o := by
  rw [opcByte_eq_iff, ← BitVec.toNat_inj, BitVec.toNat_and, BitVec.toNat_setWidth_of_le (by decide),
    show (0xFF#64).toNat = 2 ^ 8 - 1 from rfl, Nat.and_two_pow_sub_one_eq_mod]

@[simp] theorem opcByte_setWidth (o : Byte) : opcByte (o.setWidth 64) = o := by
  rw [opcByte_eq_iff, BitVec.toNat_setWidth_of_le (by decide), Nat.mod_eq_of_lt o.isLt]

/-- No format reserves a bit of the opcode byte. -/
theorem reservedClear_setWidth (f : Format) (o : Byte) : reservedClear f (o.setWidth 64) = true := by
  have ho := o.isLt
  cases f <;> simp [reservedClear, reservedBits, bits] <;> omega

/-- The mask of a format: the opcode byte and the reserved bits (R43, R45). -/
def formatMask (f : Format) : Word := 0xFF#64 ||| rangesMask (reservedBits f)

/-- The opcode table is the opcode map's bytes with their formats' masks. -/
theorem opcodeTable_eq_map : opcodeTable = opcodeMap.map fun r => (r.1.setWidth 64, formatMask r.2.1) := rfl

/-- A part of a mask can be taken before or after the mask. -/
theorem and_or_and_left (w a b : Word) : (w &&& (a ||| b)) &&& a = w &&& a := by
  ext k
  simp only [BitVec.getElem_and, BitVec.getElem_or]
  cases a[k] <;> simp

/-- R45's masked comparison is the opcode byte's and the reserved bits', each by its part of the mask. -/
theorem and_formatMask_eq_iff {w : Word} {f : Format} {o : Byte} :
    w &&& formatMask f = o.setWidth 64 ↔ opcByte w = o ∧ reservedClear f w = true := by
  have hlow := and_lowByte_eq_iff.mpr (opcByte_setWidth o)
  have hhigh := and_reservedMask_eq_zero_iff.mpr (reservedClear_setWidth f o)
  rw [← and_lowByte_eq_iff, ← and_reservedMask_eq_zero_iff, formatMask]
  constructor
  · intro h
    constructor
    · rw [← and_or_and_left, h, hlow]
    · rw [← and_or_and_left, BitVec.or_comm, h, hhigh]
  · rintro ⟨h, hc⟩
    rw [BitVec.and_or_distrib_left, h, hc, BitVec.or_zero]

/-- Settles O3: through the map, a row's comparison is the two checks `decode` makes at that row. -/
theorem verdictsFollowMatchAndMask : Obligations.VerdictsFollowMatchAndMask := by
  intro w
  simp only [opcodeTable_eq_map, List.forall_mem_map, and_formatMask_eq_iff, opcByte_setWidth, ne_eq]
  refine ⟨fun r hr => ⟨?_, ?_⟩, fun r hr ho hm => ?_, decode_eq_badOpcode_iff.mpr⟩
  · rintro ⟨ho, hc⟩
    have hd : decode w = .command (r.2.2 w) := by rw [decode_of_mem hr ho, if_pos hc]
    obtain ⟨-, hw⟩ := decode_eq_command_iff.mp hd
    exact ⟨_, hd, by rw [hw, ho]⟩
  · rintro ⟨i, hd, ho⟩
    obtain ⟨-, hw⟩ := decode_eq_command_iff.mp hd
    rw [hw] at ho
    rw [decode_of_mem hr ho] at hd
    split at hd
    · next hc => exact ⟨ho, hc⟩
    · cases hd
  · rw [decode_of_mem hr ho, if_neg fun hc => hm ⟨ho, hc⟩]

end Sys2Proof.Machine
end

section
/-! PROOFS of the family 40_control.md: the command words the rules write out, and the commands NOP, CLEAR_ERR and SET_CONFIG. -/

namespace Sys2Proof.Machine

/-- Settles O5: each word is the encoding of its command, so `decode_eq_command_iff` says that it decodes to it. -/
theorem specWordsDecode : Obligations.SpecWordsDecode := by
  unfold Obligations.SpecWordsDecode
  simp only [decode_eq_command_iff]
  decide

/-! ## The register words after a control command -/

@[simp] theorem clearError_status (s : State) : (clearError s).status = Status.clear := rfl

@[simp] theorem irqOutput_clearError (s : State) : irqOutput (clearError s) = false := rfl

/-- With no error recorded every field of `STATUS` reads 0, `IRQ` included (R14). -/
@[simp] theorem statusWord_clearError (s : State) : statusWord (clearError s) = 0#64 := by
  simp [statusWord, Status.clear, bit]

/-- `CFG` reads as its three bits, zero-extended (R15). -/
theorem cfgWord_eq_setWidth (c : Cfg) : cfgWord c =
    (BitVec.ofBool c.irqEn ++ BitVec.ofBool c.adaptEn ++ BitVec.ofBool c.compactEn : BitVec 3).setWidth 64 := by
  rw [BitVec.setWidth_eq_append (by decide), BitVec.append_assoc', BitVec.append_assoc']
  rfl

/-- Settles O21: each command replaces at most one register, so putting the old value back gives the old state. -/
theorem controlCommandsWriteTheirRegister : Obligations.ControlCommandsWriteTheirRegister := by
  refine ⟨⟨rfl, fun s => ?nop⟩, ⟨rfl, fun s => ?clearErr⟩, fun ce ae ie s => ?setConfig⟩
  case nop => rfl
  case clearErr => exact ⟨clearError s, rfl, statusWord_clearError s, irqOutput_clearError s, rfl⟩
  case setConfig => exact ⟨_, rfl, cfgWord_eq_setWidth _, rfl⟩

end Sys2Proof.Machine
end

section
/-! PROOFS of the family 41_scan_band.md: the geometry a block latches, and the scan position and the band of a scan index. -/

namespace Sys2Proof.Machine

/-! ## The geometry of a block -/

/-- What BLOCK_START refuses, for plane codes below 4 (R57). -/
theorem illegalGeometry_iff {z : TxSize} {k : TxType} {p : Nat} (hp : p < 4) :
    illegalGeometry z k p = true ↔ p = 3 ∨ k = .code3 ∨ (z = .s32x32 ∧ k ≠ .dctDct) := by
  have plane : 3 ≤ p ↔ p = 3 := by omega
  simp [illegalGeometry, plane, or_assoc]

theorem scanIdOf_eq (z : TxSize) (k : TxType) :
    scanIdOf z k = if z = .s32x32 then 9 else 3 * codeOfSize z + codeOfTxType k := by
  cases z <;> rfl

/-- The scan order of a legal geometry covers the block: BLOCK_START can latch it, so this is `BlkLegal.scan`. -/
theorem scanLength_scanIdOf {z : TxSize} {k : TxType} {p : Nat} (h : illegalGeometry z k p = false) :
    scanLength (scanIdOf z k) = sizeCoefs z :=
  have legal : BlkLegal { valid := true, size := z, txtype := k, plane := p, ref := .intra, scanId := scanIdOf z k,
                          cls := planeClass p } := .inr ⟨rfl, h, rfl, rfl⟩
  (legal.scan rfl).2

/-- Settles O23: the scan order and the dimensions size by size, the length of the scan order by `scanLength_scanIdOf`. -/
theorem geometrySelectsScanAndClass : Obligations.GeometrySelectsScanAndClass := by
  refine ⟨fun z k h => ?scan, ⟨rfl, rfl, rfl⟩, fun z => ?dimensions⟩
  case scan =>
    refine ⟨?_, ?_, ?_, ?_, scanLength_scanIdOf h⟩
    all_goals rintro rfl; rfl
  case dimensions =>
    refine ⟨?_, ?_, ?_, ?_⟩
    all_goals rintro rfl; decide

theorem execBlockStart_illegal {z : TxSize} {k : TxType} {p : Nat} (h : illegalGeometry z k p = true) (r : RefType) (s : State) :
    execBlockStart z k p r s = raiseError .badGeometry opcBlockStart s := if_pos h

theorem execBlockStart_legal {z : TxSize} {k : TxType} {p : Nat} (h : illegalGeometry z k p = false) (r : RefType) (s : State) :
    execBlockStart z k p r s = .next ((s.setTc []).setBlk
      { valid := true, size := z, txtype := k, plane := p, ref := r, scanId := scanIdOf z k, cls := planeClass p }) :=
  if_neg (Bool.eq_false_iff.mp h)

/-- Settles O24: `illegalGeometry_iff` tells the two outcomes apart; a cache with nothing listed reads 0 throughout. -/
theorem blockStartLatchesTheGeometry : Obligations.BlockStartLatchesTheGeometry := by
  intro z k p r s hp
  refine ⟨fun illegal => ?illegal, fun plane txtype size => ?legal⟩
  case illegal => exact execBlockStart_illegal ((illegalGeometry_iff hp).mpr illegal) r s
  case legal =>
    have legal : illegalGeometry z k p = false := Bool.eq_false_iff.mpr fun h =>
      ((illegalGeometry_iff hp).mp h).elim plane fun h => h.elim txtype size
    refine ⟨_, execBlockStart_legal legal r s, fun c _ => rfl, ?blk, rfl⟩
    rw [← scanIdOf_eq]
    rfl

/-! ## The position of a scan index -/

section
variable {s t : State} {c d : Nat}

theorem scanLookup_noBlock (h : s.blk.valid = false) (P : Params) (c : Nat) :
    scanLookup P c s = raiseError .noBlock opcScanLookup s := by simp [scanLookup, h]

theorem scanLookup_pastBlock (hv : s.blk.valid = true) (hc : coefCount s ≤ c) (P : Params) :
    scanLookup P c s = raiseError .indexRange opcScanLookup s := by simp [scanLookup, hv, hc]

theorem scanLookup_inBlock (hv : s.blk.valid = true) (hc : c < coefCount s) (P : Params) :
    scanLookup P c s = .next (s.setRes 0#64 (posField (scanPosition P s c))) := by simp [scanLookup, hv, hc]

/-- R58: the positions of a block lie within it. -/
theorem scanPosition_lt (h : BlkLegal s.blk) (hv : s.blk.valid = true) (hc : c < coefCount s) :
    scanPosition Config.params s c < coefCount s := by
  obtain ⟨hs, hl⟩ := h.scan hv
  exact (Config.params_lawful.scan_range _ c hs (hc.trans_eq hl.symm)).trans_eq hl

/-- R58: no position of a block is visited twice. -/
theorem scanPosition_injective (h : BlkLegal s.blk) (hv : s.blk.valid = true) (hc : c < coefCount s) (hd : d < coefCount s)
    (he : scanPosition Config.params s c = scanPosition Config.params s d) : c = d := by
  obtain ⟨hs, hl⟩ := h.scan hv
  exact Config.params_lawful.scan_injective _ c d hs (hc.trans_eq hl.symm) (hd.trans_eq hl.symm) he

/-- The field `POS` holds a block's position whole: its ten bits suffice for the largest block. -/
theorem scanLookup_position (h : BlkLegal s.blk) (hv : s.blk.valid = true) (hc : c < coefCount s)
    (ht : exec (.scanLookup c) s = .next t) : (t.res1.extractLsb' 24 10).toNat = scanPosition Config.params s c := by
  obtain rfl := Host.Outcome.next.inj (ht.symm.trans (scanLookup_inBlock hv hc Config.params))
  exact posField_toNat ((scanPosition_lt h hv hc).trans_le (coefCount_le s))

/-! ## The band of a scan index -/

/-- The band of scan index `c` in the latched block: the ROM's up to index 21, 5 past it (R62). -/
def blockBand (s : State) (c : Nat) : Nat := if 21 < c then 5 else Config.params.bandRom s.blk.scanId c

theorem bandLookup_noBlock (h : s.blk.valid = false) (P : Params) (c : Nat) :
    bandLookup P c s = raiseError .noBlock opcBandLookup s := by simp [bandLookup, h]

theorem bandLookup_pastBlock (hv : s.blk.valid = true) (hc : coefCount s ≤ c) (P : Params) :
    bandLookup P c s = raiseError .indexRange opcBandLookup s := by simp [bandLookup, hv, hc]

/-- R63: in a latched block BAND_LOOKUP meets no band above 5, so it raises no error. -/
theorem bandLookup_inBlock (h : BlkLegal s.blk) (hv : s.blk.valid = true) (hc : c < coefCount s) :
    bandLookup Config.params c s = .next (s.setRes 0#64 (bandField (blockBand s c))) := by
  simp [bandLookup, hv, hc, band_of_block h hv hc, blockBand]

theorem blockBand_of_gt (hc : 21 < c) : blockBand s c = 5 := if_pos hc

theorem blockBand_of_le (hc : c ≤ 21) : blockBand s c = Config.params.bandRom s.blk.scanId c := if_neg hc.not_gt

theorem blockBand_le (h : BlkLegal s.blk) (hv : s.blk.valid = true) (hc : c < coefCount s) : blockBand s c ≤ 5 :=
  (bandOf_ok (band_of_block h hv hc)).1

/-- R62: past index 21 the band is the largest there is; up to there the ROM's bands do not decrease (R61). -/
theorem blockBand_monotone (h : BlkLegal s.blk) (hv : s.blk.valid = true) (hcd : c ≤ d) (hd : d < coefCount s) :
    blockBand s c ≤ blockBand s d := by
  obtain ⟨hs, hl⟩ := h.scan hv
  rcases Nat.lt_or_ge 21 d with past | upTo
  · rw [blockBand_of_gt past]
    exact blockBand_le h hv (hcd.trans_lt hd)
  · rw [blockBand_of_le upTo, blockBand_of_le (hcd.trans upTo)]
    exact Config.params_lawful.band_monotone _ c d hs hcd upTo (hd.trans_eq hl.symm)

/-- The field `BAND` holds the band whole: its three bits suffice for 5. -/
theorem bandLookup_band (h : BlkLegal s.blk) (hv : s.blk.valid = true) (hc : c < coefCount s)
    (ht : exec (.bandLookup c) s = .next t) : (t.res1.extractLsb' 34 3).toNat = blockBand s c := by
  obtain rfl := Host.Outcome.next.inj (ht.symm.trans (bandLookup_inBlock h hv hc))
  exact bandField_toNat ((blockBand_le h hv hc).trans_lt (by decide))

end

/-! ## The two lookups -/

/-- Settles O25: the three outcomes of `scanLookup`, at the configuration of the machine. -/
theorem scanLookupReturnsThePosition : Obligations.ScanLookupReturnsThePosition := fun c _ =>
  ⟨rfl, fun hv => scanLookup_noBlock hv Config.params c, fun hv hc => scanLookup_pastBlock hv hc Config.params,
    fun hv hc => scanLookup_inBlock hv hc Config.params⟩

/-- Settles O26: equal results have equal position fields, and `scanPosition_injective` does the rest. -/
theorem scanVisitsEveryPositionOnce : Obligations.ScanVisitsEveryPositionOnce := by
  intro c d s t u h hv hc hd ht hu
  have hpt := scanLookup_position h hv hc ht
  have hpu := scanLookup_position h hv hd hu
  refine ⟨hpt.trans_lt (scanPosition_lt h hv hc), fun same => scanPosition_injective h hv hc hd ?_⟩
  rw [← hpt, ← hpu, same]

/-- Settles O27: the three outcomes of `bandLookup`; the legal block rules out its fourth, the error of a ROM band above 5. -/
theorem bandLookupReturnsTheBand : Obligations.BandLookupReturnsTheBand := fun c _ h =>
  ⟨rfl, fun hv => bandLookup_noBlock hv Config.params c, fun hv hc => bandLookup_pastBlock hv hc Config.params,
    fun hv hc => bandLookup_inBlock h hv hc⟩

/-- Settles O28: the results are the bands, which rise to 5 and stay there. -/
theorem bandsDoNotDecrease : Obligations.BandsDoNotDecrease := by
  intro c d s t u h hv hcd hd ht hu
  have hc := hcd.trans_lt hd
  rw [bandLookup_band h hv hc ht, bandLookup_band h hv hd hu]
  exact ⟨blockBand_monotone h hv hcd hd, blockBand_le h hv hd, blockBand_of_gt⟩

end Sys2Proof.Machine
end

section
/-! PROOFS of the family 42_context.md: the token cache, the context of a coefficient, and the entropy-context arrays. -/

namespace Sys2Proof.Machine

/-! ## The token cache -/

section
variable {s : State} {c : Nat} {token : Token}

/-- R64, for the codes below 11. -/
theorem tokenClass_writable (h : codeOfToken token < 11) : tokenClass token =
    some (if codeOfToken token = 0 then .zero else if codeOfToken token = 1 then .one else .atLeastTwo) := by
  revert h
  cases token <;> decide

/-- R65: the codes from 11 on have no class. -/
theorem tokenClass_notWritable (h : 11 ≤ codeOfToken token) : tokenClass token = none := by
  revert h
  cases token <;> decide

theorem execTcWrite_noBlock (hv : s.blk.valid = false) (c : Nat) (token : Token) :
    execTcWrite c token s = raiseError .noBlock opcTcWrite s := by simp [execTcWrite, hv]

theorem execTcWrite_pastBlock (hv : s.blk.valid = true) (hc : coefCount s ≤ c) (token : Token) :
    execTcWrite c token s = raiseError .indexRange opcTcWrite s := by simp [execTcWrite, hv, hc]

theorem execTcWrite_badToken (hv : s.blk.valid = true) (hc : c < coefCount s) (ht : tokenClass token = none) :
    execTcWrite c token s = raiseError .badToken opcTcWrite s := by simp [execTcWrite, hv, hc, ht]

theorem execTcWrite_inBlock {m : MagClass} (hv : s.blk.valid = true) (hc : c < coefCount s) (ht : tokenClass token = some m) :
    execTcWrite c token s = .next (writeTc s c m) := by simp [execTcWrite, hv, hc, ht]

end

/-- Settles O29: the four outcomes of `execTcWrite`; the entry written and the others are `readTc_writeTc`. -/
theorem tcWriteRecordsTheClass : Obligations.TcWriteRecordsTheClass := by
  intro c token s
  refine ⟨fun hv => execTcWrite_noBlock hv c token, fun hv hc => execTcWrite_pastBlock hv hc token,
    fun hv hc ht => execTcWrite_badToken hv hc (tokenClass_notWritable ht), fun hv hc ht => ?write⟩
  refine ⟨_, execTcWrite_inBlock hv hc (tokenClass_writable ht), ?_, fun k hk => ?_, rfl⟩
  · rw [readTc_writeTc, if_pos rfl]
  · rw [readTc_writeTc, if_neg hk]

/-! ## The context of a coefficient -/

theorem codeOfBool_eq_toNat (b : Bool) : codeOfBool b = b.toNat := by cases b <;> rfl

theorem coefCount_pos (s : State) : 0 < coefCount s := by
  simp only [coefCount]
  cases s.blk.size <;> decide

section
variable {P : Params} {s : State} {c col row : Nat}

theorem spanInRange_iff : spanInRange P s col row = true ↔
    col + blockSpan s ≤ P.aboveEntries ∧ row + blockSpan s ≤ P.leftEntries := by simp [spanInRange]

theorem spanInRange_eq_false_iff : spanInRange P s col row = false ↔
    ¬(col + blockSpan s ≤ P.aboveEntries ∧ row + blockSpan s ≤ P.leftEntries) := by
  rw [← spanInRange_iff, Bool.not_eq_true]

theorem aboveFlag_iff : aboveFlag s col = true ↔ ∃ k, k < blockSpan s ∧ readAc s s.blk.plane (col + k) = true := by
  simp [aboveFlag]

theorem leftFlag_iff : leftFlag s row = true ↔ ∃ k, k < blockSpan s ∧ readLc s s.blk.plane (row + k) = true := by
  simp [leftFlag]

theorem contextOf_first (h : spanInRange P s col row = true) :
    contextOf P s 0 col row = .ok (codeOfBool (aboveFlag s col) + codeOfBool (leftFlag s row)) := by
  simp [contextOf, h]

theorem contextOf_pastSpan (h : spanInRange P s col row = false) : contextOf P s 0 col row = .error .indexRange := by
  simp [contextOf, h]

/-- The two checks of R68 are the laws of R66 and R67. -/
theorem breaksContextLaws_iff : breaksContextLaws P s c ↔
    badNeighbours (P.nbRom s.blk.scanId c) c = true ∨ 5 < combinedContext P s (P.nbRom s.blk.scanId c) := by
  simp [breaksContextLaws, badNeighbours, combinedContext, or_assoc]

theorem contextOf_broken (h1 : 1 ≤ c) (h : breaksContextLaws P s c) : contextOf P s c col row = .error .ctxRange := by
  unfold contextOf
  rw [if_neg (by omega)]
  rcases breaksContextLaws_iff.mp h with h | h
  · rw [if_pos h]
  · rw [if_pos h, ite_self]

theorem bandOf_broken {scan : Nat} (hc : c ≤ 21) (h : 5 < P.bandRom scan c) : bandOf P scan c = .error .ctxRange := by
  unfold bandOf bandLimit
  rw [if_neg hc.not_gt, if_pos h]

theorem bandLookup_error {e : Error} (hv : s.blk.valid = true) (hc : c < coefCount s)
    (hb : bandOf P s.blk.scanId c = .error e) : bandLookup P c s = raiseError e opcBandLookup s := by
  simp [bandLookup, hv, hc, hb]

/-! What CTX_DERIVE and COEF_LOOKUP refuse is the same, and it is decided by the block, the index and the span. -/

/-- The error by which a context lookup refuses its operands, before it reads a ROM or the cache (R69, R76). -/
def lookupError (P : Params) (s : State) (c col row : Nat) : Option Error :=
  if !s.blk.valid then some .noBlock
  else if coefCount s ≤ c then some .indexRange
  else if c == 0 && !spanInRange P s col row then some .indexRange
  else none

theorem lookupError_noBlock (hv : s.blk.valid = false) : lookupError P s c col row = some .noBlock := by
  simp [lookupError, hv]

theorem lookupError_pastBlock (hv : s.blk.valid = true) (hc : coefCount s ≤ c) :
    lookupError P s c col row = some .indexRange := by simp [lookupError, hv, hc]

theorem lookupError_pastSpan (hv : s.blk.valid = true) (hs : spanInRange P s col row = false) :
    lookupError P s 0 col row = some .indexRange := by simp [lookupError, hv, hs]

theorem lookupError_eq_none_iff : lookupError P s c col row = none ↔
    s.blk.valid = true ∧ c < coefCount s ∧ (c = 0 → spanInRange P s col row = true) := by
  unfold lookupError
  split_ifs <;> simp_all

theorem lookupError_mem {e : Error} (h : lookupError P s c col row = some e) : e ∈ [Error.noBlock, .indexRange] := by
  unfold lookupError at h
  split_ifs at h <;> cases h <;> simp

theorem ctxDerive_refused {e : Error} (h : lookupError P s c col row = some e) :
    ctxDerive P c col row s = raiseError e opcCtxDerive s := by
  unfold lookupError at h
  unfold ctxDerive
  split_ifs at h ⊢ with hv hc hs <;> cases h
  · rfl
  · rfl
  · obtain ⟨rfl, past⟩ : c = 0 ∧ spanInRange P s col row = false := by simpa using hs
    rw [contextOf_pastSpan past]

theorem ctxDerive_error {e : Error} (h : lookupError P s c col row = none) (hx : contextOf P s c col row = .error e) :
    ctxDerive P c col row s = raiseError e opcCtxDerive s := by
  obtain ⟨hv, hc, -⟩ := lookupError_eq_none_iff.mp h
  simp [ctxDerive, hv, hc, hx]

theorem ctxDerive_ok {x : Nat} (h : lookupError P s c col row = none) (hx : contextOf P s c col row = .ok x) :
    ctxDerive P c col row s = .next (s.setRes 0#64 (ctxField x)) := by
  obtain ⟨hv, hc, -⟩ := lookupError_eq_none_iff.mp h
  simp [ctxDerive, hv, hc, hx]

theorem coefLookup_refused {e : Error} (h : lookupError P s c col row = some e) :
    coefLookup P c col row s = raiseError e opcCoefLookup s := by
  unfold lookupError at h
  unfold coefLookup
  split_ifs at h ⊢ <;> cases h <;> rfl

theorem coefLookup_bandError {e : Error} (h : lookupError P s c col row = none) (hb : bandOf P s.blk.scanId c = .error e) :
    coefLookup P c col row s = raiseError e opcCoefLookup s := by
  unfold lookupError at h
  unfold coefLookup
  split_ifs at h ⊢
  simp only [hb]

theorem coefLookup_contextError {b : Nat} {e : Error} (h : lookupError P s c col row = none)
    (hb : bandOf P s.blk.scanId c = .ok b) (hx : contextOf P s c col row = .error e) :
    coefLookup P c col row s = raiseError e opcCoefLookup s := by
  unfold lookupError at h
  unfold coefLookup
  split_ifs at h ⊢
  simp only [hb, hx]

theorem coefLookup_ok {b x : Nat} (h : lookupError P s c col row = none)
    (hb : bandOf P s.blk.scanId c = .ok b) (hx : contextOf P s c col row = .ok x) :
    coefLookup P c col row s = .next (setCoef s (cellLane P s (lookupCell s b x)) (scanPosition P s c) b x) := by
  unfold lookupError at h
  unfold coefLookup
  split_ifs at h ⊢
  simp only [hb, hx]

/-- On the machine, a lookup whose operands are accepted finds a context. -/
theorem exists_context (hb : BlkLegal s.blk) (h : lookupError Config.params s c col row = none) :
    ∃ x, contextOf Config.params s c col row = .ok x := by
  obtain ⟨hv, hc, hs⟩ := lookupError_eq_none_iff.mp h
  rcases Nat.eq_zero_or_pos c with rfl | h1
  · exact ⟨_, contextOf_first (hs rfl)⟩
  · exact ⟨_, context_of_block hb hv h1 hc⟩

theorem combinedContext_eq_neighbourContext (s : State) (e : NbEntry) :
    combinedContext Config.params s e = neighbourContext s e := by simp [combinedContext, neighbourContext]

end

/-- Settles O30: the two flags are the edges' ORs, and a flag counts as its bit. -/
theorem firstContextCountsNonzeroNeighbours : Obligations.FirstContextCountsNonzeroNeighbours := by
  intro col row s hv
  refine ⟨fun past => ?pastSpan, fun hcol hrow a l ha hl => ?context⟩
  case pastSpan => exact ctxDerive_refused (lookupError_pastSpan hv (spanInRange_eq_false_iff.mpr past))
  case context =>
    have hs : spanInRange Config.params s col row = true := spanInRange_iff.mpr ⟨hcol, hrow⟩
    obtain rfl : aboveFlag s col = a := Bool.eq_iff_iff.mpr (aboveFlag_iff.trans ha.symm)
    obtain rfl : leftFlag s row = l := Bool.eq_iff_iff.mpr (leftFlag_iff.trans hl.symm)
    rw [← codeOfBool_eq_toNat, ← codeOfBool_eq_toNat]
    exact ctxDerive_ok (lookupError_eq_none_iff.mpr ⟨hv, coefCount_pos s, fun _ => hs⟩) (contextOf_first hs)

/-- Settles O31: in a legal block a later coefficient's neighbours meet the law of R66, so `context_of_block` gives its context. -/
theorem laterContextCombinesTheNeighbours : Obligations.LaterContextCombinesTheNeighbours := by
  intro c col row s hb
  refine ⟨fun hv => ctxDerive_refused (lookupError_noBlock hv), fun hv hc => ctxDerive_refused (lookupError_pastBlock hv hc),
    fun hv hc h1 => ?_⟩
  rw [← combinedContext_eq_neighbourContext]
  exact ctxDerive_ok (lookupError_eq_none_iff.mpr ⟨hv, hc, by omega⟩) (context_of_block hb hv h1 hc)

/-! ## CTX_RANGE -/

section
variable {i : Instr} {s t : State}

theorem Raised.code_ne_ctxRange {es : List Error} {opc : Byte} (h : Raised es opc s t) (hes : Error.ctxRange ∉ es) :
    t.status.code ≠ 9#4 := by
  obtain ⟨e, he, rfl⟩ := h
  intro hc
  exact hes (code_injective (f := .ctxRange) hc ▸ he)

theorem bandLookup_next_of_block (hb : BlkLegal s.blk) {c : Nat} (h : bandLookup Config.params c s = .next t) :
    Raised [.noBlock, .indexRange] opcBandLookup s t ∨ ∃ r, t = s.setRes 0#64 r := by
  cases hv : s.blk.valid with
  | false =>
    rw [bandLookup_noBlock hv] at h
    exact .inl ((Raised.of h).mono (by simp))
  | true =>
    rcases Nat.lt_or_ge c (coefCount s) with hc | hc
    · rw [bandLookup_inBlock hb hv hc] at h
      cases h
      exact .inr ⟨_, rfl⟩
    · rw [bandLookup_pastBlock hv hc] at h
      exact .inl ((Raised.of h).mono (by simp))

theorem ctxDerive_next_of_block (hb : BlkLegal s.blk) {c col row : Nat} (h : ctxDerive Config.params c col row s = .next t) :
    Raised [.noBlock, .indexRange] opcCtxDerive s t ∨ ∃ r, t = s.setRes 0#64 r := by
  cases he : lookupError Config.params s c col row with
  | some e =>
    rw [ctxDerive_refused he] at h
    exact .inl ⟨e, lookupError_mem he, raiseError_next h⟩
  | none =>
    obtain ⟨x, hx⟩ := exists_context hb he
    rw [ctxDerive_ok he hx] at h
    cases h
    exact .inr ⟨_, rfl⟩

theorem coefLookup_next_of_block (hb : BlkLegal s.blk) {c col row : Nat} (h : coefLookup Config.params c col row s = .next t) :
    Raised [.noBlock, .indexRange] opcCoefLookup s t ∨ ∃ v pos b x, t = setCoef s v pos b x := by
  cases he : lookupError Config.params s c col row with
  | some e =>
    rw [coefLookup_refused he] at h
    exact .inl ⟨e, lookupError_mem he, raiseError_next h⟩
  | none =>
    obtain ⟨hv, hc, -⟩ := lookupError_eq_none_iff.mp he
    obtain ⟨x, hx⟩ := exists_context hb he
    rw [coefLookup_ok he (band_of_block hb hv hc) hx] at h
    cases h
    exact .inr ⟨_, _, _, _, rfl⟩

/-- With the machine's ROMs a command either records another error than `CTX_RANGE`, or none. -/
theorem exec_never_raises_ctxRange (hb : BlkLegal s.blk) (hs : s.status.err = false) (h : exec i s = .next t) :
    t.status.code ≠ 9#4 ∨ t.status.err = false := by
  cases i with
  | nop | setConfig | resetDefaults | clearCounts | ecClear | adapt => cases h; exact .inr hs
  | clearErr => cases h; exact .inr rfl
  | blockStart => exact (execBlockStart_next h).imp (·.code_ne_ctxRange (by decide)) fun ⟨_, e⟩ => e ▸ hs
  | scanLookup => exact (scanLookup_next h).imp (·.code_ne_ctxRange (by decide)) fun ⟨_, _, e⟩ => e ▸ hs
  | bandLookup => exact (bandLookup_next_of_block hb h).imp (·.code_ne_ctxRange (by decide)) fun ⟨_, e⟩ => e ▸ hs
  | ctxDerive => exact (ctxDerive_next_of_block hb h).imp (·.code_ne_ctxRange (by decide)) fun ⟨_, e⟩ => e ▸ hs
  | tcWrite => exact (execTcWrite_next h).imp (·.code_ne_ctxRange (by decide)) fun ⟨_, _, _, _, e⟩ => e ▸ hs
  | ecWrite => exact (ecWrite_next h).imp (·.code_ne_ctxRange (by decide)) fun ⟨_, _, e⟩ => e ▸ hs
  | probRead => exact (probRead_next h).imp (·.code_ne_ctxRange (by decide)) fun ⟨_, e⟩ => e ▸ hs
  | coefLookup => exact (coefLookup_next_of_block hb h).imp (·.code_ne_ctxRange (by decide)) fun ⟨_, _, _, _, e⟩ => e ▸ hs
  | probWrite => exact (probWrite_next h).imp (·.code_ne_ctxRange (by decide)) fun ⟨_, _, _, e⟩ => e ▸ hs
  | countRecord => exact (execCountRecord_next h).imp (·.code_ne_ctxRange (by decide)) fun ⟨_, _, e⟩ => e ▸ hs
  | countAdd => exact (execCountAdd_next h).imp (·.code_ne_ctxRange (by decide)) fun ⟨_, _, e⟩ => e ▸ hs
  | countRead => exact (execCountRead_next h).imp (·.code_ne_ctxRange (by decide)) fun ⟨_, _, e⟩ => e ▸ hs
  | modelExpand => exact (modelExpand_next h).imp (·.code_ne_ctxRange (by decide)) fun ⟨_, e⟩ => e ▸ hs
  | subexpUpdate =>
    obtain r | ⟨_, _, _, _, _, rfl⟩ | ⟨_, _, _, r⟩ := execSubexpUpdate_next h
    · exact .inl (r.code_ne_ctxRange (by decide))
    · exact .inr hs
    · exact .inl (r.code_ne_ctxRange (by decide))
  | fwdUpdate =>
    obtain ⟨_, _, _, rfl⟩ | ⟨_, _, _, r⟩ := fwdUpdate_next h
    · exact .inr hs
    · exact .inl (r.code_ne_ctxRange (by decide))

end

/-- R68, R76: a lookup past its operands' checks that meets a band or a context that breaks its law raises `CTX_RANGE`. -/
theorem coefLookup_broken {P : Params} {s : State} {c col row : Nat} (h : lookupError P s c col row = none)
    (broken : (c ≤ 21 ∧ 5 < P.bandRom s.blk.scanId c) ∨ (1 ≤ c ∧ breaksContextLaws P s c)) :
    coefLookup P c col row s = raiseError .ctxRange opcCoefLookup s := by
  cases hb : bandOf P s.blk.scanId c with
  | error e => rw [coefLookup_bandError h hb, (bandOf_error hb).1]
  | ok b =>
    obtain ⟨hc, band⟩ | ⟨h1, context⟩ := broken
    · cases hb.symm.trans (bandOf_broken hc band)
    · exact coefLookup_contextError h hb (contextOf_broken h1 context)

/-- Settles O32: over the machine's ROMs by the outcomes of each command, over any ROMs by the checks of the lookups. -/
theorem contextRangeErrorNeverFires : Obligations.ContextRangeErrorNeverFires := by
  refine ⟨fun i s t hb hs h => exec_never_raises_ctxRange hb hs h, fun _ _ _ _ => ⟨rfl, rfl, rfl⟩,
    fun P c col row s hv hc => ⟨fun hc21 band => ?band, fun h1 context => ?context, fun span broken => ?coef⟩⟩
  case band => exact bandLookup_error hv hc (bandOf_broken hc21 band)
  case context =>
    exact ctxDerive_error (lookupError_eq_none_iff.mpr ⟨hv, hc, by omega⟩) (contextOf_broken h1 context)
  case coef =>
    exact coefLookup_broken (lookupError_eq_none_iff.mpr ⟨hv, hc, fun h0 => spanInRange_iff.mpr (span h0)⟩) broken

/-! ## The cache past the block -/

section
variable {s : State} {m : List (Nat × MagClass)} {c col row : Nat}

/-- The neighbours of a later coefficient lie before it, so caches alike up to it combine to the same context (R66). -/
theorem combinedContext_setTc {P : Params} {e : NbEntry} (he : badNeighbours e c = false)
    (hm : ∀ k, k < c → Memory.read tcReset m k = readTc s k) :
    combinedContext P (s.setTc m) e = combinedContext P s e := by
  simp only [badNeighbours, Bool.or_eq_false_iff, Bool.and_eq_false_imp, decide_eq_false_iff_not, Nat.not_le] at he
  obtain ⟨⟨-, first⟩, second⟩ := he
  have same (k : Nat) (hk : k < c) : readTc (s.setTc m) k = readTc s k := hm k hk
  unfold combinedContext
  rw [same _ first]
  split
  · next two => rw [same _ (second two)]
  · rfl

theorem contextOf_setTc (hb : BlkLegal s.blk) (hm : ∀ k, k < coefCount s → Memory.read tcReset m k = readTc s k)
    (hv : s.blk.valid = true) (hc : c < coefCount s) :
    contextOf Config.params (s.setTc m) c col row = contextOf Config.params s c col row := by
  rcases Nat.eq_zero_or_pos c with rfl | h1
  · rfl
  · rw [context_of_block hb hv h1 hc, context_of_block (s := s.setTc m) hb hv h1 hc]
    exact congrArg _ (combinedContext_setTc (neighbours_of_block hb hv h1 hc) fun k hk => hm k (hk.trans hc))

end

/-- Settles O33: the operands are refused alike, and else the context, all that is read of the cache, is the same. -/
theorem lookupsIgnoreTheCachePastTheBlock : Obligations.LookupsIgnoreTheCachePastTheBlock := by
  intro c col row s m hb hm
  cases he : lookupError Config.params s c col row with
  | some e =>
    exact ⟨⟨_, ctxDerive_refused he, ctxDerive_refused (s := s.setTc m) he⟩,
      ⟨_, coefLookup_refused he, coefLookup_refused (s := s.setTc m) he⟩⟩
  | none =>
    obtain ⟨hv, hc, -⟩ := lookupError_eq_none_iff.mp he
    obtain ⟨x, hx⟩ := exists_context hb he
    have hband := band_of_block hb hv hc
    have hx' : contextOf Config.params (s.setTc m) c col row = .ok x := (contextOf_setTc hb hm hv hc).trans hx
    exact ⟨⟨_, ctxDerive_ok he hx, ctxDerive_ok (s := s.setTc m) he hx'⟩,
      ⟨_, coefLookup_ok he hband hx, coefLookup_ok (s := s.setTc m) he hband hx'⟩⟩

/-! ## The entropy-context arrays -/

theorem ecWrite_noBlock {s : State} (hv : s.blk.valid = false) (P : Params) (nz : Bool) (col row : Nat) :
    ecWrite P nz col row s = raiseError .noBlock opcEcWrite s := by simp [ecWrite, hv]

theorem ecWrite_pastSpan {P : Params} {s : State} {col row : Nat} (hv : s.blk.valid = true)
    (hs : spanInRange P s col row = false) (nz : Bool) :
    ecWrite P nz col row s = raiseError .indexRange opcEcWrite s := by simp [ecWrite, hv, hs]

theorem ecWrite_inSpan {P : Params} {s : State} {col row : Nat} (hv : s.blk.valid = true)
    (hs : spanInRange P s col row = true) (nz : Bool) :
    ecWrite P nz col row s = .next (fillEdges s s.blk.plane col row (blockSpan s) nz) := by simp [ecWrite, hv, hs]

/-- Settles O34: the entries written and kept are those of `fillEdges`, whose keys are apart as no array passes 65535 entries. -/
theorem ecWriteMarksTheBlocksEdges : Obligations.EcWriteMarksTheBlocksEdges := by
  intro nz col row s
  refine ⟨fun hv => ecWrite_noBlock hv _ nz col row, fun hv past => ecWrite_pastSpan hv (spanInRange_eq_false_iff.mpr past) nz,
    fun hv hcol hrow => ?write⟩
  have above := hcol.trans Config.params_lawful.above_range.2
  have left := hrow.trans Config.params_lawful.left_range.2
  exact ⟨_, ecWrite_inSpan hv (spanInRange_iff.mpr ⟨hcol, hrow⟩) nz,
    fun p k hk => readAc_fillEdges s _ col row _ p k nz (by omega) hk,
    fun p k hk => readLc_fillEdges s _ col row _ p k nz (by omega) hk, rfl⟩

/-- Settles O35: an array with nothing listed reads 0 throughout, and an array not named keeps its list. -/
theorem ecClearZeroesTheNamedArrays : Obligations.EcClearZeroesTheNamedArrays := by
  intro above left s
  refine ⟨_, rfl, fun p k => ?above, fun p k => ?left, ?keepsAbove, ?keepsLeft, rfl⟩
  case above => cases above <;> rfl
  case left => cases left <;> rfl
  case keepsAbove => rintro rfl; rfl
  case keepsLeft => rintro rfl; rfl

end Sys2Proof.Machine
end

section
/-! PROOFS of the family 43_probability_store.md: the vectors PROB_READ and COEF_LOOKUP return, the stores to the two tables, and
that no stored probability becomes 0. -/

namespace Sys2Proof.Machine

/-! ## The fields of a result -/

/-- Past the width of the value it was made from, a register holds 0 (R16). -/
theorem extract_past_setWidth {a lo : Nat} (x : BitVec a) (h : a ≤ lo) (n : Nat) : (x.setWidth 64).extractLsb' lo n = 0#n := by
  apply BitVec.eq_of_getLsbD_eq
  intro i hi
  simp [BitVec.getLsbD_setWidth, BitVec.getLsbD_of_ge x (lo + i) (by omega)]

/-- A concatenation in a register is its parts, each shifted to its place. -/
theorem setWidth_append_eq_or {a b : Nat} (x : BitVec a) (y : BitVec b) :
    (x ++ y).setWidth 64 = x.setWidth 64 <<< b ||| y.setWidth 64 := by
  apply BitVec.eq_of_getLsbD_eq
  intro i hi
  simp only [BitVec.getLsbD_setWidth, BitVec.getLsbD_append, BitVec.getLsbD_or, BitVec.getLsbD_shiftLeft]
  rcases Nat.lt_or_ge i b with low | high
  · simp [low, hi]
  · simp [hi, Nat.not_lt.mpr high, BitVec.getLsbD_of_ge y i high, Nat.lt_of_le_of_lt (Nat.sub_le i b) hi]

section
variable (s : State) (v : Nat → Byte) (pos b x : Nat)

theorem setCoef_res1 : (setCoef s v pos b x).res1 =
    (BitVec.ofNat 3 x ++ BitVec.ofNat 3 b ++ BitVec.ofNat 10 pos ++ highLanes v).setWidth 64 := rfl

/-- R76: the second register of COEF_LOOKUP is the position, the band, the context and the high lanes, each in its own place. -/
theorem setCoef_res1_eq_or :
    (setCoef s v pos b x).res1 = posField pos ||| bandField b ||| ctxField x ||| (highLanes v).setWidth 64 := by
  have lowestFirst (x b p l : Word) : x ||| b ||| p ||| l = p ||| b ||| x ||| l := by ac_rfl
  rw [setCoef_res1, setWidth_append_eq_or, setWidth_append_eq_or, setWidth_append_eq_or]
  simp only [BitVec.shiftLeft_or_distrib, ← BitVec.shiftLeft_add]
  exact lowestFirst ..

theorem extract_setCoef (lo n : Nat) : (setCoef s v pos b x).res1.extractLsb' lo n =
    (BitVec.ofNat 3 x ++ BitVec.ofNat 3 b ++ BitVec.ofNat 10 pos ++ highLanes v).extractLsb' lo n :=
  extract_setWidth _ lo n (by decide)

theorem setCoef_pos : (setCoef s v pos b x).res1.extractLsb' 24 10 = BitVec.ofNat 10 pos :=
  (extract_setCoef ..).trans <| extract_above BitVec.extractLsb'_append_eq_right

theorem setCoef_band : (setCoef s v pos b x).res1.extractLsb' 34 3 = BitVec.ofNat 3 b :=
  (extract_setCoef ..).trans <| extract_above <| extract_above BitVec.extractLsb'_append_eq_right

theorem setCoef_ctx : (setCoef s v pos b x).res1.extractLsb' 37 3 = BitVec.ofNat 3 x :=
  (extract_setCoef ..).trans <| extract_above <| extract_above <| extract_above BitVec.extractLsb'_eq_self

/-- The lanes of COEF_LOOKUP lie where those of PROB_READ do (R49). -/
theorem laneOf_setCoef {n : Nat} (h : n < 11) : laneOf (setCoef s v pos b x) n = v n := by
  rcases Nat.lt_or_ge n 8 with hn | hn
  · rw [laneOf_low hn]
    exact lowLanes_lane v n hn
  · rw [laneOf_high hn, extract_setCoef, BitVec.extractLsb'_append_eq_of_add_le (by omega), highLanes_lane v _ (by omega),
      Nat.add_sub_cancel' hn]
end

/-! ## The vector of a cell -/

theorem cellInRange_eq_false_iff {cell : CellRef} : cellInRange cell = false ↔ 6 ≤ cell.band ∨ 6 ≤ cell.ctx := by
  rw [Bool.eq_false_iff, ne_eq, cellInRange_iff]
  omega

theorem nodeInRange_eq_false_iff {node : Nat} : nodeInRange node = false ↔ 11 ≤ node := by
  rw [Bool.eq_false_iff, ne_eq, nodeInRange_iff]
  omega

theorem probRead_outOfRange {cell : CellRef} (h : cellInRange cell = false) (P : Params) (s : State) :
    probRead P cell s = raiseError .indexRange opcProbRead s := by simp [probRead, h]

/-- Settles O37: the two outcomes of `probRead`, whose lanes are `laneOf_probRead`. -/
theorem probReadReturnsTheVector : Obligations.ProbReadReturnsTheVector := by
  intro cell s
  refine ⟨fun out => probRead_outOfRange (cellInRange_eq_false_iff.mpr out) _ s, fun hb hx => ?read⟩
  have hc := cellInRange_iff.mpr ⟨hb, hx⟩
  have hread := probRead_inRange hc Config.params s
  exact ⟨_, hread, fun n hn => laneOf_probRead hc hread hn, extract_past_setWidth _ (Nat.le_refl 24) 40, rfl⟩

section
variable {s t : State} {c col row x : Nat}

/-- A lookup in a latched block whose operands are accepted reads the cell of its band and its context (R76). -/
theorem coefLookup_inBlock (hb : BlkLegal s.blk) (h : lookupError Config.params s c col row = none)
    (hx : contextOf Config.params s c col row = .ok x) : exec (.coefLookup c col row) s =
      .next (setCoef s (cellLane Config.params s (lookupCell s (blockBand s c) x)) (scanPosition Config.params s c) (blockBand s c) x) :=
  have ⟨hv, hc, _⟩ := lookupError_eq_none_iff.mp h
  coefLookup_ok h (band_of_block hb hv hc) hx

/-- A first coefficient's context is a count of two flags (R68). -/
theorem contextOf_first_le {P : Params} (h : contextOf P s 0 col row = .ok x) : x ≤ 2 := by
  obtain ⟨-, -, rfl⟩ | ⟨later, -⟩ := contextOf_ok h
  · have := codeOfBool_lt (aboveFlag s col)
    have := codeOfBool_lt (leftFlag s row)
    omega
  · exact absurd rfl later

/-- A later coefficient's context is that of its neighbours (R68). -/
theorem contextOf_later_eq (h1 : 1 ≤ c) (h : contextOf Config.params s c col row = .ok x) :
    x = neighbourContext s (Config.params.nbRom s.blk.scanId c) := by
  obtain ⟨rfl, -⟩ | ⟨-, -, -, rfl⟩ := contextOf_ok h
  · cases h1
  · exact combinedContext_eq_neighbourContext s _

end

/-- Settles O38: the operands are refused in order by `lookupError`, and else `setCoef` holds the four fields and the vector. -/
theorem coefLookupReturnsTheLookups : Obligations.CoefLookupReturnsTheLookups := by
  intro c col row s hb
  refine ⟨fun hv => coefLookup_refused (lookupError_noBlock hv), fun hv hc => coefLookup_refused (lookupError_pastBlock hv hc),
    fun hv hc h0 past => ?pastSpan, fun hv hc span => ?lookup⟩
  case pastSpan =>
    subst h0
    exact coefLookup_refused (lookupError_pastSpan hv (spanInRange_eq_false_iff.mpr past))
  case lookup =>
    have accepted : lookupError Config.params s c col row = none :=
      lookupError_eq_none_iff.mpr ⟨hv, hc, fun h0 => spanInRange_iff.mpr (span h0)⟩
    obtain ⟨x, hx⟩ := exists_context hb accepted
    refine ⟨_, blockBand s c, x, coefLookup_inBlock hb accepted hx, blockBand_le hb hv hc, contextOf_le hx, rfl,
      fun h1 => contextOf_later_eq h1 hx, fun h0 => ?first, fun n hn => ?lane, setCoef_pos .., setCoef_band .., setCoef_ctx ..,
      extract_past_setWidth _ (Nat.le_refl 40) 24, rfl⟩
    case first =>
      subst h0
      exact ⟨contextOf_first_le hx, ctxDerive_ok accepted hx⟩
    case lane => exact (laneOf_setCoef (h := hn) ..).trans (cellLane_eq_readNode s _ n)

/-- COEF_LOOKUP of operands it refuses is an error. -/
theorem lookupError_of_coefLookup {s t : State} {c col row : Nat} (h : exec (.coefLookup c col row) s = .next t)
    (ht : t.status.err = false) : lookupError Config.params s c col row = none := by
  cases he : lookupError Config.params s c col row with
  | none => rfl
  | some e =>
    obtain rfl := raiseError_next ((coefLookup_refused he).symm.trans h)
    cases ht

/-- The fields `BAND` and `CTX` of two results name the cell whole: three bits suffice for 5. -/
theorem probRead_of_fields {b x : Nat} (hb : b ≤ 5) (hx : x ≤ 5) (cls : PlaneClass) (ref : RefType) (s : State) :
    exec (.probRead ⟨cls, ref, ((bandField b).extractLsb' 34 3).toNat, ((ctxField x).extractLsb' 37 3).toNat⟩) s =
      .next (setLanes s (cellLane Config.params s ⟨cls, ref, b, x⟩)) := by
  rw [bandField_toNat (by omega), ctxField_toNat (by omega)]
  exact probRead_inRange (cellInRange_iff.mpr ⟨Nat.lt_succ_of_le hb, Nat.lt_succ_of_le hx⟩) _ s

/-- Settles O39: the commands before it change only the results, so each finds what COEF_LOOKUP finds, and the fields of band
and context give PROB_READ the cell that COEF_LOOKUP reads. -/
theorem coefLookupEqualsTheFourCommands : Obligations.CoefLookupEqualsTheFourCommands := by
  intro c col row s t hb _ h ht
  have accepted := lookupError_of_coefLookup h ht
  obtain ⟨hv, hc, -⟩ := lookupError_eq_none_iff.mp accepted
  obtain ⟨x, hx⟩ := exists_context hb accepted
  obtain rfl := Host.Outcome.next.inj ((coefLookup_inBlock hb accepted hx).symm.trans h)
  exact ⟨_, _, _, _, scanLookup_inBlock hv hc _, bandLookup_inBlock (s := s.setRes _ _) hb hv hc,
    ctxDerive_ok (s := (s.setRes _ _).setRes _ _) accepted hx, probRead_of_fields (blockBand_le hb hv hc) (contextOf_le hx) _ _ _,
    rfl, setCoef_res1_eq_or .., rfl⟩

/-! ## The stores to the tables -/

section
variable {cell : CellRef} {node : Nat}

theorem probWrite_outOfRange (h : cellInRange cell = false ∨ nodeInRange node = false) (P : Params) (value : Byte) (s : State) :
    probWrite P cell node value s = raiseError .indexRange opcProbWrite s := by
  rcases h with h | h <;> simp [probWrite, h]

theorem probWrite_zero (hc : cellInRange cell = true) (hn : node < 11) (P : Params) (s : State) :
    probWrite P cell node 0#8 s = raiseError .badProb opcProbWrite s := by simp [probWrite, hc, nodeInRange_iff.mpr hn]

theorem probWrite_inRange {value : Byte} (hc : cellInRange cell = true) (hn : node < 11) (hv : value ≠ 0#8)
    (P : Params) (s : State) : probWrite P cell node value s = .next (writePt P s (ptx cell node) value) := by
  simp [probWrite, hc, nodeInRange_iff.mpr hn, hv]

theorem execCountRecord_badCell (hc : cellInRange cell = false) (br : Bool) (s : State) :
    execCountRecord cell node br s = raiseError .indexRange opcCountRecord s := by simp [execCountRecord, hc]

theorem execCountRecord_badNode (hc : cellInRange cell = true) (hn : nodeInRange node = false) (br : Bool) (s : State) :
    execCountRecord cell node br s = raiseError .nodeRange opcCountRecord s := by simp [execCountRecord, hc, hn]

theorem execCountRecord_inRange (hc : cellInRange cell = true) (hn : node < 11) (br : Bool) (s : State) :
    execCountRecord cell node br s = .next (bumpCount s (ptx cell node) br 1) := by
  simp [execCountRecord, hc, nodeInRange_iff.mpr hn]

theorem execCountAdd_badCell (hc : cellInRange cell = false) (br : Bool) (a : Nat) (s : State) :
    execCountAdd cell node br a s = raiseError .indexRange opcCountAdd s := by simp [execCountAdd, hc]

theorem execCountAdd_badNode (hc : cellInRange cell = true) (hn : nodeInRange node = false) (br : Bool) (a : Nat) (s : State) :
    execCountAdd cell node br a s = raiseError .nodeRange opcCountAdd s := by simp [execCountAdd, hc, hn]

theorem execCountRead_outOfRange (h : cellInRange cell = false ∨ nodeInRange node = false) (s : State) :
    execCountRead cell node s = raiseError .indexRange opcCountRead s := by
  rcases h with h | h <;> simp [execCountRead, h]

theorem execCountRead_inRange (hc : cellInRange cell = true) (hn : node < 11) (s : State) :
    execCountRead cell node s = .next (s.setRes (readCt s (ptx cell node) true ++ readCt s (ptx cell node) false) 0#64) := by
  simp [execCountRead, hc, nodeInRange_iff.mpr hn]

/-- A flat index is out of range where its cell or its node is. -/
theorem index_outOfRange_iff : 6 ≤ cell.band ∨ 6 ≤ cell.ctx ∨ 11 ≤ node ↔ cellInRange cell = false ∨ nodeInRange node = false := by
  rw [cellInRange_eq_false_iff, nodeInRange_eq_false_iff, or_assoc]

end

/-- Settles O40: the three outcomes of `probWrite`; the entry written and the others are `readPt_writePt`. -/
theorem probWriteStoresOneEntry : Obligations.ProbWriteStoresOneEntry := by
  intro cell node value s
  refine ⟨fun out => probWrite_outOfRange (index_outOfRange_iff.mp out) _ value s, fun hb hx hn h0 => ?zero, fun hb hx hn hv => ?write⟩
  case zero =>
    subst h0
    exact probWrite_zero (cellInRange_iff.mpr ⟨hb, hx⟩) hn _ s
  case write =>
    refine ⟨_, probWrite_inRange (cellInRange_iff.mpr ⟨hb, hx⟩) hn hv _ s, ?_, fun i hi => ?_, rfl⟩
    · rw [readPt_writePt, if_pos rfl]
    · rw [readPt_writePt, if_neg hi]

/-- R78: the counter an increment names becomes the saturated sum. -/
theorem bumpCount_self (s : State) (i : Nat) (br : Bool) (a : Nat) :
    (readCt (bumpCount s i br a) i br).toNat = min ((readCt s i br).toNat + a) (2 ^ 32 - 1) := by
  rw [readCt_bumpCount, if_pos ⟨rfl, rfl⟩]
  exact countAddSat_toNat _ a

/-- An increment keeps every counter of another cell, node or branch, since no two have one flat index (R33). -/
theorem bumpCount_other {cell c : CellRef} {node n : Nat} {br b : Bool} (hc : cellInRange cell = true) (hn : node < 11)
    (hc' : cellInRange c = true) (hn' : n < 11) (other : (c, n, b) ≠ (cell, node, br)) (s : State) (a : Nat) :
    readCt (bumpCount s (ptx cell node) br a) (ptx c n) b = readCt s (ptx c n) b := by
  rw [readCt_bumpCount, if_neg]
  rintro ⟨same, rfl⟩
  obtain ⟨rfl, rfl⟩ := ptx_injective hc' hn' hc hn same
  exact other rfl

/-- Settles O41: COUNT_RECORD and COUNT_ADD are the same increment, of 1 and of the amount. -/
theorem countCommandsAddSaturating : Obligations.CountCommandsAddSaturating := by
  intro cell node br amount s
  refine ⟨fun out => ?badCell, fun hb hx hn => ?badNode, fun hb hx hn => ?add⟩
  case badCell =>
    have hc := cellInRange_eq_false_iff.mpr out
    exact ⟨execCountRecord_badCell hc br s, execCountAdd_badCell hc br amount s⟩
  case badNode =>
    have hc := cellInRange_iff.mpr ⟨hb, hx⟩
    have hn := nodeInRange_eq_false_iff.mpr hn
    exact ⟨execCountRecord_badNode hc hn br s, execCountAdd_badNode hc hn br amount s⟩
  case add =>
    have hc := cellInRange_iff.mpr ⟨hb, hx⟩
    refine ⟨_, _, execCountRecord_inRange hc hn br s, execCountAdd_inRange hc hn br amount s,
      execCountAdd_inRange hc hn br 1 s, bumpCount_self s _ br 1, bumpCount_self s _ br amount,
      fun c n b hb' hx' hn' other => ?_, rfl, rfl⟩
    have keeps := bumpCount_other hc hn (cellInRange_iff.mpr ⟨hb', hx'⟩) hn' other s
    exact ⟨keeps 1, keeps amount⟩

/-- Settles O43: the two outcomes of `execCountRead`; the result is the concatenation of the two counters. -/
theorem countReadReturnsBothCounters : Obligations.CountReadReturnsBothCounters := by
  intro cell node s
  refine ⟨fun out => execCountRead_outOfRange (index_outOfRange_iff.mp out) s, fun hb hx hn => ?_⟩
  exact ⟨_, execCountRead_inRange (cellInRange_iff.mpr ⟨hb, hx⟩) hn s, BitVec.extractLsb'_append_eq_right,
    BitVec.extractLsb'_append_eq_left, rfl, rfl⟩

/-- Settles O44: a table with nothing listed reads its reset contents throughout. -/
theorem tableResetsReloadAndZero : Obligations.TableResetsReloadAndZero := fun s =>
  ⟨⟨s.setPt [], rfl, fun i _ => Memory.read_nil _ i, rfl⟩, ⟨s.setCt [], rfl, fun _ _ => Memory.read_nil _ _, rfl⟩⟩

/-! ## No stored probability becomes 0 -/

/-- No entry of the table is 0, whatever list represents it (R72). -/
def PtNonzero (P : Params) (m : List Host.Cell) : Prop := ∀ i, i < numEntries → Memory.read P.defaultPt m i ≠ 0#8

section
variable {P : Params} {s t : State} {m : List Host.Cell}

theorem PtNonzero.write (h : PtNonzero P m) {v : Byte} (hv : v ≠ 0#8) (k : Nat) : PtNonzero P (Memory.write P.defaultPt m k v) := by
  intro i hi
  rw [Memory.read_write]
  split
  · exact hv
  · exact h i hi

/-- R93: however the walk of FWD_UPDATE ends, each entry it has stored is in 1..255. -/
theorem ptNonzero_fwdLoop {xs : List Nat} (hx : ∀ i ∈ xs, i < numEntries) (h : PtNonzero P m) (port : BitPort) :
    PtNonzero P (fwdLoop P xs m port).pt := by
  induction xs generalizing m port with
  | nil => exact h
  | cons x xs ih =>
    obtain ⟨hx, hxs⟩ := List.forall_mem_cons.mp hx
    simp only [fwdLoop]
    split
    · next hd => exact ih hxs (h.write (diffUpdate_nonzero (h x hx) hd) x) _
    · exact h
    · exact h

theorem PtNonzero.fwdUpdate (hL : P.Lawful) (h : PtNonzero P s.pt) (ht : fwdUpdate P s = .next t) : PtNonzero P t.pt := by
  have walked : PtNonzero P (fwdWalk P s).pt :=
    ptNonzero_fwdLoop (fun _ => lt_of_mem_fwdOrder (signalledNodes_le hL _)) h _
  rcases fwdUpdate_next ht with ⟨pt, port, e, rfl⟩ | ⟨pt, port, e, _, _, rfl⟩
  all_goals
    rw [e] at walked
    exact walked

/-- R97, law M1: ADAPT merges a probability in 1..255 to one in 1..255. -/
theorem PtNonzero.adapt (hL : P.Lawful) (h : PtNonzero P s.pt) (ht : adapt P s = .next t) : PtNonzero P t.pt := by
  cases ht
  intro i hi
  simp only [State.setCt_pt, State.setPt_pt]
  split
  · rw [adaptLoop_at P s _ _ i List.nodup_range (List.mem_range.mpr hi)]
    exact adaptedProb_nonzero hL s i (h i hi)
  · exact h i hi

theorem PtNonzero.probWrite (h : PtNonzero P s.pt) {cell : CellRef} {node : Nat} {v : Byte}
    (ht : probWrite P cell node v s = .next t) : PtNonzero P t.pt := by
  rcases probWrite_next ht with ⟨_, _, rfl⟩ | ⟨-, -, hv, rfl⟩
  · exact h
  · exact h.write hv _

end

/-- Settles O17: only the four writers of the table can change it (O20), and none of them stores a 0. -/
theorem storedProbabilitiesStayInRange : Obligations.StoredProbabilitiesStayInRange := by
  intro i s t hs h
  have hs : PtNonzero Config.params s.pt := hs
  show PtNonzero Config.params t.pt
  obtain ⟨-, -, writers, -⟩ := eachStateHasItsWriters i s t h
  obtain same | rfl | ⟨cell, node, v, rfl⟩ | rfl | rfl := writers
  · exact same ▸ hs
  · cases h
    exact Config.params_lawful.default_range
  · exact hs.probWrite h
  · exact hs.fwdUpdate Config.params_lawful h
  · exact hs.adapt Config.params_lawful h

end Sys2Proof.Machine
end

section
/-! PROOFS of the family 44_forward_update.md: the remapping of an index, and the codeword it is sent as. -/

namespace Sys2Proof.Machine

/-! ## The remapping of an index -/

theorem unmergedDistances_length : unmergedDistances.length = 234 := by rfl

theorem mem_unmergedDistances {j : Nat} : j ∈ unmergedDistances ↔ j < 254 ∧ j % 13 ≠ 6 := by
  simp [unmergedDistances]

theorem unmergedDistances_nodup : unmergedDistances.Nodup := List.nodup_range.filter _

theorem merge13_of_lt {v : Nat} (h : v < 20) : merge13 v = 13 * v + 6 := if_pos h

theorem merge13_unmerged {k : Nat} (h : k < unmergedDistances.length) : merge13 (20 + k) = unmergedDistances[k] := by
  simp [merge13, h]

/-- R88: an index is one of the first twenty, which take the distances that are 6 modulo 13, or one of the others, which take the
other distances in order. -/
theorem merge13_cases {v : Nat} (h : v ≤ 253) :
    (v < 20 ∧ merge13 v = 13 * v + 6) ∨ ∃ k, ∃ hk : k < unmergedDistances.length, v = 20 + k ∧ merge13 v = unmergedDistances[k] := by
  rcases Nat.lt_or_ge v 20 with hv | hv
  · exact .inl ⟨hv, merge13_of_lt hv⟩
  · obtain ⟨k, rfl⟩ := Nat.exists_eq_add_of_le hv
    have hk : k < unmergedDistances.length := by rw [unmergedDistances_length]; omega
    exact .inr ⟨k, hk, rfl, merge13_unmerged hk⟩

theorem merge13_injective {v w : Nat} (hv : v ≤ 253) (hw : w ≤ 253) (h : merge13 v = merge13 w) : v = w := by
  have apart (a k : Nat) (hk : k < unmergedDistances.length) : 13 * a + 6 ≠ unmergedDistances[k] := by
    have := (mem_unmergedDistances.mp (List.getElem_mem hk)).2
    omega
  obtain ⟨-, ev⟩ | ⟨k, hk, rfl, ev⟩ := merge13_cases hv
  · obtain ⟨-, ew⟩ | ⟨l, hl, rfl, ew⟩ := merge13_cases hw
    · omega
    · exact absurd (ev.symm.trans (h.trans ew)) (apart v l hl)
  · obtain ⟨-, ew⟩ | ⟨l, hl, rfl, ew⟩ := merge13_cases hw
    · exact absurd (ew.symm.trans (h.symm.trans ev)) (apart w k hk)
    · rw [unmergedDistances_nodup.getElem_inj_iff.mp (ev.symm.trans (h.trans ew))]

theorem merge13_surjective {j : Nat} (h : j < 254) : ∃ v, v ≤ 253 ∧ merge13 v = j := by
  by_cases hj : j % 13 = 6
  · exact ⟨j / 13, by omega, by rw [merge13_of_lt (by omega)]; omega⟩
  · obtain ⟨k, hk, rfl⟩ := List.getElem_of_mem (mem_unmergedDistances.mpr ⟨h, hj⟩)
    exact ⟨20 + k, by rw [unmergedDistances_length] at hk; omega, merge13_unmerged hk⟩

theorem imap_of_le {w : Nat} (h : w ≤ 253) : imap w = merge13 w + 1 := if_neg (by omega)

theorem imap_last : imap 254 = 253 := rfl

theorem imap_pos (w : Nat) : 1 ≤ imap w := by
  unfold imap
  split <;> omega

/-- Settles O48: the two lists by evaluation; below the last index `imap` is `merge13` and one more, which takes each distance once. -/
theorem remappingTakesEveryDistance : Obligations.RemappingTakesEveryDistance := by
  refine ⟨by decide, by decide, fun w _ => ⟨imap_pos w, imap_le w⟩, fun v w hv hw hne h => ?twice, fun d h1 hd => ?onto⟩
  case twice =>
    obtain rfl | hv := Nat.eq_or_lt_of_le hv
    · exact imap_last
    obtain rfl | hw := Nat.eq_or_lt_of_le hw
    · exact h.trans imap_last
    rw [imap_of_le (by omega), imap_of_le (by omega)] at h
    exact absurd (merge13_injective (by omega) (by omega) (Nat.succ.inj h)) hne
  case onto =>
    obtain ⟨w, hw, hj⟩ := merge13_surjective (j := d - 1) (by omega)
    exact ⟨w, hw, by rw [imap_of_le hw, hj]; omega⟩

/-- R89: a distance of 1 or more moves away from the centre. -/
theorem recenter_ne {v m : Nat} (hv : 1 ≤ v) : recenter v m ≠ m := by
  unfold recenter
  split
  · omega
  · split <;> omega

/-- Settles O47: `invRemap_range`, and that no distance of `imap` is 0. -/
theorem deltaUpdateMovesWithinRange : Obligations.DeltaUpdateMovesWithinRange := by
  intro w p _ hp hp'
  refine ⟨(invRemap_range w p).1, (invRemap_range w p).2, ?_⟩
  unfold invRemap
  split
  · have moved := recenter_ne (imap_pos w) (m := p - 1)
    omega
  · have moved := recenter_ne (imap_pos w) (m := 254 - (p - 1))
    omega

/-! ## The codeword of an index -/

/-- `f` turns exactly the bits `bs` into `a`, with one equiprobable request for each. -/
def Decodes {α : Type} (f : BitPort → BitResult α) (bs : List Bool) (a : α) : Prop :=
  ∀ rest q, f { answers := validAnswers bs ++ rest, requests := q } =
    .ok a { answers := rest, requests := List.replicate bs.length evenProb ++ q }

section
variable {α β : Type} {f : BitPort → BitResult α} {bs : List Bool} {a : α}

theorem decodes_readBool (b : Bool) : Decodes (readBool evenProb) [b] b := fun _ _ => rfl

theorem decodes_readLit {n v : Nat} (h : v < 2 ^ n) : Decodes (readLit n) (literalBits n v) v := by
  intro rest q
  rw [readLit, readLitOnto_literalBits, literalBits_length, Nat.mod_eq_of_lt h, Nat.mul_zero, Nat.zero_add]

theorem decodes_ok (a : α) : Decodes (BitResult.ok a) [] a := fun _ _ => rfl

theorem Decodes.andThen {g : α → BitPort → BitResult β} {cs : List Bool} {b : β} (hf : Decodes f bs a) (hg : Decodes (g a) cs b) :
    Decodes (fun port => (f port).andThen g) (bs ++ cs) b := by
  intro rest q
  show (f _).andThen g = _
  rw [validAnswers_append, List.append_assoc, hf, BitResult.andThen_ok, hg, ← List.append_assoc, List.replicate_append_replicate,
    List.length_append, Nat.add_comm]

theorem Decodes.map (hf : Decodes f bs a) (g : α → β) : Decodes (fun port => (f port).andThen fun a => .ok (g a)) bs (g a) := by
  have h := hf.andThen (g := fun a => .ok (g a)) (decodes_ok (g a))
  rwa [List.append_nil] at h

end

/-! R86 for the 191 indices of the last class: seven bits, and from 65 on an eighth. -/

theorem decodeUniform_lastClass : decodeUniform 191 = fun port => (readLit 7 port).andThen fun v port =>
    if v < 65 then .ok v port
    else (readBool evenProb port).andThen fun x port => .ok (2 * v - 65 + codeOfBool x) port := rfl

theorem decodes_uniform_short {v : Nat} (h : v < 65) : Decodes (decodeUniform 191) (literalBits 7 v) v := by
  rw [decodeUniform_lastClass, ← List.append_nil (literalBits 7 v)]
  refine (decodes_readLit (by omega)).andThen ?_
  simp only [if_pos h]
  exact decodes_ok v

theorem decodes_uniform_long {v : Nat} (h : 65 ≤ v) (hv : v < 128) (b : Bool) :
    Decodes (decodeUniform 191) (literalBits 7 v ++ [b]) (2 * v - 65 + codeOfBool b) := by
  rw [decodeUniform_lastClass]
  refine (decodes_readLit hv).andThen ?_
  simp only [if_neg (Nat.not_lt.mpr h)]
  exact (decodes_readBool b).map fun x => 2 * v - 65 + codeOfBool x

section
variable {turns i mk v : Nat} {bs : List Bool}

/-! The loop of R87: a class before the last takes one bit more, which says whether the index lies beyond it. -/

theorem subexpLoop_turn (h : mk + 3 * 2 ^ subexpBits i < 255) : subexpLoop (turns + 1) i mk = fun port =>
    (readBool evenProb port).andThen fun more port =>
      if more then subexpLoop turns (i + 1) (mk + 2 ^ subexpBits i) port
      else (readLit (subexpBits i) port).andThen fun v port => .ok (mk + v) port := funext fun _ => if_neg (Nat.not_le.mpr h)

theorem subexpLoop_last (h : 255 ≤ mk + 3 * 2 ^ subexpBits i) : subexpLoop (turns + 1) i mk = fun port =>
    (decodeUniform (255 - mk) port).andThen fun v port => .ok (mk + v) port := funext fun _ => if_pos h

theorem decodes_classHere (h : mk + 3 * 2 ^ subexpBits i < 255) (hv : v < 2 ^ subexpBits i) :
    Decodes (subexpLoop (turns + 1) i mk) (false :: literalBits (subexpBits i) v) (mk + v) := by
  rw [subexpLoop_turn h]
  exact (decodes_readBool false).andThen ((decodes_readLit hv).map (mk + ·))

theorem decodes_classBeyond (h : mk + 3 * 2 ^ subexpBits i < 255)
    (hd : Decodes (subexpLoop turns (i + 1) (mk + 2 ^ subexpBits i)) bs v) :
    Decodes (subexpLoop (turns + 1) i mk) (true :: bs) v := by
  rw [subexpLoop_turn h]
  exact (decodes_readBool true).andThen hd

theorem decodes_classLast (h : 255 ≤ mk + 3 * 2 ^ subexpBits i) (hd : Decodes (decodeUniform (255 - mk)) bs v) :
    Decodes (subexpLoop (turns + 1) i mk) bs (mk + v) := by
  rw [subexpLoop_last h]
  exact hd.map (mk + ·)

end

/-- R87's table: the classes start at 0, 16, 32 and 64. -/
theorem decodes_subexpCode {w : Nat} (hw : w ≤ 254) : Decodes decodeSubexp (subexpCode w) w := by
  have beyond₁ {bs v} (h : Decodes (subexpLoop 3 1 16) bs v) : Decodes decodeSubexp (true :: bs) v :=
    decodes_classBeyond (by decide) h
  have beyond₂ {bs v} (h : Decodes (subexpLoop 2 2 32) bs v) : Decodes decodeSubexp (true :: true :: bs) v :=
    beyond₁ (decodes_classBeyond (by decide) h)
  have beyond₃ {bs v} (h : Decodes (decodeUniform 191) bs v) : Decodes decodeSubexp (true :: true :: true :: bs) (64 + v) :=
    beyond₂ (decodes_classBeyond (by decide) (decodes_classLast (by decide) h))
  unfold subexpCode
  split_ifs with h16 h32 h64 h129
  · have here := decodes_classHere (turns := 3) (i := 0) (mk := 0) (by decide) h16
    rw [Nat.zero_add] at here
    exact here
  · obtain ⟨v, rfl⟩ := Nat.exists_eq_add_of_le (Nat.not_lt.mp h16)
    rw [Nat.add_sub_cancel_left]
    exact beyond₁ (decodes_classHere (by decide) (Nat.lt_of_add_lt_add_left h32))
  · obtain ⟨v, rfl⟩ := Nat.exists_eq_add_of_le (Nat.not_lt.mp h32)
    rw [Nat.add_sub_cancel_left]
    exact beyond₂ (decodes_classHere (by decide) (Nat.lt_of_add_lt_add_left h64))
  · obtain ⟨v, rfl⟩ := Nat.exists_eq_add_of_le (Nat.not_lt.mp h64)
    rw [Nat.add_sub_cancel_left]
    exact beyond₃ (decodes_uniform_short (Nat.lt_of_add_lt_add_left h129))
  · have long := beyond₃ (decodes_uniform_long (v := (w + 1) / 2) (by omega) (by omega) ((w + 1) % 2 == 1))
    rw [codeOfBool_beq_one (Nat.mod_lt _ Nat.two_pos)] at long
    rwa [show 64 + (2 * ((w + 1) / 2) - 65 + (w + 1) % 2) = w by omega] at long

/-- Settles O46: `decodes_subexpCode`. -/
theorem everyCodewordDecodesToItsIndex : Obligations.EveryCodewordDecodesToItsIndex := fun _ rest requests hw =>
  decodes_subexpCode hw rest requests

end Sys2Proof.Machine
end

section
/-! PROOFS of the family 44_forward_update.md: one delta update, and the command SUBEXP_UPDATE. -/

namespace Sys2Proof.Machine

/-! ## One delta update -/

/-- The probability a coded update leaves: the old one, or the old one recentred by the index (R90). -/
def updatedProb (p : Byte) : Option Nat → Byte
  | none => p
  | some w => BitVec.ofNat 8 (invRemap w p.toNat)

section
variable {u : Option Nat}

/-- R90: the flag with probability 252, then the codeword where the flag is 1. -/
theorem diffUpdate_updateCode (hu : ∀ w, u = some w → w ≤ 254) (p : Byte) (rest : List BitAnswer) (q : List Byte) :
    diffUpdate p { answers := validAnswers (updateCode u) ++ rest, requests := q } =
      .ok (u.isSome, updatedProb p u)
        { answers := rest, requests := List.replicate (updateCode u).tail.length evenProb ++ updateFlagProb :: q } := by
  cases u with
  | none => rfl
  | some w =>
    show (decodeSubexp { answers := validAnswers (subexpCode w) ++ rest, requests := updateFlagProb :: q }).andThen _ = _
    rw [decodes_subexpCode (hu w rfl)]
    rfl

/-- A code cut short leaves the decoder waiting, and the end of the bits after it is an underrun (R26, R91). -/
theorem diffUpdate_cut (hu : ∀ w, u = some w → w ≤ 254) {k : Nat} (hk : k < (updateCode u).length) (p : Byte) (x : Bool)
    (rest : List BitAnswer) (q : List Byte) :
    ∃ asked, diffUpdate p { answers := validAnswers ((updateCode u).take k) ++ { bit := x, valid := false } :: rest, requests := q } =
      .underrun { answers := rest, requests := asked } := by
  have whole := diffUpdate_updateCode hu p [] q
  rw [List.append_nil] at whole
  have cut := (extends_diffUpdate p).silent_of_cut whole (k := k) (by rwa [validAnswers, List.length_map])
  rw [validAnswers, ← List.map_take] at cut
  obtain ⟨port, hp⟩ := cut
  have ends := extends_diffUpdate p (validAnswers ((updateCode u).take k)) q rest
  rw [validAnswers, hp] at ends
  exact ⟨port.requests, ends x⟩

end

/-! ## SUBEXP_UPDATE -/

section
variable {p : Byte} {s : State}

theorem execSubexpUpdate_zero (s : State) : execSubexpUpdate 0#8 s = raiseError .badProb opcSubexpUpdate s := rfl

theorem execSubexpUpdate_ok (hp : p ≠ 0#8) {f : Bool} {q : Byte} {port : BitPort} (h : diffUpdate p s.port = .ok (f, q) port) :
    execSubexpUpdate p s = .next ((s.setPort port).setRes ((bit f ++ q : BitVec 9).setWidth 64) 0#64) := by
  simp [execSubexpUpdate, hp, h]

theorem execSubexpUpdate_underrun (hp : p ≠ 0#8) {port : BitPort} (h : diffUpdate p s.port = .underrun port) :
    execSubexpUpdate p s = raiseError .underrun opcSubexpUpdate (s.setPort port) := by
  simp [execSubexpUpdate, hp, h]

end

/-- A port that holds these answers. -/
theorem port_eq {s : State} {answers : List BitAnswer} (h : s.port.answers = answers) :
    s.port = { answers := answers, requests := s.port.requests } := by rw [← h]

/-- R91: the flag stands above the probability. -/
theorem toNat_flaggedProb (f : Bool) (q : Byte) : ((bit f ++ q).setWidth 64).toNat = codeOfBool f * 2 ^ 8 + q.toNat := by
  have hf : (bit f).toNat = codeOfBool f := by cases f <;> rfl
  have := codeOfBool_lt f
  rw [BitVec.toNat_setWidth, BitVec.toNat_append, ← Nat.shiftLeft_add_eq_or_of_lt q.isLt, Nat.shiftLeft_eq, hf]
  exact Nat.mod_eq_of_lt (by omega)

theorem flaggedProb_kept (q : Byte) : (bit false ++ q).setWidth 64 = q.setWidth 64 := by
  apply BitVec.eq_of_toNat_eq
  rw [toNat_flaggedProb, BitVec.toNat_setWidth, Nat.mod_eq_of_lt (by omega)]
  exact Nat.zero_add _

theorem flaggedProb_moved {n : Nat} (hn : n ≤ 255) : (bit true ++ BitVec.ofNat 8 n).setWidth 64 = BitVec.ofNat 64 (2 ^ 8 + n) := by
  apply BitVec.eq_of_toNat_eq
  rw [toNat_flaggedProb, BitVec.toNat_ofNat, BitVec.toNat_ofNat, Nat.mod_eq_of_lt (by omega), Nat.mod_eq_of_lt (by omega)]
  rfl

/-- Settles O49: the decoding is `diffUpdate_updateCode`, the rest `execSubexpUpdate`. -/
theorem subexpUpdateDecodesOneDelta : Obligations.SubexpUpdateDecodesOneDelta := by
  intro p s rest
  refine ⟨fun hp => hp ▸ execSubexpUpdate_zero s, fun hp ha => ?kept, fun hp w hw ha => ?moved⟩
  case kept =>
    have decoded := diffUpdate_updateCode (u := none) nofun p rest s.port.requests
    rw [← port_eq ha] at decoded
    refine (execSubexpUpdate_ok hp decoded).trans ?_
    rw [Option.isSome_none, updatedProb, flaggedProb_kept]
    rfl
  case moved =>
    have decoded := diffUpdate_updateCode (u := some w) (by rintro _ ⟨⟩; exact hw) p rest s.port.requests
    rw [← port_eq ha] at decoded
    exact ⟨_, execSubexpUpdate_ok hp decoded, flaggedProb_moved (invRemap_range ..).2, rfl, rfl, rfl⟩

/-- Settles O50: `diffUpdate_cut`. -/
theorem subexpUpdateUnderrunsCleanly : Obligations.SubexpUpdateUnderrunsCleanly := by
  intro p s u k x rest hp hu hk ha
  obtain ⟨asked, ends⟩ := diffUpdate_cut hu hk p x rest s.port.requests
  rw [← port_eq ha] at ends
  exact ⟨_, execSubexpUpdate_underrun hp ends, rfl, rfl⟩

end Sys2Proof.Machine
end

section
/-! PROOFS of the family 44_forward_update.md: the walk of FWD_UPDATE, and MODEL_EXPAND's expansion. -/

namespace Sys2Proof.Machine

/-! ## The entries FWD_UPDATE visits -/

/-- R92's loops over the cells are one loop over the cell numbers of R33. -/
theorem fwdOrder_eq_flatMap (nn : Nat) : fwdOrder nn = (List.range 144).flatMap fun c => (List.range nn).map (c * 11 + ·) := by
  have cells : allCells.map cellIndex = List.range 144 := by rfl
  have loops : fwdOrder nn = allCells.flatMap fun cell => (List.range nn).map (ptx cell) := by
    simp only [fwdOrder, allCells, List.flatMap_assoc, List.flatMap_map]
  rw [loops, ← cells, List.flatMap_map]
  rfl

theorem range_mul_eq_flatMap (m n : Nat) : List.range (m * n) = (List.range m).flatMap fun c => (List.range n).map (c * n + ·) := by
  induction m with
  | zero => simp
  | succ m ih => rw [Nat.succ_mul, List.range_add, ih, List.range_succ, List.flatMap_append, List.flatMap_singleton]

theorem filter_range_lt {nn n : Nat} (h : nn ≤ n) : (List.range n).filter (· < nn) = List.range nn := by
  obtain ⟨d, rfl⟩ := Nat.exists_eq_add_of_le h
  have low : (List.range nn).filter (· < nn) = List.range nn := List.filter_eq_self.mpr (by simp)
  have high : ((List.range d).map (nn + ·)).filter (· < nn) = [] := List.filter_eq_nil_iff.mpr (by simp)
  rw [List.range_add, List.filter_append, low, high, List.append_nil]

theorem fwdOrder_eq_filter {nn : Nat} (h : nn ≤ 11) : fwdOrder nn = (List.range 1584).filter fun i => i % 11 < nn := by
  have cell (c : Nat) : ((List.range 11).map (c * 11 + ·)).filter (fun i => i % 11 < nn) = (List.range nn).map (c * 11 + ·) := by
    rw [List.filter_map, ← filter_range_lt h]
    congr 1
    refine List.filter_congr fun node hn => ?_
    rw [Function.comp_apply, Nat.mul_add_mod', Nat.mod_eq_of_lt (List.mem_range.mp hn)]
  rw [fwdOrder_eq_flatMap, range_mul_eq_flatMap 144 11, List.filter_flatMap]
  simp only [cell]

theorem fwdOrder_length (nn : Nat) : (fwdOrder nn).length = 144 * nn := by
  simp only [fwdOrder_eq_flatMap, List.length_flatMap, List.length_map, List.length_range, List.map_const', List.sum_replicate,
    smul_eq_mul]

theorem fwdOrder_nodup {nn : Nat} (h : nn ≤ 11) : (fwdOrder nn).Nodup := by
  rw [fwdOrder_eq_filter h]
  exact List.nodup_range.filter _

/-- Settles O51. -/
theorem fwdUpdateVisitsEntriesInOrder : Obligations.FwdUpdateVisitsEntriesInOrder := fun nn h =>
  ⟨fwdOrder_eq_filter h, fwdOrder_length nn⟩

theorem visitedEntries_nodup (s : State) : (visitedEntries s).Nodup :=
  fwdOrder_nodup (signalledNodes_le Config.params_lawful s.cfg.compactEn)

theorem visitedEntries_length (s : State) : (visitedEntries s).length = 144 * (if s.cfg.compactEn then Config.params.u else 11) :=
  fwdOrder_length _

theorem visitedEntries_length_le (s : State) : (visitedEntries s).length ≤ 1584 := by
  have := signalledNodes_le Config.params_lawful s.cfg.compactEn
  rw [visitedEntries_length]
  exact Nat.mul_le_mul_left 144 this

section
variable {s : State} {pt : List Host.Cell} {port : BitPort}

theorem exec_fwdUpdate_done (h : fwdLoop Config.params (visitedEntries s) s.pt s.port = .done pt port) :
    exec .fwdUpdate s = .next ((s.setPt pt).setPort port) := by
  have walk : fwdWalk Config.params s = .done pt port := h
  simp [exec, execFwdUpdate, fwdUpdate, walk]

theorem exec_fwdUpdate_underrun (h : fwdLoop Config.params (visitedEntries s) s.pt s.port = .underrun pt port) :
    exec .fwdUpdate s = raiseError .underrun opcFwdUpdate ((s.setPt pt).setPort port) := by
  have walk : fwdWalk Config.params s = .underrun pt port := h
  simp [exec, execFwdUpdate, fwdUpdate, walk]

theorem exec_fwdUpdate_silent (h : fwdLoop Config.params (visitedEntries s) s.pt s.port = .silent pt port) :
    exec .fwdUpdate s = .fault .bitSourceSilent := by
  have walk : fwdWalk Config.params s = .silent pt port := h
  simp [exec, execFwdUpdate, fwdUpdate, walk]

end

/-! ## A coded stream -/

/-- R92 on a stream that codes an update of each entry: every entry is read once, before it is stored, so its new value is its old one
updated. -/
theorem fwdLoop_streamCode {P : Params} {upd : Nat → Option Nat} {xs : List Nat} (hu : ∀ i w, upd i = some w → w ≤ 254) (hx : xs.Nodup)
    (pt : List Host.Cell) (rest : List BitAnswer) (q : List Byte) : ∃ pt' asked,
      fwdLoop P xs pt { answers := validAnswers (streamCode upd xs) ++ rest, requests := q } =
        .done pt' { answers := rest, requests := asked } ∧
      ∀ j ∈ xs, Memory.read P.defaultPt pt' j = updatedProb (Memory.read P.defaultPt pt j) (upd j) := by
  induction xs generalizing pt q with
  | nil => exact ⟨pt, q, rfl, nofun⟩
  | cons x xs ih =>
    obtain ⟨hx, hxs⟩ := List.nodup_cons.mp hx
    have first := diffUpdate_updateCode (hu x) (Memory.read P.defaultPt pt x) (validAnswers (streamCode upd xs) ++ rest) q
    obtain ⟨pt', asked, walk, new⟩ := ih hxs (Memory.write P.defaultPt pt x (updatedProb (Memory.read P.defaultPt pt x) (upd x)))
      (List.replicate (updateCode (upd x)).tail.length evenProb ++ updateFlagProb :: q)
    refine ⟨pt', asked, ?_, List.forall_mem_cons.mpr ⟨?_, fun j hj => ?_⟩⟩
    · rw [streamCode, List.flatMap_cons, validAnswers_append, List.append_assoc, fwdLoop, ← streamCode, first]
      exact walk
    · rw [fwdLoop_done_other walk x hx, Memory.read_write_self]
    · rw [new j hj, Memory.read_write_other]
      rintro rfl
      exact hx hj

/-- Settles O52: `fwdLoop_streamCode`, and `fwdLoop_done_other` for the entries it does not visit. -/
theorem fwdUpdateAppliesTheStream : Obligations.FwdUpdateAppliesTheStream := by
  intro s upd rest hu ha
  change s.port.answers = validAnswers (streamCode upd (visitedEntries s)) ++ rest at ha
  obtain ⟨pt, asked, walk, new⟩ :=
    fwdLoop_streamCode (P := Config.params) hu (visitedEntries_nodup s) s.pt rest s.port.requests
  rw [← port_eq ha] at walk
  exact ⟨_, exec_fwdUpdate_done walk, rfl, new, fun i hi => fwdLoop_done_other walk i hi, rfl⟩

/-! ## The end of the bits -/

/-- Settles O55: an underrun ends the walk at one entry (`fwdLoop_underrun`); on a stream that is cut, the walk of the entries before it
is that of a whole stream, and the code of the next entry is the one cut. -/
theorem fwdUnderrunKeepsTheVisitedPart : Obligations.FwdUnderrunKeepsTheVisitedPart := by
  refine ⟨fun s t running h failed => ?any, fun s upd done todo i k x rest hu hv hk ha => ?cut⟩
  case any =>
    obtain ⟨pt, port, -, rfl⟩ | ⟨pt, port, walk, raised⟩ := fwdUpdate_next h
    · exact absurd (running.symm.trans failed) nofun
    · obtain ⟨e, he, rfl⟩ := raised
      obtain rfl := List.mem_singleton.mp he
      obtain ⟨done, i, todo, q, hv, before, ends⟩ := fwdLoop_underrun walk
      exact ⟨done, i, todo, q, hv, before, ends, fun j hj => fwdLoop_done_other before j hj, rfl⟩
  case cut =>
    have distinct : done.Nodup := (List.nodup_append.mp (hv ▸ visitedEntries_nodup s)).1
    obtain ⟨pt, asked, before, new⟩ := fwdLoop_streamCode (P := Config.params) hu distinct s.pt
      (validAnswers ((updateCode (upd i)).take k) ++ { bit := x, valid := false } :: rest) s.port.requests
    obtain ⟨asked', ends⟩ := diffUpdate_cut (hu i) hk (Memory.read Config.params.defaultPt pt i) x rest asked
    have walk : fwdLoop Config.params (visitedEntries s) s.pt s.port = .underrun pt { answers := rest, requests := asked' } := by
      rw [hv, fwdLoop_append, port_eq ha, validAnswers_append, List.append_assoc, before]
      simp only [fwdLoop, ends]
    exact ⟨_, exec_fwdUpdate_underrun walk, rfl, new, fun j hj => fwdLoop_done_other before j hj, rfl⟩

/-! ## A source that answers every request -/

/-- `f` ends with a value, and takes at most `n` answers, wherever the source answers `n` requests. -/
def EndsWithin {α : Type} (n : Nat) (f : BitPort → BitResult α) : Prop :=
  ∀ port, (∀ a ∈ port.answers, a.valid = true) → n ≤ port.answers.length →
    ∃ a k asked, f port = .ok a { answers := port.answers.drop k, requests := asked } ∧ k ≤ n

section
variable {α β : Type} {m n : Nat} {f : BitPort → BitResult α}

theorem EndsWithin.mono (h : EndsWithin m f) (hmn : m ≤ n) : EndsWithin n f := fun port hv hn =>
  have ⟨a, k, asked, e, hk⟩ := h port hv (Nat.le_trans hmn hn)
  ⟨a, k, asked, e, Nat.le_trans hk hmn⟩

theorem endsWithin_ok (a : α) : EndsWithin 0 (BitResult.ok a) := fun port _ _ => ⟨a, 0, port.requests, rfl, Nat.le_refl 0⟩

theorem endsWithin_readBool (p : Byte) : EndsWithin 1 (readBool p) := by
  rintro ⟨_ | ⟨⟨b, v⟩, rest⟩, q⟩ hv hn
  · cases hn
  · obtain rfl : v = true := hv _ List.mem_cons_self
    exact ⟨b, 1, p :: q, rfl, Nat.le_refl 1⟩

theorem EndsWithin.andThen {g : α → BitPort → BitResult β} (hf : EndsWithin m f) (hg : ∀ a, EndsWithin n (g a)) :
    EndsWithin (m + n) fun port => (f port).andThen g := by
  intro port hv hn
  obtain ⟨a, k, asked, e, hk⟩ := hf port hv (by omega)
  obtain ⟨b, j, asked', e', hj⟩ := hg a { answers := port.answers.drop k, requests := asked }
    (fun x hx => hv x (List.mem_of_mem_drop hx)) (by rw [List.length_drop]; omega)
  refine ⟨b, k + j, asked', ?_, by omega⟩
  show (f port).andThen g = _
  rw [e, BitResult.andThen_ok, e', List.drop_drop]

theorem EndsWithin.map (hf : EndsWithin n f) (g : α → β) : EndsWithin n fun port => (f port).andThen fun a => .ok (g a) :=
  hf.andThen fun a => endsWithin_ok (g a)

theorem endsWithin_readLitOnto (n v : Nat) : EndsWithin n (readLitOnto n v) := by
  induction n generalizing v with
  | zero => exact endsWithin_ok v
  | succ n ih => exact ((endsWithin_readBool _).andThen fun _ => ih _).mono (by omega)

end

theorem endsWithin_lastClass : EndsWithin 8 (decodeUniform 191) := by
  rw [decodeUniform_lastClass]
  refine (endsWithin_readLitOnto 7 0).andThen (n := 1) fun v => ?_
  split
  · exact (endsWithin_ok v).mono (Nat.zero_le 1)
  · exact (endsWithin_readBool evenProb).map _

/-- One class of R87: the bit that says whether the index lies beyond it, and the longer of the two ways on. -/
theorem endsWithin_subexpLoop {turns i mk n : Nat} (h : mk + 3 * 2 ^ subexpBits i < 255) (hb : subexpBits i ≤ n)
    (hl : EndsWithin n (subexpLoop turns (i + 1) (mk + 2 ^ subexpBits i))) : EndsWithin (1 + n) (subexpLoop (turns + 1) i mk) := by
  rw [subexpLoop_turn h]
  refine (endsWithin_readBool evenProb).andThen fun more => ?_
  cases more with
  | true => exact hl
  | false => exact ((endsWithin_readLitOnto _ 0).mono hb).map _

/-- R87: the longest codeword has eleven bits. -/
theorem endsWithin_decodeSubexp : EndsWithin 11 decodeSubexp := by
  have last : EndsWithin 8 (subexpLoop 1 3 64) := by
    rw [subexpLoop_last (by decide)]
    exact endsWithin_lastClass.map _
  exact endsWithin_subexpLoop (by decide) (by decide) <| endsWithin_subexpLoop (by decide) (by decide) <|
    endsWithin_subexpLoop (by decide) (by decide) last

theorem endsWithin_diffUpdate (p : Byte) : EndsWithin 12 (diffUpdate p) := by
  refine (endsWithin_readBool updateFlagProb).andThen (n := 11) fun flag => ?_
  cases flag with
  | true => exact endsWithin_decodeSubexp.map _
  | false => exact (endsWithin_ok _).mono (Nat.zero_le 11)

theorem fwdLoop_answered {P : Params} (xs : List Nat) (pt : List Host.Cell) {port : BitPort} (hv : ∀ a ∈ port.answers, a.valid = true)
    (hn : 12 * xs.length ≤ port.answers.length) :
    ∃ pt' k asked, fwdLoop P xs pt port = .done pt' { answers := port.answers.drop k, requests := asked } ∧ k ≤ 12 * xs.length := by
  induction xs generalizing pt port with
  | nil => exact ⟨pt, 0, port.requests, rfl, Nat.le_refl 0⟩
  | cons x xs ih =>
    rw [List.length_cons] at hn ⊢
    obtain ⟨⟨f, v⟩, k, asked, e, hk⟩ := endsWithin_diffUpdate (Memory.read P.defaultPt pt x) port hv (by omega)
    obtain ⟨pt', j, asked', walk, hj⟩ := ih (Memory.write P.defaultPt pt x v) (port := { answers := port.answers.drop k, requests := asked })
      (fun a ha => hv a (List.mem_of_mem_drop ha)) (by rw [List.length_drop]; omega)
    refine ⟨pt', k + j, asked', ?_, by omega⟩
    simp only [fwdLoop, e]
    rw [walk, List.drop_drop]

/-- Settles O53: `fwdLoop_answered`, over at most 1584 entries. -/
theorem fwdUpdateCompletesWhenAnswered : Obligations.FwdUpdateCompletesWhenAnswered := by
  intro s hv hn
  have visits := visitedEntries_length_le s
  obtain ⟨pt, k, asked, walk, hk⟩ := fwdLoop_answered (P := Config.params) (visitedEntries s) s.pt hv (by omega)
  exact ⟨_, k, exec_fwdUpdate_done walk, rfl, by omega, rfl⟩

/-! ## Flags that are all 0 -/

theorem fwdLoop_zeroFlags {P : Params} (xs : List Nat) {pt : List Host.Cell} (hp : Memory.wf P.defaultPt pt) (rest : List BitAnswer)
    (q : List Byte) :
    fwdLoop P xs pt { answers := List.replicate xs.length { bit := false, valid := true } ++ rest, requests := q } =
      .done pt { answers := rest, requests := List.replicate xs.length updateFlagProb ++ q } := by
  induction xs generalizing q with
  | nil => rfl
  | cons x xs ih =>
    have kept : diffUpdate (Memory.read P.defaultPt pt x)
        { answers := List.replicate (x :: xs).length { bit := false, valid := true } ++ rest, requests := q } =
      .ok (false, Memory.read P.defaultPt pt x)
        { answers := List.replicate xs.length { bit := false, valid := true } ++ rest, requests := updateFlagProb :: q } := rfl
    simp only [fwdLoop, kept]
    rw [Memory.write_same hp, ih, List.length_cons, List.replicate_succ', List.append_assoc, List.singleton_append]

/-- Settles O54: `fwdLoop_zeroFlags`. -/
theorem zeroFlagsLeaveTheTable : Obligations.ZeroFlagsLeaveTheTable := by
  intro s rest hp ha
  rw [← visitedEntries_length] at ha ⊢
  have walk := fwdLoop_zeroFlags (visitedEntries s) hp rest s.port.requests
  rw [← port_eq ha] at walk
  exact exec_fwdUpdate_done walk

/-! ## What the result depends on -/

/-- The walk's end with more requests listed as made before it. -/
def FwdResult.withRequests (r : FwdResult) (q : List Byte) : FwdResult :=
  match r with
  | .done pt port => .done pt { port with requests := port.requests ++ q }
  | .underrun pt port => .underrun pt { port with requests := port.requests ++ q }
  | .silent pt port => .silent pt { port with requests := port.requests ++ q }

/-- The walk reads the answers and not the requests made before it. -/
theorem fwdLoop_requests (P : Params) (xs : List Nat) (pt : List Host.Cell) (answers : List BitAnswer) (requests q : List Byte) :
    fwdLoop P xs pt { answers := answers, requests := requests ++ q } =
      (fwdLoop P xs pt { answers := answers, requests := requests }).withRequests q := by
  induction xs generalizing pt answers requests with
  | nil => rfl
  | cons x xs ih =>
    simp only [fwdLoop, sameRequests_diffUpdate _ answers requests q]
    cases diffUpdate (Memory.read P.defaultPt pt x) { answers := answers, requests := requests } with
    | ok a port => exact ih _ port.answers port.requests
    | underrun port => rfl
    | silent port => rfl

/-- The walk of FWD_UPDATE is that of the table, the mode and the answers alone. -/
theorem fwdLoop_visitedEntries (s : State) : fwdLoop Config.params (visitedEntries s) s.pt s.port =
    (fwdLoop Config.params (visitedEntries s) s.pt { answers := s.port.answers, requests := [] }).withRequests s.port.requests :=
  fwdLoop_requests _ _ _ _ [] _

/-- Settles O56: both walks are that of one table, one mode and one list of answers. -/
theorem fwdUpdateDependsOnTableModeAndBits : Obligations.FwdUpdateDependsOnTableModeAndBits := by
  intro s s' t hpt hmode hans h
  have walk := fwdLoop_visitedEntries s
  have same : visitedEntries s' = visitedEntries s := by rw [visitedEntries, ← hmode, visitedEntries]
  have walk' := fwdLoop_visitedEntries s'
  conv at walk' => rhs; rw [same, ← hpt, ← hans]
  generalize fwdLoop Config.params (visitedEntries s) s.pt { answers := s.port.answers, requests := [] } = r at walk walk'
  cases r with
  | done pt port =>
    obtain rfl := Host.Outcome.next.inj ((exec_fwdUpdate_done walk).symm.trans h)
    exact ⟨_, exec_fwdUpdate_done walk', rfl, rfl, Eq.symm⟩
  | underrun pt port =>
    obtain rfl := raiseError_next ((exec_fwdUpdate_underrun walk).symm.trans h)
    exact ⟨_, exec_fwdUpdate_underrun walk', rfl, rfl, fun _ => rfl⟩
  | silent pt port => cases (exec_fwdUpdate_silent walk).symm.trans h

/-! ## MODEL_EXPAND -/

theorem modelExpand_zero (P : Params) (s : State) : modelExpand P 0#8 s = raiseError .badProb opcModelExpand s := rfl

theorem modelExpand_nonzero {p : Byte} (hp : p ≠ 0#8) (P : Params) (s : State) :
    modelExpand P p s = .next (setLanes s (expandLane P p)) := by simp [modelExpand, hp]

/-- R74 with R96: from `U` on the compact model gives the nodes of a cell the expansion of its pivot. -/
theorem readNode_constrained {s : State} (hc : s.cfg.compactEn = true) {n : Nat} (hn : Config.params.u ≤ n) (cell : CellRef) :
    readNode s cell n = expandLane Config.params (readPt Config.params s (ptx cell (Config.params.u - 1))) n := by
  rw [readNode, if_pos ⟨hc, hn⟩, expandLane, if_pos hn]

/-- Settles O57: the lanes of `setLanes` are `expandLane`, which is what `readNode` gives for the same pivot. -/
theorem modelExpandReturnsTheExpansion : Obligations.ModelExpandReturnsTheExpansion := by
  intro p s
  refine ⟨fun hp => hp ▸ modelExpand_zero Config.params s, fun hp => ?expanded⟩
  refine ⟨_, modelExpand_nonzero hp _ s, fun n hn => laneOf_setLanes hn s _, extract_past_setWidth _ (Nat.le_refl 24) 40, rfl, ?read⟩
  intro cell u hc hpivot hb hx h n hU hn
  rw [laneOf_probRead (cellInRange_iff.mpr ⟨hb, hx⟩) h hn, readNode_constrained hc hU, hpivot, laneOf_setLanes hn]

end Sys2Proof.Machine
end

section
/-! PROOFS of the family 45_backward_adapt.md: ADAPT entry by entry, and the laws of the merge function on the table. -/

namespace Sys2Proof.Machine

section
variable {P : Params} {s t : State} {i : Nat} {pre : Byte}

theorem adaptedProb_of_minCount_le (h : P.adaptMinCount ≤ (readCt s i false).toNat + (readCt s i true).toNat) :
    adaptedProb P s i pre = P.mergeFn pre (readCt s i false) (readCt s i true) := if_pos h

theorem adaptedProb_of_lt_minCount (h : ¬ P.adaptMinCount ≤ (readCt s i false).toNat + (readCt s i true).toNat) :
    adaptedProb P s i pre = pre := if_neg h

theorem readPt_adapt_on (h : adapt P s = .next t) (on : s.cfg.adaptEn = true) (hi : i < numEntries) :
    readPt P t i = adaptedProb P s i (readPt P s i) := by
  cases h
  rw [readPt, State.setCt_pt, State.setPt_pt, if_pos on]
  exact adaptLoop_at P s _ _ i List.nodup_range (List.mem_range.mpr hi)

theorem adapt_off_pt (h : adapt P s = .next t) (off : s.cfg.adaptEn = false) : t.pt = s.pt := by
  cases h
  rw [State.setCt_pt, State.setPt_pt, if_neg (Bool.eq_false_iff.mp off)]

/-- Law M4 of R97 on an entry that only saw branch 0, often enough. -/
theorem adaptedProb_allZero (hL : P.Lawful) (hp : pre ≠ 0#8) (none1 : readCt s i true = 0#32)
    (enough : P.adaptMinCount ≤ (readCt s i false).toNat) :
    pre.toNat ≤ (adaptedProb P s i pre).toNat ∧ (pre.toNat < 255 → pre.toNat < (adaptedProb P s i pre).toNat) := by
  rw [adaptedProb_of_minCount_le (enough.trans (Nat.le_add_right ..)), none1]
  exact hL.merge.allZero _ _ hp enough

/-- Law M5 of R97 on an entry that only saw branch 1, often enough. -/
theorem adaptedProb_allOne (hL : P.Lawful) (hp : pre ≠ 0#8) (none0 : readCt s i false = 0#32)
    (enough : P.adaptMinCount ≤ (readCt s i true).toNat) :
    (adaptedProb P s i pre).toNat ≤ pre.toNat ∧ (1 < pre.toNat → (adaptedProb P s i pre).toNat < pre.toNat) := by
  rw [adaptedProb_of_minCount_le (enough.trans (Nat.le_add_left ..)), none0]
  exact hL.merge.allOne _ _ hp enough

/-- Law M3 of R97 on any entry: one with too few counts keeps its value, and one with enough has a positive sum, as
`ADAPT_MIN_COUNT` is at least 1 (R98). -/
theorem adaptedProb_blend (hL : P.Lawful) (hp : pre ≠ 0#8) :
    min pre.toNat (empiricalLow (readCt s i false) (readCt s i true)) ≤ (adaptedProb P s i pre).toNat ∧
    (adaptedProb P s i pre).toNat ≤ max pre.toNat (empiricalHigh (readCt s i false) (readCt s i true)) := by
  by_cases enough : P.adaptMinCount ≤ (readCt s i false).toNat + (readCt s i true).toNat
  · rw [adaptedProb_of_minCount_le enough]
    exact hL.merge.blend _ _ _ hp (hL.min_count.trans enough)
  · rw [adaptedProb_of_lt_minCount enough]
    exact ⟨Nat.min_le_left .., Nat.le_max_left ..⟩

end

/-- Settles O58: with adaptation on an entry becomes its `adaptedProb`, with it off the table is kept; a count table with nothing listed
reads 0 throughout. -/
theorem adaptMergesAndClearsTheCounts : Obligations.AdaptMergesAndClearsTheCounts := by
  intro s
  obtain ⟨t, h⟩ : ∃ t, adapt Config.params s = .next t := ⟨_, rfl⟩
  refine ⟨t, h, fun i hi => ?entry, ?counts, adapt_off_pt h, ?frame⟩
  case entry =>
    cases on : s.cfg.adaptEn
    case false =>
      rw [if_neg (by simp), readPt, adapt_off_pt h on, readPt]
    case true =>
      rw [readPt_adapt_on h on hi]
      simp only [true_and, adaptedProb]
  case counts =>
    cases h
    exact fun _ _ => Memory.read_nil _ _
  case frame =>
    cases h
    rfl

/-- Settles O59: with adaptation on an entry becomes its `adaptedProb`, which meets the three laws. -/
theorem adaptMovesTowardTheObserved : Obligations.AdaptMovesTowardTheObserved := by
  refine ⟨fun _ => rfl, fun P s t i hL on hi hp h => ?_⟩
  rw [readPt_adapt_on h on hi]
  exact ⟨adaptedProb_allZero hL hp, adaptedProb_allOne hL hp, adaptedProb_blend hL hp⟩

end Sys2Proof.Machine
end

section
/-! PROOFS of the family 60_exceptions.md: the halt and the return from it, the decode checks, what a failed command leaves, and the
merge of a worker's counts. -/

namespace Sys2Proof.Machine

/-! ## The halt and the decode checks -/

/-- A step whose input is a store to `CMD` issues the word in the state with that access taken. -/
theorem step_command {s : State} {w : Word} {rest : List HostEvent} (h : s.bus.pending = .store 0 8 w :: rest) :
    step s = issueWord w (afterEvent s rest) := step_event h

theorem issueWord_clearErr (s : State) : issueWord 1#64 s = .next (clearError s) :=
  issueWord_command (ignoresWord_clearErr s) (decode_eq_command_iff (i := .clearErr).mpr ⟨rfl, rfl⟩)

/-- Settles O7: taking the access off the list leaves `STATUS.ERR` as it was, so the unit is halted when the word is issued. -/
theorem haltedUnitOnlyTakesClearErr : Obligations.HaltedUnitOnlyTakesClearErr := by
  intro s w rest hp herr
  have halted : (afterEvent s rest).status.err = true := herr
  rw [step_command hp]
  refine ⟨fun hw => issueWord_halted halted hw, ?_⟩
  rintro rfl
  exact issueWord_clearErr _

/-- Settles O8: both words are classified by the decoder, one by the undefined opcodes (R46), one by the masks (R45). -/
theorem decodeChecksComeFirst : Obligations.DecodeChecksComeFirst := by
  intro s w rest hp herr
  have running : ignoresWord (afterEvent s rest) w = false := ignoresWord_of_running w herr
  obtain ⟨-, reserved, -⟩ := verdictsFollowMatchAndMask w
  rw [step_command hp]
  exact ⟨fun undefined => issueWord_badOpcode running ((undefinedOpcodesAreIllegal w).mpr undefined),
    fun r hr known unmatched => issueWord_reservedField running (reserved r hr known unmatched)⟩

/-! ## What a failed command leaves -/

/-- Only a failure takes `STATUS.ERR` from 0 to 1. -/
theorem failure_of_err {i : Instr} {s t : State} (running : s.status.err = false) (h : exec i s = .next t)
    (failed : t.status.err = true) : Failure i s t := by
  refine (exec_next h).resolve_left fun effect => ?_
  have unfailed : t.status.err = false := by
    rcases effect.status with kept | ⟨-, cleared⟩
    · rw [kept, running]
    · rw [cleared, Status.clear]
  exact Bool.false_ne_true (unfailed.symm.trans failed)

/-- A failed command leaves the last of the answers there were: R106, "the ECPU does not push bits back". -/
theorem Failure.answers {i : Instr} {s t : State} (h : Failure i s t) : ∃ k, t.port.answers = s.port.answers.drop k := by
  cases i
  case subexpUpdate =>
    obtain ⟨e, -, rfl⟩ | ⟨p, k, taken, e, -, rfl⟩ := h
    · exact ⟨0, rfl⟩
    · exact ⟨k, taken⟩
  case fwdUpdate =>
    obtain ⟨m, p, k, taken, e, -, rfl⟩ := h
    exact ⟨k, taken⟩
  all_goals
    obtain ⟨-, e, -, rfl⟩ := h
    exact ⟨0, rfl⟩

/-- FWD_UPDATE keeps every entry it does not visit, whether it completes or underruns. -/
theorem readPt_fwdUpdate_other {P : Params} {s t : State} (h : fwdUpdate P s = .next t) {j : Nat}
    (hj : j ∉ fwdOrder (signalledNodes P s.cfg.compactEn)) : readPt P t j = readPt P s j := by
  have kept : Memory.read P.defaultPt (fwdWalk P s).pt j = readPt P s j := fwdLoop_other P _ s.pt s.port j hj
  obtain ⟨pt, port, walk, rfl⟩ | ⟨pt, port, walk, e, -, rfl⟩ := fwdUpdate_next h
  all_goals
    rw [walk] at kept
    exact kept

/-- Settles O19: `Failure.frame` command by command; of FWD_UPDATE also `readPt_fwdUpdate_other`. -/
theorem failedCommandChangesOnlyStatus : Obligations.FailedCommandChangesOnlyStatus := by
  intro i s t running h failed
  have failure := failure_of_err running h failed
  have others : i = .fwdUpdate → ∀ j, j ∉ visitedEntries s → readPt Config.params t j = readPt Config.params s j := by
    rintro rfl j hj
    exact readPt_fwdUpdate_other h hj
  obtain ⟨k, answers⟩ := failure.answers
  obtain ⟨e, m, p, rfl, table, port⟩ := failure.frame
  refine ⟨fun notFwd notSubexp => ?other, ?subexp, fun hi => ⟨rfl, others hi⟩, ⟨k, answers⟩, e, ?status⟩
  case other =>
    obtain rfl := table.resolve_right notFwd
    obtain rfl : p = s.port := by
      rcases port with kept | ⟨b, hi⟩ | hi
      · exact kept
      · exact absurd hi (notSubexp b)
      · exact absurd hi notFwd
    rfl
  case subexp =>
    rintro b rfl
    obtain rfl := table.resolve_right nofun
    rfl
  case status =>
    rw [opcByte_encode]
    rfl

/-! ## The interrupt -/

/-- An error raises the interrupt output exactly where it is enabled (R111). -/
theorem Failure.irqOutput_eq {i : Instr} {s t : State} (h : Failure i s t) : irqOutput t = s.cfg.irqEn := by
  obtain ⟨e, m, p, rfl, -⟩ := h.frame
  exact Bool.true_and _

/-- Settles O22: the level is a conjunction, bit 16 of `STATUS` is the one of `registerWordsHoldTheirFields`, and only a failure
takes `ERR` from 0 to 1. -/
theorem interruptFollowsTheErrorLevel : Obligations.InterruptFollowsTheErrorLevel := by
  intro i s t h
  obtain ⟨-, -, -, -, -, irqBit, -⟩ := registerWordsHoldTheirFields t
  refine ⟨Bool.and_eq_true_iff, irqBit, ?_, fun running failed => (failure_of_err running h failed).irqOutput_eq⟩
  rintro rfl
  cases h
  exact irqOutput_clearError s

/-! ## Merging a worker's counts -/

/-- A counter by its cell, node and branch. -/
abbrev Counter := CellRef × Nat × Bool

def Counter.InRange (k : Counter) : Prop := cellInRange k.1 = true ∧ k.2.1 < 11

/-- What a unit holds in a counter. -/
def counterOf (s : State) (k : Counter) : Count := readCt s (ptx k.1 k.2.1) k.2.2

/-- The state after `amount` is added to a counter (R80). -/
def addToCounter (s : State) (k : Counter) (amount : Nat) : State := bumpCount s (ptx k.1 k.2.1) k.2.2 amount

/-- The COUNT_ADD that merges one counter of the worker (R115). -/
def mergeCounter (worker : State) (k : Counter) : Instr := .countAdd k.1 k.2.1 k.2.2 (counterOf worker k).toNat

/-- Every counter, in the order of the merge. -/
def allCounters : List Counter := allCells ×ˢ List.range numNodes ×ˢ [false, true]

theorem mergeCommands_eq_map (worker : State) : mergeCommands worker = allCounters.map (mergeCounter worker) := by
  simp only [mergeCommands, allCounters, SProd.sprod, List.product, List.map_flatMap, List.map_map]
  rfl

theorem allCells_nodup : allCells.Nodup := by
  have cells : allCells.map cellIndex = List.range 144 := by rfl
  exact .of_map cellIndex (cells ▸ List.nodup_range)

theorem mem_allCells {cell : CellRef} : cell ∈ allCells ↔ cellInRange cell = true := by
  obtain ⟨cls, ref, band, ctx⟩ := cell
  cases cls <;> cases ref <;> simp [allCells, cellInRange_iff]

theorem allCounters_nodup : allCounters.Nodup :=
  allCells_nodup.product (List.nodup_range.product (by decide))

theorem mem_allCounters {k : Counter} : k ∈ allCounters ↔ k.InRange := by
  obtain ⟨cell, node, br⟩ := k
  simp [allCounters, Counter.InRange, mem_allCells, numNodes]

/-- An addition changes nothing but the count table. -/
theorem addToCounter_setCt (s : State) (k : Counter) (amount : Nat) (m : List (Nat × Count)) :
    (addToCounter s k amount).setCt m = s.setCt m := rfl

theorem counterOf_addToCounter_self (s : State) (k : Counter) (amount : Nat) :
    (counterOf (addToCounter s k amount) k).toNat = min ((counterOf s k).toNat + amount) (2 ^ 32 - 1) := bumpCount_self ..

theorem counterOf_addToCounter_other {k j : Counter} (hk : k.InRange) (hj : j.InRange) (h : j ≠ k) (s : State) (amount : Nat) :
    counterOf (addToCounter s k amount) j = counterOf s j := bumpCount_other hk.1 hk.2 hj.1 hj.2 h s amount

/-- Every COUNT_ADD of the merge is a well-formed command: what a counter holds fits `AMOUNT`. -/
theorem wellFormed_mergeCounter {k : Counter} (hk : k.InRange) (worker : State) : WellFormed (mergeCounter worker k) := by
  obtain ⟨hc, hn⟩ := hk
  obtain ⟨hband, hctx⟩ := cellInRange_iff.mp hc
  have fits := (counterOf worker k).isLt
  simp only [WellFormed, mergeCounter, Instr.wellFormed, CellRef.wellFormed, Bool.and_eq_true, decide_eq_true_eq]
  omega

theorem issueWord_mergeCounter {k : Counter} (hk : k.InRange) (worker : State) {s : State} (running : s.status.err = false) :
    issueWord (encode (mergeCounter worker k)) s = .next (addToCounter s k (counterOf worker k).toNat) :=
  (issueWord_command (ignoresWord_of_running _ running)
    (decodeOfEncodeIsTheCommand _ (wellFormed_mergeCounter hk worker))).trans (execCountAdd_inRange hk.1 hk.2 ..)

/-- Merging different counters one after the other adds to each of them once, and changes nothing but the count table. -/
theorem runCommands_mergeCounters (worker : State) {ks : List Counter} (hk : ∀ k ∈ ks, k.InRange) (distinct : ks.Nodup) {s : State}
    (running : s.status.err = false) : ∃ m, runCommands (ks.map (mergeCounter worker)) s = .next (s.setCt m) ∧
      (∀ k ∈ ks, (counterOf (s.setCt m) k).toNat = min ((counterOf s k).toNat + (counterOf worker k).toNat) (2 ^ 32 - 1)) ∧
      ∀ k, k.InRange → k ∉ ks → counterOf (s.setCt m) k = counterOf s k := by
  induction ks generalizing s with
  | nil => exact ⟨s.ct, rfl, nofun, fun _ _ _ => rfl⟩
  | cons k ks ih =>
    obtain ⟨first, later⟩ := List.forall_mem_cons.mp hk
    obtain ⟨fresh, distinct⟩ := List.nodup_cons.mp distinct
    obtain ⟨m, run, merged, kept⟩ := ih later distinct (s := addToCounter s k (counterOf worker k).toNat) running
    simp only [addToCounter_setCt] at run merged kept
    refine ⟨m, ?run, List.forall_mem_cons.mpr ⟨?first, fun j hj => ?later⟩, fun j hj out => ?out⟩
    case run =>
      rw [List.map_cons, runCommands, issueWord_mergeCounter first worker running]
      exact run
    case first =>
      rw [kept k first fresh, counterOf_addToCounter_self]
    case later =>
      rw [merged j hj, counterOf_addToCounter_other first (later j hj) (ne_of_mem_of_not_mem hj fresh)]
    case out =>
      rw [kept j hj (List.not_mem_of_not_mem_cons out), counterOf_addToCounter_other first hj (List.ne_of_not_mem_cons out)]

/-- Settles O45: the merge is one COUNT_ADD for each of the different counters. -/
theorem mergingAWorkerAddsItsCounts : Obligations.MergingAWorkerAddsItsCounts := by
  intro worker s running
  obtain ⟨m, run, merged, -⟩ :=
    runCommands_mergeCounters worker (fun _ => mem_allCounters.mp) allCounters_nodup running
  rw [mergeCommands_eq_map]
  exact ⟨_, run, fun c n b hband hctx hn => merged (c, n, b) (mem_allCounters.mpr ⟨cellInRange_iff.mpr ⟨hband, hctx⟩, hn⟩), rfl⟩

end Sys2Proof.Machine
end

section
/-! PROOFS of the family 70_reset_and_hazards.md: a bit source that falls silent, the values after a reset, and the boot sequence. -/

namespace Sys2Proof.Machine

/-! ## A silent bit source -/

/-- A code cut short, with nothing after it, leaves the decoder waiting for an answer (R126). -/
theorem diffUpdate_silent {u : Option Nat} (hu : ∀ w, u = some w → w ≤ 254) {k : Nat} (hk : k < (updateCode u).length) (p : Byte)
    (q : List Byte) :
    ∃ port, diffUpdate p { answers := validAnswers ((updateCode u).take k), requests := q } = .silent port := by
  have whole := diffUpdate_updateCode hu p [] q
  rw [List.append_nil] at whole
  rw [validAnswers, List.map_take]
  exact (extends_diffUpdate p).silent_of_cut whole (by rwa [validAnswers, List.length_map])

theorem execSubexpUpdate_silent {p : Byte} {s : State} (hp : p ≠ 0#8) {port : BitPort} (h : diffUpdate p s.port = .silent port) :
    execSubexpUpdate p s = .fault .bitSourceSilent := by
  simp [execSubexpUpdate, hp, h]

/-- A stream cut short ends the walk either inside the first entry's code or, that code read whole, inside the rest of the stream. -/
theorem fwdLoop_silent {P : Params} {upd : Nat → Option Nat} {xs : List Nat} (hu : ∀ i w, upd i = some w → w ≤ 254) {k : Nat}
    (hk : k < (streamCode upd xs).length) (pt : List Host.Cell) (q : List Byte) :
    ∃ pt' port, fwdLoop P xs pt { answers := validAnswers ((streamCode upd xs).take k), requests := q } = .silent pt' port := by
  induction xs generalizing k pt q with
  | nil => cases hk
  | cons x xs ih =>
    have stream : streamCode upd (x :: xs) = updateCode (upd x) ++ streamCode upd xs := List.flatMap_cons
    rw [stream] at hk ⊢
    rcases Nat.lt_or_ge k (updateCode (upd x)).length with inside | past
    · obtain ⟨port, waits⟩ := diffUpdate_silent (hu x) inside (Memory.read P.defaultPt pt x) q
      rw [List.take_append_of_le_length inside.le]
      exact ⟨pt, port, by simp only [fwdLoop, waits]⟩
    · obtain ⟨j, rfl⟩ := Nat.exists_eq_add_of_le past
      rw [List.length_append] at hk
      have first := diffUpdate_updateCode (hu x) (Memory.read P.defaultPt pt x) (validAnswers ((streamCode upd xs).take j)) q
      rw [List.take_length_add_append, validAnswers_append]
      simp only [fwdLoop, first]
      exact ih (Nat.lt_of_add_lt_add_left hk) ..

/-- Settles O14: `diffUpdate_silent` for SUBEXP_UPDATE, `fwdLoop_silent` for FWD_UPDATE. -/
theorem unansweredRequestIsStuck : Obligations.UnansweredRequestIsStuck := by
  refine fun s => ⟨fun p u k hp hu hk ha => ?subexp, fun upd k hu hk ha => ?fwd⟩
  case subexp =>
    obtain ⟨port, waits⟩ := diffUpdate_silent hu hk p s.port.requests
    rw [← port_eq ha] at waits
    exact execSubexpUpdate_silent hp waits
  case fwd =>
    obtain ⟨pt, port, waits⟩ := fwdLoop_silent (P := Config.params) hu hk s.pt s.port.requests
    rw [← port_eq ha] at waits
    exact exec_fwdUpdate_silent waits

/-! ## The values after a reset -/

/-- A reset between commands and one during a command differ only in the port they leave (R117). -/
theorem step_reset {s : State} {rest : List HostEvent}
    (h : s.bus.pending = .reset :: rest ∨ ∃ w n, s.bus.pending = .resetDuring w n :: rest) :
    ∃ p, step s = .next (platformReset ((afterEvent s rest).setPort p)) := by
  obtain hp | ⟨w, n, hp⟩ := h
  · exact ⟨s.port, step_event hp⟩
  · exact ⟨_, step_event hp⟩

/-- A reset leaves no error, so to clear one after it changes nothing. -/
theorem clearError_platformReset (s : State) : clearError (platformReset s) = platformReset s := rfl

section
variable (s : State)

@[simp] theorem statusWord_platformReset : statusWord (platformReset s) = 0#64 :=
  clearError_platformReset s ▸ statusWord_clearError _

@[simp] theorem irqOutput_platformReset : irqOutput (platformReset s) = false := rfl

/-- `CFG` has only `ADAPT_EN` set after a reset (R116). -/
@[simp] theorem cfgWord_platformReset : cfgWord (platformReset s).cfg = 0x2#64 := by
  show cfgWord Cfg.afterReset = _
  decide

@[simp] theorem blkWord_platformReset : blkWord (platformReset s).blk = 0#64 := by
  show blkWord Blk.clear = _
  decide

@[simp] theorem readPt_platformReset (P : Params) (i : Nat) : readPt P (platformReset s) i = P.defaultPt i := Memory.read_nil ..
@[simp] theorem readCt_platformReset (i : Nat) (br : Bool) : readCt (platformReset s) i br = 0#32 := Memory.read_nil ..
@[simp] theorem readTc_platformReset (c : Nat) : readTc (platformReset s) c = .zero := Memory.read_nil ..
@[simp] theorem readAc_platformReset (p k : Nat) : readAc (platformReset s) p k = false := Memory.read_nil ..
@[simp] theorem readLc_platformReset (p k : Nat) : readLc (platformReset s) p k = false := Memory.read_nil ..

end

/-- Settles O13: either reset ends in `platformReset`, whose values are R116's. -/
theorem resetSetsEveryValue : Obligations.ResetSetsEveryValue := by
  intro s rest h
  obtain ⟨p, reset⟩ := step_reset h
  exact ⟨_, reset, statusWord_platformReset _, irqOutput_platformReset _, cfgWord_platformReset _, rfl, rfl, blkWord_platformReset _,
    rfl, rfl, fun i _ => readPt_platformReset _ _ i, readCt_platformReset _, readTc_platformReset _, readAc_platformReset _,
    readLc_platformReset _, platformReset_bus _⟩

/-- Settles O15: `inv_reset` at the machine's configuration. -/
theorem resetMeetsInvariant : Obligations.ResetMeetsInvariant := inv_reset Config.params_lawful

/-! ## The boot sequence -/

/-- A well-formed command reaches its meaning through the decoder. -/
theorem issueWord_encode {i : Instr} (hi : WellFormed i) {s : State} (running : s.status.err = false) :
    issueWord (encode i) s = exec i s :=
  issueWord_command (ignoresWord_of_running _ running) (decodeOfEncodeIsTheCommand i hi)

theorem runCommands_cons {i : Instr} {s t : State} (h : issueWord (encode i) s = .next t) (rest : List Instr) :
    runCommands (i :: rest) s = runCommands rest t := by rw [runCommands, h]

/-- Commands that each change nothing change nothing one after the other. -/
theorem runCommands_unchanged {is : List Instr} {s : State} (running : s.status.err = false)
    (h : ∀ i ∈ is, WellFormed i ∧ exec i s = .next s) : runCommands is s = .next s := by
  induction is with
  | nil => rfl
  | cons i is ih =>
    obtain ⟨⟨hi, kept⟩, later⟩ := List.forall_mem_cons.mp h
    rw [runCommands_cons ((issueWord_encode hi running).trans kept), ih later]

/-- R119: with nothing listed in the memories, reloading the defaults, clearing the counts and clearing the edges change nothing. -/
theorem exec_tableResets_reset (c : Cfg) : ∀ i ∈ seqReset ++ ecClearAll,
    WellFormed i ∧ exec i (State.reset.setCfg c) = .next (State.reset.setCfg c) := by
  simp only [seqReset, ecClearAll, List.cons_append, List.nil_append, List.forall_mem_cons]
  exact ⟨⟨rfl, rfl⟩, ⟨rfl, rfl⟩, ⟨rfl, rfl⟩, nofun⟩

/-- Settles O60: SET_CONFIG writes `CFG`, and the commands after it change nothing. -/
theorem bootSequenceOnlyWritesCfg : Obligations.BootSequenceOnlyWritesCfg := by
  intro ce ae ie
  have configured : issueWord (encode (.setConfig ce ae ie)) State.reset =
      .next (State.reset.setCfg { compactEn := ce, adaptEn := ae, irqEn := ie }) := issueWord_encode rfl rfl
  exact (runCommands_cons configured _).trans (runCommands_unchanged rfl (exec_tableResets_reset _))

end Sys2Proof.Machine
end
